-- ==== Sys2Proof/Word.lean ====
section
/-! DEFINITION. The bit widths of S3XP: operation words, bytes, pixel values, colours (rules R17, R31, R32, R72). -/

namespace Sys2Proof

/-- An operation word: every operation is one 64-bit word (R72). -/
abbrev Word := BitVec 64

/-- The unit of both memories (R50). -/
abbrev Byte := BitVec 8

/-- A palette index 0 to 3, compared for equality only (R17, R100). -/
abbrev PixelValue := BitVec 2

/-- A 24-bit colour, copied and never interpreted (R31). -/
abbrev Colour := BitVec 24

/-- A value of the draw-colour selector: four 4-bit fields (R32). -/
abbrev DrawColour := BitVec 16

end Sys2Proof
end

