-- ==== Sys2Proof/Config.lean ====
section
/-! DEFINITION. The parameters of S3XP (rule R7, section "Implementation parameters") and the one free value of the
model. The derived parameters and the check a parameter set must pass stand in Machine/Params.lean. -/

namespace Sys2Proof

/-- One glyph of the host's font: the pixel of row `r`, column `k` is bit `8*r + k` of `cell` (log 2). Every
function FONT(ch, col, row) of R175 is a list of these. -/
structure FontGlyph where
  code : Byte
  cell : BitVec 64
deriving DecidableEq, Repr

/-- A parameter set (R7). `N` is the length of `label`, `COLOR_TABLE_SIZE` the length of `screenColors`. -/
structure Config where
  screenW      : Nat
  screenH      : Nat
  speed        : Nat
  stripeHeight : Nat
  ncc          : Nat
  screenColors : List Colour
  bgColor      : Colour
  bgIndex      : PixelValue
  label        : List Byte
  glyphW       : Nat
  glyphH       : Nat
  textDc       : DrawColour
  compositeDc  : DrawColour
  font         : List FontGlyph
  clockBits    : Nat
deriving DecidableEq, Repr

/-- The parameter set of `State.reset`. The numbers are the defaults of R7. LABEL, SCREEN_COLORS and FONT have no
value in the spec (D13, D14, D18): DESIGN CHOICE (log 2), unsafe: they are the test values of 95_test_vectors.md L3.
No statement rests on them. -/
def Config.atReset : Config where
  screenW      := 160
  screenH      := 160
  speed        := 4
  stripeHeight := 8
  ncc          := 3
  screenColors := [0xC00000, 0xC00001, 0xC00002, 0xC00003, 0xC00004, 0xC00005, 0xC00006]
  bgColor      := 0x000000
  bgIndex      := 0
  label        := [0x41]
  glyphW       := 8
  glyphH       := 8
  textDc       := 0x0002
  compositeDc  := 0x0010
  font         := [⟨0x41, 0x8040201818040201⟩]
  clockBits    := 32

/-- FREE VALUE (log 8): the PixelValue that surface pixel (x, y) takes when a drawing primitive, the `n`-th the host
performs, draws it through a draw-colour field of 5 to 15, whose meaning "is the host's and not in the source"
(R173, U6). It may be the value the pixel had. Nothing in Lean can evaluate it. -/
opaque Config.hostPixel (n : Nat) (x y : Int) : PixelValue

end Sys2Proof
end

