-- ==== Sys2Proof/Machine/Params.lean ====
section
/-! DEFINITION. Arithmetic of the pseudocode (R11), the derived parameters (R7) and the check of a parameter set
(R8, R232). -/

namespace Sys2Proof

/-- `fdiv(a, b)`, flooring division, for `b > 0` (R11): Lean's `/` on `Int` rounds down when the divisor is positive. -/
def fdiv (a b : Int) : Int := a / b

/-- `emod(a, b) = a - b*fdiv(a, b)` (R11). -/
def emod (a b : Int) : Int := a - b * fdiv a b

/-- `N`, the label's length in characters (R7). -/
def Config.n (c : Config) : Nat := c.label.length

/-- `COLOR_TABLE_SIZE` (R7). -/
def Config.cts (c : Config) : Nat := c.screenColors.length

/-- `WINDOW_HEIGHT = (NCC-1)*STRIPE_HEIGHT` (R7). -/
def Config.windowHeight (c : Config) : Nat := (c.ncc - 1) * c.stripeHeight

/-- `SRC_W = 8*N` (R7). -/
def Config.srcW (c : Config) : Nat := c.glyphW * c.n

/-- `SRC_H = 8` (R7). -/
def Config.srcH (c : Config) : Nat := c.glyphH

/-- `MASK_W = 24*N` (R7). -/
def Config.maskW (c : Config) : Nat := 3 * c.srcW

/-- `MASK_H = 24` (R7). -/
def Config.maskH (c : Config) : Nat := 3 * c.srcH

/-- `MASK_BYTES = ceil(MASK_W*MASK_H/8)` (R7). -/
def Config.maskBytes (c : Config) : Nat := (c.maskW * c.maskH + 7) / 8

/-- `SURF_BYTES = ceil(SCREEN_W*SCREEN_H/4)` (R7). -/
def Config.surfBytes (c : Config) : Nat := (c.screenW * c.screenH + 3) / 4

/-- The constraints of R8. -/
abbrev Config.MeetsR8 (c : Config) : Prop :=
  c.ncc = 3 ∧ 1 ≤ c.stripeHeight ∧ 1 ≤ c.speed ∧ 1 ≤ c.cts ∧ 1 ≤ c.n ∧
    8 * c.n ≤ c.screenW ∧ 8 ≤ c.screenH ∧ c.screenW = c.screenH

/-- The drift check of R232. -/
abbrev Config.MeetsR232 (c : Config) : Prop :=
  c.maskBytes * 8 = c.maskW * c.maskH ∧ c.maskW = 3 * c.srcW ∧ c.maskH = 3 * c.srcH ∧
    c.srcW = 8 * c.n ∧ c.srcH = 8 ∧ c.windowHeight = (c.ncc - 1) * c.stripeHeight

/-- A parameter set the model admits: exactly those that meet R8 and R232. -/
abbrev Config.Ok (c : Config) : Prop := c.MeetsR8 ∧ c.MeetsR232

/-- `v` is a value that CLOCK_BITS bits hold in two's complement: `-2^(CLOCK_BITS-1) <= v < 2^(CLOCK_BITS-1)` (R21). -/
abbrev Config.ClockHolds (c : Config) (v : Int) : Prop := -(2 ^ c.clockBits) ≤ 2 * v ∧ 2 * v < 2 ^ c.clockBits

/-- What a CLOCK_BITS-wide two's-complement register holds after `v` is stored in it (R21): `v` itself when
`ClockHolds` (log 15). -/
def Config.storedClock (c : Config) (v : Int) : Int := v.bmod (2 ^ c.clockBits)

/-- CLOCK_BITS is wide enough for every value R152 says is stored. -/
abbrev Config.ClockFits (c : Config) : Prop :=
  c.ClockHolds (1 - (c.windowHeight : Int)) ∧ c.ClockHolds ((c.screenH : Int) - 1)

/-- What R141, R26 and D8 say of the widths, as a premise of statements about words (log 3): the rows
`-(WH-1) .. SCREEN_H+WH-2` fit a signed 16-bit field, the blit's width an unsigned one, the clock its register. No step
is refused for it. -/
abbrev Config.FitsFields (c : Config) : Prop :=
  c.screenH + c.windowHeight ≤ 32769 ∧ 24 * c.n < 65536 ∧ c.ClockFits

/-- `FONT(ch, col, row)`: whether the pixel of a character's cell is foreground (R175). A character the list does not
hold has no foreground pixel. -/
def Config.fontBit (c : Config) (ch : Byte) (col row : Nat) : Bool :=
  match c.font.find? (fun g => g.code == ch) with
  | some g => g.cell.getLsbD (8 * row + col)
  | none => false

/-- `LABEL[j]` (R34), for `j < N`. -/
def Config.labelAt (c : Config) (j : Nat) : Byte := c.label.getD j 0

/-- `SCREEN_COLORS[k]` (R34), for `k < CTS`. -/
def Config.colourAt (c : Config) (k : Nat) : Colour := c.screenColors.getD k 0

end Sys2Proof
end

