-- ==== Sys2Proof/Syntax.lean ====
section
/-! DEFINITION. The operations of S3XP: one constructor a row of spec/opcode_table.json (rules R71, R73, R74, R77). -/

namespace Sys2Proof

/-- The seventeen operations, operands in the order of their written form (R77). A coordinate, a width or a length is
the number its field stands for (R74): unsigned `Nat`, or signed `Int` where R73 says signed. -/
inductive Instr where
  /-- `START` (R123): the source's `start()`. -/
  | start
  /-- `UPDATE` (R153): the source's `update()`. -/
  | update
  /-- `RD2 x, y` (R90). -/
  | rd2 (x y : Nat)
  /-- `RD1 x, y` (R91). -/
  | rd1 (x y : Nat)
  /-- `WR1 x, y, bit` (R92). -/
  | wr1 (x y : Nat) (bit : Bool)
  /-- `GATHER x, y` (R120). -/
  | gather (x y : Nat)
  /-- `S3X` (R105). -/
  | s3x
  /-- `EMIT x, y` (R121). -/
  | emit (x y : Nat)
  /-- `PALUPD` (R140). -/
  | palupd
  /-- `STRIPES` (R143). -/
  | stripes
  /-- `COMPOSITE` (R146). -/
  | composite
  /-- `ADVANCE` (R150). -/
  | advance
  /-- `SETPAL slot, rgb` (R171). -/
  | setpal (slot : BitVec 2) (rgb : Colour)
  /-- `SETDC value` (R172). -/
  | setdc (value : DrawColour)
  /-- `TEXT x, y` (R175); the literal is LABEL, by reference (R74). -/
  | text (x y : Int)
  /-- `HLINE x, y, len` (R176). -/
  | hline (x y : Int) (len : Nat)
  /-- `BLIT1 x, y, w, h` (R177); the bitmap is MASK, by reference (R74). -/
  | blit1 (x y : Int) (w h : Nat)
deriving DecidableEq, Repr

/-- Where an operation's words appear (R71). -/
inductive OpClass where
  /-- The command port. -/
  | command
  /-- No port: the sequencer's own steps. -/
  | internal
  /-- The primitive port. -/
  | primitive
deriving DecidableEq, Repr

/-- The class of each operation (R73's opcode map). -/
def Instr.opClass : Instr → OpClass
  | .start | .update => .command
  | .rd2 _ _ | .rd1 _ _ | .wr1 _ _ _ | .gather _ _ | .s3x | .emit _ _ => .internal
  | .palupd | .stripes | .composite | .advance => .internal
  | .setpal _ _ | .setdc _ | .text _ _ | .hline _ _ _ | .blit1 _ _ _ _ => .primitive

/-- The mnemonic as spec/opcode_table.json spells it. -/
def Instr.mnemonic : Instr → String
  | .start => "START"
  | .update => "UPDATE"
  | .rd2 _ _ => "RD2"
  | .rd1 _ _ => "RD1"
  | .wr1 _ _ _ => "WR1"
  | .gather _ _ => "GATHER"
  | .s3x => "S3X"
  | .emit _ _ => "EMIT"
  | .palupd => "PALUPD"
  | .stripes => "STRIPES"
  | .composite => "COMPOSITE"
  | .advance => "ADVANCE"
  | .setpal _ _ => "SETPAL"
  | .setdc _ => "SETDC"
  | .text _ _ => "TEXT"
  | .hline _ _ _ => "HLINE"
  | .blit1 _ _ _ _ => "BLIT1"

end Sys2Proof
end

