-- ==== Sys2Proof/Machine/State.lean ====
section
/-! DEFINITION. The state of S3XP as plain data (10_state.md, rules R20 to R38) and the reasons a step can stop. -/

namespace Sys2Proof.Machine

/-- The life-cycle phase `PHASE` (R22): UNSTARTED = 0, RUNNING = 1, HALTED = 2; the fourth code is unused, and no
port shows the register, so it is held by name. -/
inductive Phase where
  | unstarted | running | halted
deriving DecidableEq, Repr

/-- The sequencer position `SEQ` (R24). -/
inductive Seq where
  | idle
  | sPal0 | sDc | sText | sGather | sS3x | sEmit
  | uPalupd | uStripes | uComposite | uAdvance
deriving DecidableEq, Repr

/-- The nine positions of a neighbourhood, row-major, `e` the centre (R16, R100). -/
inductive Letter where
  | a | b | c | d | e | f | g | h | i
deriving DecidableEq, Repr

/-- The neighbourhood latches `NB.a` … `NB.i` (R27). -/
structure Neighbourhood where
  a : PixelValue
  b : PixelValue
  c : PixelValue
  d : PixelValue
  e : PixelValue
  f : PixelValue
  g : PixelValue
  h : PixelValue
  i : PixelValue
deriving DecidableEq, Repr

/-- The boundary flags `EDGE.L`, `EDGE.R`, `EDGE.T`, `EDGE.B`, the block's only flags (R28). -/
structure EdgeFlags where
  l : Bool
  r : Bool
  t : Bool
  b : Bool
deriving DecidableEq, Repr

/-- The output latches `P[1]` … `P[9]` (R29). -/
structure OutputLatches where
  p1 : PixelValue
  p2 : PixelValue
  p3 : PixelValue
  p4 : PixelValue
  p5 : PixelValue
  p6 : PixelValue
  p7 : PixelValue
  p8 : PixelValue
  p9 : PixelValue
deriving DecidableEq, Repr

/-- The host's palette table `PAL[0]` … `PAL[3]` (R31). -/
structure Palette where
  c0 : Colour
  c1 : Colour
  c2 : Colour
  c3 : Colour
deriving DecidableEq, Repr

/-- A byte array as the cells that differ from what an unlisted byte reads as, byte indices strictly rising
(R50; canonical form `Memory.wf` in Machine/Ops.lean). -/
abbrev Memory := List Host.Cell

/-- What the outside world presents, as data (R70, R181, R191; log 10, 11). -/
inductive HostEvent where
  /-- A word on the command port (R70 (1)). -/
  | command (w : Word)
  /-- The reset input (R70 (4), R220). -/
  | reset
  /-- An operation of class U or P issued on its own by a model or a test (R191; the vectors V-PRIM), as a word; no
  port of the block takes it (R71). -/
  | issue (w : Word)
  /-- The host writes byte `k` of its surface between hooks (R181). -/
  | writeSurf (k : Nat) (v : Byte)
  /-- The host writes its palette between hooks (R181). -/
  | writePal (slot : BitVec 2) (rgb : Colour)
  /-- The host writes its draw-colour selector between hooks (R181). -/
  | writeDc (value : DrawColour)
deriving DecidableEq, Repr

/-- Everything the spec gives the machine, and the model's own fields after it (INVENTORY.md, "State"). -/
structure State where
  /-- The constants (R7, R34): no operation writes them (log 1). -/
  cfg      : Config
  /-- `CLOCK`, the signed value that its CLOCK_BITS bits hold (R21; log 15). -/
  clock    : Int
  /-- `PHASE` (R22). -/
  phase    : Phase
  /-- `SEQ` (R24). -/
  seq      : Seq
  /-- `MASK` (R23). -/
  mask     : Memory
  /-- `SURF`, the host's (R33). -/
  surf     : Memory
  /-- `X` (R26). -/
  x        : BitVec 16
  /-- `Y` (R26). -/
  y        : BitVec 16
  /-- `NB` (R27). -/
  nb       : Neighbourhood
  /-- `EDGE` (R28). -/
  edge     : EdgeFlags
  /-- `P[1..9]` (R29). -/
  out      : OutputLatches
  /-- `RES` (R30). -/
  res      : BitVec 2
  /-- `PAL`, the host's (R31). -/
  pal      : Palette
  /-- `DC`, the host's (R32). -/
  dc       : DrawColour
  /-- MODEL: host events not yet taken, oldest first (log 10). -/
  inputs   : List HostEvent
  /-- MODEL: the operations presented on the primitive port, oldest first (R70 (2); log 13). -/
  requests : List Instr
  /-- MODEL: a command transaction was presented and has not completed (R70 (1), R193; log 13). -/
  cmdOpen  : Bool
  /-- MODEL: drawing primitives performed, the index of the free value of R173 (log 8). -/
  draws    : Nat
deriving DecidableEq, Repr

/-- The labels of a halt (R190): "labels of the model, for traces and proofs only"; no register holds one (R36). -/
inductive HaltCause where
  /-- `BP_RANGE` (R191): a coordinate outside the operation's grid. -/
  | bpRange
  /-- `PROTOCOL` (R192): a hook that is not legal in the current phase. -/
  | protocol
  /-- `ILLEGAL_CMD` (R192): a command word that is not START or UPDATE. -/
  | illegalCmd
deriving DecidableEq, Repr

/-- S3XP has no fault that ends the machine outside its own state: every trap is the halt of R193, a NEXT state
(log 7). So no constructor exists and no step answers a fault. -/
inductive Fault
deriving DecidableEq, Repr

/-- Why a step is refused. -/
inductive Refusal where
  /-- Raised by an arm of `exec` for an instruction without a meaning. None is. Safe: nothing runs. -/
  | notModelled (mnemonic : String)
  /-- Raised by `step` when the parameters break R8 or R232: "a parameter set that breaks one of these is outside the
  spec; the model refuses it" (R8). Safe: nothing runs (log 3). -/
  | badParameters
  /-- Raised by BLIT1 when `w*h > 8*MASK_BYTES`: "the rule gives it no meaning" (R177, U7). Safe (log 9). -/
  | blitBeyondMask
  /-- Raised by `step` for an issued word that spells no operation: "the block itself never emits a word that spells
  nothing" (R75). Safe (log 11). -/
  | issuedWordSpellsNothing
  /-- Raised by `step` for START or UPDATE issued on its own: each is "accepted on the command port only" (R123,
  R153). Safe (log 11). -/
  | issuedCommand
  /-- Raised by `step` for a host event that names a surface byte that does not exist (R50). Safe (log 10). -/
  | hostWriteOutsideSurface
deriving DecidableEq, Repr

/-- What an operation does: it is done, it has halted the block (the state is the halted one), or it has no meaning. -/
inductive Result where
  | done (s : State)
  | halted (why : HaltCause) (s : State)
  | refused (r : Refusal)
deriving DecidableEq, Repr

/-- Where the operation that a step performs comes from. -/
inductive OpSource where
  /-- The sequencer's position (R24). -/
  | sequencer
  /-- The command port (R70 (1)). -/
  | commandPort
  /-- Issued on its own (R191). -/
  | issued
deriving DecidableEq, Repr

/-- What a step finds to do. -/
inductive Fetched where
  /-- Perform the operation, in the state given. -/
  | operation (src : OpSource) (i : Instr) (s : State)
  /-- Nothing for the block to perform: it waits, or the host has acted on its own state, or reset. -/
  | silent (s : State)
  /-- A command word halts the block (R192). -/
  | illegal (why : HaltCause) (s : State)
  /-- No such move. -/
  | refuse (r : Refusal)
deriving DecidableEq, Repr

/-- The machine right after reset (R37). CLOCK, PHASE and SEQ are the spec's. DESIGN CHOICE, unsafe (log 2, 4, 5,
6): the other values, for which the spec says "unspecified": zeros, and the test parameters of `Config.atReset`. -/
def State.reset : State where
  cfg      := Config.atReset
  clock    := 0
  phase    := .unstarted
  seq      := .idle
  mask     := []
  surf     := []
  x        := 0
  y        := 0
  nb       := ⟨0, 0, 0, 0, 0, 0, 0, 0, 0⟩
  edge     := ⟨false, false, false, false⟩
  out      := ⟨0, 0, 0, 0, 0, 0, 0, 0, 0⟩
  res      := 0
  pal      := ⟨0, 0, 0, 0⟩
  dc       := 0
  inputs   := []
  requests := []
  cmdOpen  := false
  draws    := 0

end Sys2Proof.Machine
end

