-- ==== Sys2Proof/Machine/Ops.lean ====
section
/-! DEFINITION. The named operations over memory and registers, the halt, and reset (rules R13, R50, R170, R193, R220). -/

namespace Sys2Proof.Machine

/-! Memory. -/

/-- What a byte that nothing has written reads as, in both memories. DESIGN CHOICE, unsafe (log 6): the spec says
"unspecified" (R23, R33). -/
def unlistedByte : Byte := 0

/-- `MemRead(buffer+k, 1)` (R13). -/
def Memory.read : Memory → Nat → Byte
  | [], _ => unlistedByte
  | (a, v) :: rest, k => if a = k then v else Memory.read rest k

/-- The cell `(k, v)` in front of `rest`, left out when an unlisted byte reads as `v`. -/
def Memory.cons (k : Nat) (v : Byte) (rest : Memory) : Memory :=
  if v = unlistedByte then rest else (k, v) :: rest

/-- `MemWrite(buffer+k, 1, v)` (R13). -/
def Memory.write : Memory → Nat → Byte → Memory
  | [], k, v => Memory.cons k v []
  | (a, b) :: rest, k, v =>
      if k < a then Memory.cons k v ((a, b) :: rest)
      else if k = a then Memory.cons k v rest
      else (a, b) :: Memory.write rest k v

/-- The canonical form: byte indices strictly rise and no cell holds what an unlisted byte reads as. -/
abbrev Memory.wf (m : Memory) : Prop :=
  m.Pairwise (fun p q => p.1 < q.1) ∧ ∀ p ∈ m, p.2 ≠ unlistedByte

/-- Every listed byte lies inside a buffer of `size` bytes (R50, R56). -/
abbrev Memory.within (size : Nat) (m : Memory) : Prop := ∀ p ∈ m, p.1 < size

/-! One named update a field of State. -/

def State.setClock (s : State) (v : Int) : State := { s with clock := v }
def State.setPhase (s : State) (v : Phase) : State := { s with phase := v }
def State.setSeq (s : State) (v : Seq) : State := { s with seq := v }
def State.setMask (s : State) (v : Memory) : State := { s with mask := v }
def State.setSurf (s : State) (v : Memory) : State := { s with surf := v }
/-- Sets the loop counters (R26); 16 bits each. -/
def State.setCounters (s : State) (x y : Nat) : State := { s with x := BitVec.ofNat 16 x, y := BitVec.ofNat 16 y }
def State.setNb (s : State) (v : Neighbourhood) : State := { s with nb := v }
def State.setEdge (s : State) (v : EdgeFlags) : State := { s with edge := v }
def State.setOut (s : State) (v : OutputLatches) : State := { s with out := v }
def State.setRes (s : State) (v : BitVec 2) : State := { s with res := v }
def State.setPal (s : State) (v : Palette) : State := { s with pal := v }
def State.setDc (s : State) (v : DrawColour) : State := { s with dc := v }
def State.setInputs (s : State) (v : List HostEvent) : State := { s with inputs := v }
def State.setCmdOpen (s : State) (v : Bool) : State := { s with cmdOpen := v }
/-- Presents an operation on the primitive port (R70 (2), R170). -/
def State.request (s : State) (i : Instr) : State := { s with requests := s.requests ++ [i] }
/-- Counts a drawing primitive (log 8). -/
def State.countDraw (s : State) : State := { s with draws := s.draws + 1 }

/-! Results and sequences of operations. -/

/-- `r ; f`: the next operation, when the one before it is done; a halt or a refusal ends the sequence (R193). -/
def Result.andThen (r : Result) (f : State → Result) : Result :=
  match r with
  | .done s => f s
  | .halted why s => .halted why s
  | .refused why => .refused why

/-- `for a in as: f a` (R15): in the order of the list. -/
def runAll {α : Type} (f : α → State → Result) : List α → State → Result
  | [], s => .done s
  | a :: as, s => (f a s).andThen (fun s' => runAll f as s')

/-- `raise Halt(c)` (R193): "the operation in progress stops at once"; PHASE becomes HALTED, SEQ stays, nothing is
saved and everything else keeps its value. -/
def halt (why : HaltCause) (s : State) : Result := .halted why (s.setPhase .halted)

/-- What a result is to the step. A halt is a next state, the halted one; its label is in no register (R190, R36). -/
def Result.outcome : Result → Host.Outcome State Fault Refusal
  | .done s => .next s
  | .halted _ s => .next s
  | .refused r => .refused r

/-- Reset (R220), and with it the only way out of HALTED (R194): CLOCK, PHASE and SEQ take their reset values; MASK
and the working registers, which "become unspecified", take the values log 4 names; the host's PAL, DC and SURF and
the constants stay (log 16). -/
def resetBlock (s : State) : State :=
  { s with
    clock   := State.reset.clock
    phase   := State.reset.phase
    seq     := State.reset.seq
    mask    := State.reset.mask
    x       := State.reset.x
    y       := State.reset.y
    nb      := State.reset.nb
    edge    := State.reset.edge
    out     := State.reset.out
    res     := State.reset.res
    cmdOpen := State.reset.cmdOpen }

end Sys2Proof.Machine
end

