-- ==== Sys2Proof/Machine/Operands.lean ====
section
/-! DEFINITION. How pixels lie in bytes (R51, R52), how latches and palette entries are named (R27, R29, R31), what a
draw colour means and how a pixel is drawn (R173, R174, R179). -/

namespace Sys2Proof.Machine

/-! Packing of the surface: lowest-numbered pixel in the lowest bits (R51). -/

/-- `offset = y*stride + x` in a row-major grid (R16). -/
def pixelOffset (stride x y : Nat) : Nat := y * stride + x

/-- The byte of a 2-bit pixel: `offset / 4` (R51). -/
def byteOf2 (offset : Nat) : Nat := offset / 4

/-- The low bit of a 2-bit pixel in its byte: `(offset % 4) * 2` (R51). -/
def shiftOf2 (offset : Nat) : Nat := (offset % 4) * 2

/-- `(byte >> s) & 0b11` (R90). -/
def getPixel2 (byte : Byte) (s : Nat) : PixelValue := (byte >>> s).setWidth 2

/-- `(byte & ~(0b11 << s) & 0xFF) | (v << s)` (R174). -/
def putPixel2 (byte : Byte) (s : Nat) (v : PixelValue) : Byte :=
  (byte &&& ~~~(0b11#8 <<< s)) ||| (v.setWidth 8 <<< s)

/-! Packing of the mask: lowest-numbered pixel in the highest bit (R52). -/

/-- The byte of a 1-bit pixel: `offset / 8` (R52). -/
def byteOf1 (offset : Nat) : Nat := offset / 8

/-- The bit of a 1-bit pixel in its byte: `7 - (offset % 8)` (R52). -/
def shiftOf1 (offset : Nat) : Nat := 7 - offset % 8

/-- `(byte >> s) & 1` (R91). -/
def getPixel1 (byte : Byte) (s : Nat) : Bool := (byte >>> s).getLsbD 0

/-- `(byte & ~(1 << s) & 0xFF) | (bit << s)` (R92). -/
def putPixel1 (byte : Byte) (s : Nat) (bit : Bool) : Byte :=
  (byte &&& ~~~(1#8 <<< s)) ||| ((BitVec.ofBool bit).setWidth 8 <<< s)

/-- The PixelValue of surface pixel `(x, y)`, for coordinates inside the surface (R51, R90). -/
def surfPixel (c : Config) (m : Memory) (x y : Nat) : PixelValue :=
  getPixel2 (m.read (byteOf2 (pixelOffset c.screenW x y))) (shiftOf2 (pixelOffset c.screenW x y))

/-- The bit of pixel `(x, y)` of a 1-bit grid of width `width` (R52, R91). -/
def bitmapBit (m : Memory) (width x y : Nat) : Bool :=
  getPixel1 (m.read (byteOf1 (pixelOffset width x y))) (shiftOf1 (pixelOffset width x y))

/-- The bit of mask pixel `(x, y)`, for coordinates inside the mask (R52, R91). -/
def maskBit (c : Config) (m : Memory) (x y : Nat) : Bool := bitmapBit m c.maskW x y

/-! Latches and palette entries. -/

/-- `NB.u` (R27). -/
def Neighbourhood.get (nb : Neighbourhood) : Letter → PixelValue
  | .a => nb.a | .b => nb.b | .c => nb.c | .d => nb.d | .e => nb.e
  | .f => nb.f | .g => nb.g | .h => nb.h | .i => nb.i

/-- `NB.u <- v` (R27). -/
def Neighbourhood.set (nb : Neighbourhood) (u : Letter) (v : PixelValue) : Neighbourhood :=
  match u with
  | .a => { nb with a := v } | .b => { nb with b := v } | .c => { nb with c := v }
  | .d => { nb with d := v } | .e => { nb with e := v } | .f => { nb with f := v }
  | .g => { nb with g := v } | .h => { nb with h := v } | .i => { nb with i := v }

/-- `P[k]` for `k` in 1 .. 9 (R29). -/
def OutputLatches.get (p : OutputLatches) : Nat → PixelValue
  | 1 => p.p1 | 2 => p.p2 | 3 => p.p3 | 4 => p.p4 | 5 => p.p5
  | 6 => p.p6 | 7 => p.p7 | 8 => p.p8 | _ => p.p9

/-- `PAL[slot]` (R31). -/
def Palette.get (p : Palette) (slot : BitVec 2) : Colour :=
  match slot.toNat with
  | 0 => p.c0 | 1 => p.c1 | 2 => p.c2 | _ => p.c3

/-- `PAL[slot] <- rgb` (R171). -/
def Palette.set (p : Palette) (slot : BitVec 2) (rgb : Colour) : Palette :=
  match slot.toNat with
  | 0 => { p with c0 := rgb } | 1 => { p with c1 := rgb } | 2 => { p with c2 := rgb } | _ => { p with c3 := rgb }

/-! Draw colours and drawing. -/

/-- Field `k` of a draw colour: `DC[4k+3 : 4k]` (R173). -/
def dcField (dc : DrawColour) (k : Nat) : BitVec 4 := dc.extractLsb' (4 * k) 4

/-- What a logical colour is drawn as (R173). -/
inductive DcTarget where
  /-- Field value 0: the pixel is left as it was. -/
  | transparent
  /-- Field value `n` in 1 .. 4: the pixel is set to PixelValue `n-1`. -/
  | slot (v : PixelValue)
  /-- Field value 5 to 15: "its meaning is the host's and not in the source". -/
  | hostDefined
deriving DecidableEq, Repr

/-- `dcmap(k)` (R173). -/
def dcmap (dc : DrawColour) (k : Nat) : DcTarget :=
  let n := (dcField dc k).toNat
  if n = 0 then .transparent else if n ≤ 4 then .slot (BitVec.ofNat 2 (n - 1)) else .hostDefined

/-- A pixel lies on the surface (R174, R179). -/
abbrev onSurface (c : Config) (x y : Int) : Prop := 0 ≤ x ∧ x < c.screenW ∧ 0 ≤ y ∧ y < c.screenH

/-- `SurfSet(x, y, v)` (R174): sets one pixel; a pixel off the surface is dropped, the host's clipping (R179). -/
def surfSet (c : Config) (m : Memory) (x y : Int) (v : PixelValue) : Memory :=
  if onSurface c x y then
    let offset := pixelOffset c.screenW x.toNat y.toNat
    m.write (byteOf2 offset) (putPixel2 (m.read (byteOf2 offset)) (shiftOf2 offset) v)
  else m

/-- A pixel that a primitive draws, and the logical colour it is drawn in. -/
structure Dot where
  x : Int
  y : Int
  k : Nat
deriving DecidableEq, Repr

/-- `Draw(x, y, k)` (R174) by the `n`-th drawing primitive. Through a field of 5 to 15 the pixel takes a free value
(log 8). -/
def drawDot (c : Config) (dc : DrawColour) (n : Nat) (m : Memory) (p : Dot) : Memory :=
  match dcmap dc p.k with
  | .transparent => m
  | .slot v => surfSet c m p.x p.y v
  | .hostDefined => surfSet c m p.x p.y (Config.hostPixel n p.x p.y)

/-- Draws the dots in order, with the current draw colour, and counts the primitive. -/
def State.draw (s : State) (dots : List Dot) : State :=
  (s.setSurf (dots.foldl (drawDot s.cfg s.dc s.draws) s.surf)).countDraw

end Sys2Proof.Machine
end

