-- ==== Sys2Proof/Machine/Primitives.lean ====
section
/-! DEFINITION. The host primitives: SETPAL, SETDC, TEXT, HLINE, BLIT1 (44_host_primitives.md, R170 to R182). Each
presents itself on the primitive port and then has its whole effect (R170). -/

namespace Sys2Proof.Machine

/-- `SETPAL slot, rgb` (R171). -/
def setpal (slot : BitVec 2) (rgb : Colour) (s : State) : State :=
  (s.request (.setpal slot rgb)).setPal (s.pal.set slot rgb)

/-- `SETDC value` (R172). -/
def setdc (value : DrawColour) (s : State) : State := (s.request (.setdc value)).setDc value

/-- The foreground pixels of the label with its first cell at `(x, y)`, in logical colour 0 (R175). -/
def textDots (c : Config) (x y : Int) : List Dot :=
  (List.range c.n).flatMap fun (j : Nat) =>
    (List.range c.glyphH).flatMap fun (row : Nat) =>
      ((List.range c.glyphW).filter fun (col : Nat) => c.fontBit (c.labelAt j) col row).map fun (col : Nat) =>
        ⟨x + ((c.glyphW * j + col : Nat) : Int), y + (row : Int), 0⟩

/-- `TEXT x, y` (R175). -/
def text (x y : Int) (s : State) : State := (s.request (.text x y)).draw (textDots s.cfg x y)

/-- The run of `len` pixels to the right of `(x, y)`, in logical colour 0 (R176). -/
def hlineDots (x y : Int) (len : Nat) : List Dot := (List.range len).map fun (j : Nat) => ⟨x + (j : Int), y, 0⟩

/-- `HLINE x, y, len` (R176). -/
def hline (x y : Int) (len : Nat) (s : State) : State := (s.request (.hline x y len)).draw (hlineDots x y len)

/-- The mask as a `w × h` bitmap with its corner at `(x, y)`; a pixel's bit is its logical colour (R177). -/
def blitDots (mask : Memory) (x y : Int) (w h : Nat) : List Dot :=
  (List.range h).flatMap fun (v : Nat) =>
    (List.range w).map fun (u : Nat) => ⟨x + (u : Int), y + (v : Int), if bitmapBit mask w u v then 1 else 0⟩

/-- `BLIT1 x, y, w, h` (R177). A bitmap that reaches beyond the mask has no meaning (U7, log 9). -/
def blit1 (x y : Int) (w h : Nat) (s : State) : Result :=
  if w * h ≤ 8 * s.cfg.maskBytes then
    .done ((s.request (.blit1 x y w h)).draw (blitDots s.mask x y w h))
  else .refused .blitBeyondMask

/-- The meaning of SETPAL (R171). -/
def execSetpal (slot : BitVec 2) (rgb : Colour) (s : State) : Host.Outcome State Fault Refusal :=
  .next (setpal slot rgb s)

/-- The meaning of SETDC (R172). -/
def execSetdc (value : DrawColour) (s : State) : Host.Outcome State Fault Refusal := .next (setdc value s)

/-- The meaning of TEXT (R175). -/
def execText (x y : Int) (s : State) : Host.Outcome State Fault Refusal := .next (text x y s)

/-- The meaning of HLINE (R176). -/
def execHline (x y : Int) (len : Nat) (s : State) : Host.Outcome State Fault Refusal := .next (hline x y len s)

/-- The meaning of BLIT1 (R177). -/
def execBlit1 (x y : Int) (w h : Nat) (s : State) : Host.Outcome State Fault Refusal := (blit1 x y w h s).outcome

end Sys2Proof.Machine
end

