-- ==== Sys2Proof/Machine/Animation.lean ====
section
/-! DEFINITION. The AnimationEngine: PALUPD, STRIPES, COMPOSITE, ADVANCE, UPDATE (43_animation.md, R140 to R156). -/

namespace Sys2Proof.Machine

/-- `stripe = fdiv(CLOCK, STRIPE_HEIGHT)` (R140). -/
def stripeOf (c : Config) (clock : Int) : Int := fdiv clock c.stripeHeight

/-- The slot PALUPD writes for index `i`: `1 + emod(dcp+i, NCC)` (R140). -/
def paletteSlot (c : Config) (clock : Int) (i : Nat) : BitVec 2 :=
  BitVec.ofInt 2 (1 + emod (emod (stripeOf c clock) c.ncc + i) c.ncc)

/-- The colour PALUPD writes for index `i`: `SCREEN_COLORS[emod(scp+i, CTS)]` (R140). -/
def paletteColour (c : Config) (clock : Int) (i : Nat) : Colour :=
  c.colourAt (emod (emod (stripeOf c clock) c.cts + i) c.cts).toNat

/-- `PALUPD` (R140): one SETPAL for each `i` in 0 .. NCC-1, in order. -/
def palupd (s : State) : State :=
  (List.range s.cfg.ncc).foldl
    (fun (t : State) (i : Nat) => setpal (paletteSlot s.cfg s.clock i) (paletteColour s.cfg s.clock i) t) s

/-- `band(y) = 2 + emod(fdiv(y, STRIPE_HEIGHT), NCC)` (R143, R144). -/
def bandOf (c : Config) (y : Int) : Int := 2 + emod (fdiv y c.stripeHeight) c.ncc

/-- One row of STRIPES: `SETDC band(y) ; HLINE 0, y, SCREEN_W` (R143, D24, D25). -/
def stripeRow (y : Int) (s : State) : State :=
  hline 0 y s.cfg.screenW (setdc (BitVec.ofInt 16 (bandOf s.cfg y)) s)

/-- `STRIPES` (R143): every row of the window `CLOCK .. CLOCK+WH-1`, on the screen or off it. -/
def stripes (s : State) : State :=
  (List.range s.cfg.windowHeight).foldl (fun (t : State) (i : Nat) => stripeRow (s.clock + (i : Int)) t) s

/-- `bx = SCREEN_W/2 - MASK_W/2` (R146); may be negative. -/
def compositeX (c : Config) : Int := ((c.screenW / 2 : Nat) : Int) - ((c.maskW / 2 : Nat) : Int)

/-- `by = SCREEN_H/2 - MASK_H/2` (R146). -/
def compositeY (c : Config) : Int := ((c.screenH / 2 : Nat) : Int) - ((c.maskH / 2 : Nat) : Int)

/-- `COMPOSITE` (R146). -/
def composite (s : State) : Result :=
  blit1 (compositeX s.cfg) (compositeY s.cfg) s.cfg.maskW s.cfg.maskH (setdc s.cfg.compositeDc s)

/-- The clock after ADVANCE: the sum is taken and compared as an integer, then stored in CLOCK_BITS bits (R150, R10,
R21). -/
def advancedClock (c : Config) (clock : Int) : Int :=
  let sum := clock + c.speed
  c.storedClock (if (c.screenH : Int) ≤ sum then 1 - (c.windowHeight : Int) else sum)

/-- `ADVANCE` (R150). -/
def advance (s : State) : State := s.setClock (advancedClock s.cfg s.clock)

/-- `UPDATE` (R153): the four steps in order, to completion. -/
def update (s : State) : Result :=
  if s.phase = .running then
    let s := palupd (s.setSeq .uPalupd)
    let s := stripes (s.setSeq .uStripes)
    (composite (s.setSeq .uComposite)).andThen fun s => .done ((advance (s.setSeq .uAdvance)).setSeq .idle)
  else halt .protocol s

/-- The meaning of PALUPD (R140). -/
def execPalupd (s : State) : Host.Outcome State Fault Refusal := .next (palupd s)

/-- The meaning of STRIPES (R143). -/
def execStripes (s : State) : Host.Outcome State Fault Refusal := .next (stripes s)

/-- The meaning of COMPOSITE (R146). -/
def execComposite (s : State) : Host.Outcome State Fault Refusal := (composite s).outcome

/-- The meaning of ADVANCE (R150). -/
def execAdvance (s : State) : Host.Outcome State Fault Refusal := .next (advance s)

/-- The meaning of UPDATE (R153). -/
def execUpdate (s : State) : Host.Outcome State Fault Refusal := (update s).outcome

end Sys2Proof.Machine
end

