-- ==== Sys2Proof/Machine/BitPlane.lean ====
section
/-! DEFINITION. The BitPlane unit: RD2, RD1, WR1 (40_bitplane.md, R90 to R94). -/

namespace Sys2Proof.Machine

/-- `RD2 x, y` (R90). The check is on each coordinate, before any memory is read (R191). -/
def rd2 (x y : Nat) (s : State) : Result :=
  if x < s.cfg.screenW ∧ y < s.cfg.screenH then .done (s.setRes (surfPixel s.cfg s.surf x y))
  else halt .bpRange s

/-- `RD1 x, y` (R91): `RES` bit 0 is the pixel, bit 1 is 0. -/
def rd1 (x y : Nat) (s : State) : Result :=
  if x < s.cfg.maskW ∧ y < s.cfg.maskH then
    .done (s.setRes ((BitVec.ofBool (maskBit s.cfg s.mask x y)).setWidth 2))
  else halt .bpRange s

/-- The mask after `WR1` on a coordinate inside it: one byte read, one bit changed, the byte written back (R92, R55). -/
def maskPut (c : Config) (m : Memory) (x y : Nat) (bit : Bool) : Memory :=
  let offset := pixelOffset c.maskW x y
  m.write (byteOf1 offset) (putPixel1 (m.read (byteOf1 offset)) (shiftOf1 offset) bit)

/-- `WR1 x, y, bit` (R92). -/
def wr1 (x y : Nat) (bit : Bool) (s : State) : Result :=
  if x < s.cfg.maskW ∧ y < s.cfg.maskH then .done (s.setMask (maskPut s.cfg s.mask x y bit))
  else halt .bpRange s

/-- The meaning of RD2 (R90). -/
def execRd2 (x y : Nat) (s : State) : Host.Outcome State Fault Refusal := (rd2 x y s).outcome

/-- The meaning of RD1 (R91). -/
def execRd1 (x y : Nat) (s : State) : Host.Outcome State Fault Refusal := (rd1 x y s).outcome

/-- The meaning of WR1 (R92). -/
def execWr1 (x y : Nat) (bit : Bool) (s : State) : Host.Outcome State Fault Refusal := (wr1 x y bit s).outcome

end Sys2Proof.Machine
end

