-- ==== Sys2Proof/Machine/Flags.lean ====
section
/-! DEFINITION. The boundary flags, the block's only flags (R28), presence (R102) and guarded comparison (R103). -/

namespace Sys2Proof.Machine

/-- The flags `GATHER x, y` writes (R28, R120). `SRC_W-1` and `SRC_H-1` are taken over the integers (R10). -/
def edgeFlags (c : Config) (x y : Nat) : EdgeFlags where
  l := decide (0 < x)
  r := decide (x + 1 < c.srcW)
  t := decide (0 < y)
  b := decide (y + 1 < c.srcH)

/-- `pres(u)`: the neighbour's position lies inside the source grid (R102). -/
def pres (e : EdgeFlags) : Letter → Bool
  | .a => e.l && e.t
  | .b => e.t
  | .c => e.r && e.t
  | .d => e.l
  | .e => true
  | .f => e.r
  | .g => e.l && e.b
  | .h => e.b
  | .i => e.r && e.b

/-- `EQ(u, v)`: false when either neighbour is absent (R103). -/
def guardedEq (nb : Neighbourhood) (e : EdgeFlags) (u v : Letter) : Bool :=
  pres e u && (pres e v && decide (nb.get u = nb.get v))

/-- `NE(u, v) = not EQ(u, v)` (R103, C6). -/
def guardedNe (nb : Neighbourhood) (e : EdgeFlags) (u v : Letter) : Bool := !guardedEq nb e u v

end Sys2Proof.Machine
end

