-- ==== Sys2Proof/Machine/Scale3x.lean ====
section
/-! DEFINITION. The Scale3x unit: S3X (41_scale3x.md, R100 to R110). -/

namespace Sys2Proof.Machine

/-- The corner predicate `K1`, top-left (R104). -/
def cornerK1 (nb : Neighbourhood) (e : EdgeFlags) : Bool :=
  guardedEq nb e .d .b && (guardedNe nb e .d .h && guardedNe nb e .b .f)

/-- The corner predicate `K3`, top-right (R104). -/
def cornerK3 (nb : Neighbourhood) (e : EdgeFlags) : Bool :=
  guardedEq nb e .b .f && (guardedNe nb e .b .d && guardedNe nb e .f .h)

/-- The corner predicate `K7`, bottom-left (R104). -/
def cornerK7 (nb : Neighbourhood) (e : EdgeFlags) : Bool :=
  guardedEq nb e .h .d && (guardedNe nb e .h .f && guardedNe nb e .d .b)

/-- The corner predicate `K9`, bottom-right (R104). -/
def cornerK9 (nb : Neighbourhood) (e : EdgeFlags) : Bool :=
  guardedEq nb e .f .h && (guardedNe nb e .f .b && guardedNe nb e .h .d)

/-- The nine equations, all from the same inputs (R105). -/
def scale3x (nb : Neighbourhood) (e : EdgeFlags) : OutputLatches :=
  let k1 := cornerK1 nb e
  let k3 := cornerK3 nb e
  let k7 := cornerK7 nb e
  let k9 := cornerK9 nb e
  let ne := guardedNe nb e
  { p1 := if k1 then nb.d else nb.e
    p2 := if (k1 && ne .e .c) || (k3 && ne .e .a) then nb.b else nb.e
    p3 := if k3 then nb.f else nb.e
    p4 := if (k7 && ne .e .a) || (k1 && ne .e .g) then nb.d else nb.e
    p5 := nb.e
    p6 := if (k3 && ne .e .i) || (k9 && ne .e .c) then nb.f else nb.e
    p7 := if k7 then nb.d else nb.e
    p8 := if (k9 && ne .e .g) || (k7 && ne .e .i) then nb.h else nb.e
    p9 := if k9 then nb.f else nb.e }

/-- `S3X` (R105): reads the latches and the flags, writes the nine outputs. -/
def s3x (s : State) : State := s.setOut (scale3x s.nb s.edge)

/-- The meaning of S3X (R105). -/
def execS3x (s : State) : Host.Outcome State Fault Refusal := .next (s3x s)

end Sys2Proof.Machine
end

