-- ==== Sys2Proof/Machine/Prescaler.lean ====
section
/-! DEFINITION. The GlyphPrescaler: GATHER, EMIT, START (42_prescaler.md, R120 to R129). -/

namespace Sys2Proof.Machine

/-- The order in which GATHER reads (R120, D21). -/
def gatherOrder : List Letter := [.a, .b, .c, .d, .e, .f, .g, .h, .i]

/-- The position of neighbour `u` of `(x, y)` (R16, R120). The subtractions are exact for a present neighbour: `x > 0`
when a column lies to the left, `y > 0` when a row lies above. -/
def neighbourAt (u : Letter) (x y : Nat) : Nat × Nat :=
  match u with
  | .a => (x - 1, y - 1) | .b => (x, y - 1) | .c => (x + 1, y - 1)
  | .d => (x - 1, y)     | .e => (x, y)     | .f => (x + 1, y)
  | .g => (x - 1, y + 1) | .h => (x, y + 1) | .i => (x + 1, y + 1)

/-- One turn of GATHER's loop: a present neighbour is read into its latch (R120); an absent one's latch keeps what it
held (U3). -/
def gatherOne (x y : Nat) (u : Letter) (s : State) : Result :=
  if pres s.edge u then
    (rd2 (neighbourAt u x y).1 (neighbourAt u x y).2 s).andThen fun s' => .done (s'.setNb (s'.nb.set u s'.res))
  else .done s

/-- `GATHER x, y` (R120). -/
def gather (x y : Nat) (s : State) : Result :=
  if x < s.cfg.srcW ∧ y < s.cfg.srcH then
    runAll (gatherOne x y) gatherOrder (s.setEdge (edgeFlags s.cfg x y))
  else halt .bpRange s

/-- `tobit(p)`: 1 when the PixelValue differs from the background (R122). -/
def tobit (c : Config) (p : PixelValue) : Bool := decide (p ≠ c.bgIndex)

/-- The nine sub-pixels `(dx, dy)` in the order EMIT writes them (R121, D21). -/
def emitOrder : List (Nat × Nat) :=
  [(0, 0), (1, 0), (2, 0), (0, 1), (1, 1), (2, 1), (0, 2), (1, 2), (2, 2)]

/-- One write of EMIT: output `P[1+dx+3*dy]` to mask pixel `(3x+dx, 3y+dy)` (R121). -/
def emitOne (x y : Nat) (d : Nat × Nat) (s : State) : Result :=
  wr1 (3 * x + d.1) (3 * y + d.2) (tobit s.cfg (s.out.get (1 + d.1 + 3 * d.2))) s

/-- `EMIT x, y` (R121). -/
def emit (x y : Nat) (s : State) : Result :=
  if x < s.cfg.srcW ∧ y < s.cfg.srcH then runAll (emitOne x y) emitOrder s
  else halt .bpRange s

/-- The source pixels in the order START visits them: rows outermost, top to bottom, columns left to right (R124). -/
def scanOrder (c : Config) : List (Nat × Nat) :=
  (List.range c.srcH).flatMap fun y => (List.range c.srcW).map fun x => (x, y)

/-- One turn of START's loop, for the source pixel `(X, Y)` (R123, step 3). -/
def scanPixel (p : Nat × Nat) (s : State) : Result :=
  (gather p.1 p.2 ((s.setCounters p.1 p.2).setSeq .sGather)).andThen fun s =>
    emit p.1 p.2 ((s3x (s.setSeq .sS3x)).setSeq .sEmit)

/-- START's steps 1 and 2 (R123): the background colour, the text's draw colour, the label at the origin. -/
def startPrimitives (s : State) : State :=
  let s := setpal 0 s.cfg.bgColor (s.setSeq .sPal0)
  let s := setdc s.cfg.textDc (s.setSeq .sDc)
  text 0 0 (s.setSeq .sText)

/-- `START` (R123), to completion. -/
def start (s : State) : Result :=
  if s.phase = .unstarted then
    (runAll scanPixel (scanOrder s.cfg) (startPrimitives s)).andThen fun s =>
      .done ((s.setPhase .running).setSeq .idle)
  else halt .protocol s

/-- The meaning of GATHER (R120). -/
def execGather (x y : Nat) (s : State) : Host.Outcome State Fault Refusal := (gather x y s).outcome

/-- The meaning of EMIT (R121). -/
def execEmit (x y : Nat) (s : State) : Host.Outcome State Fault Refusal := (emit x y s).outcome

/-- The meaning of START (R123). -/
def execStart (s : State) : Host.Outcome State Fault Refusal := (start s).outcome

end Sys2Proof.Machine
end

