-- ==== Sys2Proof/Machine/Dispatch.lean ====
section
/-! DEFINITION. The meaning of every operation: one arm a constructor of `Instr` (opcode map of R73). -/

namespace Sys2Proof.Machine

def exec (i : Instr) (s : State) : Host.Outcome State Fault Refusal :=
  match i with
  | .start => Sys2Proof.Machine.execStart s
  | .update => Sys2Proof.Machine.execUpdate s
  | .rd2 x y => Sys2Proof.Machine.execRd2 x y s
  | .rd1 x y => Sys2Proof.Machine.execRd1 x y s
  | .wr1 x y bit => Sys2Proof.Machine.execWr1 x y bit s
  | .gather x y => Sys2Proof.Machine.execGather x y s
  | .s3x => Sys2Proof.Machine.execS3x s
  | .emit x y => Sys2Proof.Machine.execEmit x y s
  | .palupd => Sys2Proof.Machine.execPalupd s
  | .stripes => Sys2Proof.Machine.execStripes s
  | .composite => Sys2Proof.Machine.execComposite s
  | .advance => Sys2Proof.Machine.execAdvance s
  | .setpal slot rgb => Sys2Proof.Machine.execSetpal slot rgb s
  | .setdc value => Sys2Proof.Machine.execSetdc value s
  | .text x y => Sys2Proof.Machine.execText x y s
  | .hline x y len => Sys2Proof.Machine.execHline x y len s
  | .blit1 x y w h => Sys2Proof.Machine.execBlit1 x y w h s

end Sys2Proof.Machine
end

