-- ==== Sys2Proof/WellFormed.lean ====
section
/-! DEFINITION. Which terms of `Instr` have a word: each operand lies in the range of its field (rules R73, R74). -/

namespace Sys2Proof

/-- The value of an unsigned 16-bit field (R74). -/
abbrev fitsU16 (n : Nat) : Prop := n < 65536

/-- The value of a two's-complement 16-bit field (R74). -/
abbrev fitsS16 (n : Int) : Prop := -32768 ≤ n ∧ n ≤ 32767

/-- The value of the unsigned 8-bit field `D` of BLIT1 (R74). -/
abbrev fitsU8 (n : Nat) : Prop := n < 256

/-- Every operand fits its field. The operands of type `BitVec` and `Bool` always do. -/
def Instr.WellFormed : Instr → Prop
  | .rd2 x y | .rd1 x y | .wr1 x y _ | .gather x y | .emit x y => fitsU16 x ∧ fitsU16 y
  | .text x y => fitsS16 x ∧ fitsS16 y
  | .hline x y len => fitsS16 x ∧ fitsS16 y ∧ fitsU16 len
  | .blit1 x y w h => fitsS16 x ∧ fitsS16 y ∧ fitsU16 w ∧ fitsU8 h
  | .start | .update | .s3x | .palupd | .stripes | .composite | .advance => True
  | .setpal _ _ | .setdc _ => True

/-- `WellFormed` as a check that runs. -/
def Instr.wellFormed : Instr → Bool
  | .rd2 x y | .rd1 x y | .wr1 x y _ | .gather x y | .emit x y => decide (fitsU16 x ∧ fitsU16 y)
  | .text x y => decide (fitsS16 x ∧ fitsS16 y)
  | .hline x y len => decide (fitsS16 x ∧ fitsS16 y ∧ fitsU16 len)
  | .blit1 x y w h => decide (fitsS16 x ∧ fitsS16 y ∧ fitsU16 w ∧ fitsU8 h)
  | .start | .update | .s3x | .palupd | .stripes | .composite | .advance => true
  | .setpal _ _ | .setdc _ => true

/-- The check decides the predicate. -/
theorem Instr.wellFormed_iff (i : Instr) : i.wellFormed = true ↔ i.WellFormed := by
  cases i <;> simp [Instr.wellFormed, Instr.WellFormed]

end Sys2Proof
end

