-- ==== Sys2Proof/Decode.lean ====
section
/-! DEFINITION. The 64-bit operation words: fields, opcode map, decoder and encoder (rules R72 to R75, R79). -/

namespace Sys2Proof

/-- Field `OP` = bits 63:56 (R72). -/
def opField (w : Word) : BitVec 8 := w.extractLsb' 56 8

/-- Field `D` = bits 55:48 (R72). -/
def dField (w : Word) : BitVec 8 := w.extractLsb' 48 8

/-- Field `C` = bits 47:32 (R72). -/
def cField (w : Word) : BitVec 16 := w.extractLsb' 32 16

/-- Field `B` = bits 31:16 (R72). -/
def bField (w : Word) : BitVec 16 := w.extractLsb' 16 16

/-- Field `A` = bits 15:0 (R72). -/
def aField (w : Word) : BitVec 16 := w.extractLsb' 0 16

/-- `sext_32` of a 16-bit field: its two's-complement value (R10, R74). -/
def signedField (v : BitVec 16) : Int := (v.signExtend 32).toInt

/-- The 24-bit colour `(B[7:0], A)`, the low 24 bits of the word (R74). -/
def rgbField (w : Word) : Colour := (bField w).extractLsb' 0 8 ++ aField w

/-- The operand formats (R73, first table). -/
inductive Format where
  | z | xy | xyb | pal | v | sxy | sxyl | sxywh
deriving DecidableEq, Repr

/-- The bits below `OP` that a format leaves unused; each must be 0 (R72, R73). -/
def Format.unusedBits : Format → Word
  | .z => 0x00FFFFFFFFFFFFFF
  | .xy => 0x00FFFFFF00000000
  | .xyb => 0x00FEFFFF00000000
  | .pal => 0x00FCFFFFFF000000
  | .v => 0x00FFFFFFFFFF0000
  | .sxy => 0x00FFFFFF00000000
  | .sxyl => 0x00FF000000000000
  | .sxywh => 0x0000000000000000

/-- Why a word spells no operation (R75). -/
inductive DecodeError where
  /-- The `OP` value is not in the opcode map. -/
  | unassignedOpcode
  /-- A bit the format leaves unused is 1. -/
  | unusedBitSet
deriving DecidableEq, Repr

/-- The operation `i` when every bit that `f` leaves unused is 0 in `w` (R73, R75). -/
def checkedAs (f : Format) (w : Word) (i : Instr) : Except DecodeError Instr :=
  if w &&& f.unusedBits = 0 then .ok i else .error .unusedBitSet

/-- The decoder: "reads OP, looks up the format, checks that every unused bit is 0, and extracts the operand fields"
(R73). Total: a word that spells no operation is rejected by name (R75). -/
def decode (w : Word) : Except DecodeError Instr :=
  match (opField w).toNat with
  | 0x01 => checkedAs .z w .start
  | 0x02 => checkedAs .z w .update
  | 0x10 => checkedAs .xy w (.rd2 (aField w).toNat (bField w).toNat)
  | 0x11 => checkedAs .xy w (.rd1 (aField w).toNat (bField w).toNat)
  | 0x12 => checkedAs .xyb w (.wr1 (aField w).toNat (bField w).toNat ((dField w).getLsbD 0))
  | 0x18 => checkedAs .xy w (.gather (aField w).toNat (bField w).toNat)
  | 0x19 => checkedAs .z w .s3x
  | 0x1A => checkedAs .xy w (.emit (aField w).toNat (bField w).toNat)
  | 0x20 => checkedAs .z w .palupd
  | 0x21 => checkedAs .z w .stripes
  | 0x22 => checkedAs .z w .composite
  | 0x23 => checkedAs .z w .advance
  | 0x40 => checkedAs .pal w (.setpal ((dField w).extractLsb' 0 2) (rgbField w))
  | 0x41 => checkedAs .v w (.setdc (aField w))
  | 0x42 => checkedAs .sxy w (.text (signedField (aField w)) (signedField (bField w)))
  | 0x43 => checkedAs .sxyl w (.hline (signedField (aField w)) (signedField (bField w)) (cField w).toNat)
  | 0x44 => checkedAs .sxywh w
      (.blit1 (signedField (aField w)) (signedField (bField w)) (cField w).toNat (dField w).toNat)
  | _ => .error .unassignedOpcode

/-- A word from its five fields, `OP` the most significant (R72). -/
def packWord (op d : BitVec 8) (c b a : BitVec 16) : Word := op ++ d ++ c ++ b ++ a

/-- A word of format Z (R73). -/
def packZ (op : BitVec 8) : Word := packWord op 0 0 0 0

/-- A word of format XY (R73). -/
def packXY (op : BitVec 8) (x y : Nat) : Word := packWord op 0 0 (BitVec.ofNat 16 y) (BitVec.ofNat 16 x)

/-- The encoder: the word of a well-formed operation, from the same tables (R73, R74). -/
def encode : Instr → Word
  | .start => packZ 0x01
  | .update => packZ 0x02
  | .rd2 x y => packXY 0x10 x y
  | .rd1 x y => packXY 0x11 x y
  | .wr1 x y bit => packWord 0x12 (if bit then 1 else 0) 0 (BitVec.ofNat 16 y) (BitVec.ofNat 16 x)
  | .gather x y => packXY 0x18 x y
  | .s3x => packZ 0x19
  | .emit x y => packXY 0x1A x y
  | .palupd => packZ 0x20
  | .stripes => packZ 0x21
  | .composite => packZ 0x22
  | .advance => packZ 0x23
  | .setpal slot rgb =>
      packWord 0x40 (slot.setWidth 8) 0 ((rgb.extractLsb' 16 8).setWidth 16) (rgb.extractLsb' 0 16)
  | .setdc value => packWord 0x41 0 0 0 value
  | .text x y => packWord 0x42 0 0 (BitVec.ofInt 16 y) (BitVec.ofInt 16 x)
  | .hline x y len => packWord 0x43 0 (BitVec.ofNat 16 len) (BitVec.ofInt 16 y) (BitVec.ofInt 16 x)
  | .blit1 x y w h =>
      packWord 0x44 (BitVec.ofNat 8 h) (BitVec.ofNat 16 w) (BitVec.ofInt 16 y) (BitVec.ofInt 16 x)

/-- One row of spec/opcode_table.json: `fixed` is its `match`, `mask` has a 1 at every bit whose value is fixed (R73). -/
structure OpRow where
  mnemonic : String
  format   : Format
  fixed    : Word
  mask     : Word
deriving DecidableEq, Repr

/-- spec/opcode_table.json, row by row. -/
def opTable : List OpRow :=
  [ ⟨"START",     .z,     0x0100000000000000, 0xFFFFFFFFFFFFFFFF⟩,
    ⟨"UPDATE",    .z,     0x0200000000000000, 0xFFFFFFFFFFFFFFFF⟩,
    ⟨"RD2",       .xy,    0x1000000000000000, 0xFFFFFFFF00000000⟩,
    ⟨"RD1",       .xy,    0x1100000000000000, 0xFFFFFFFF00000000⟩,
    ⟨"WR1",       .xyb,   0x1200000000000000, 0xFFFEFFFF00000000⟩,
    ⟨"GATHER",    .xy,    0x1800000000000000, 0xFFFFFFFF00000000⟩,
    ⟨"S3X",       .z,     0x1900000000000000, 0xFFFFFFFFFFFFFFFF⟩,
    ⟨"EMIT",      .xy,    0x1A00000000000000, 0xFFFFFFFF00000000⟩,
    ⟨"PALUPD",    .z,     0x2000000000000000, 0xFFFFFFFFFFFFFFFF⟩ ] ++
  [ ⟨"STRIPES",   .z,     0x2100000000000000, 0xFFFFFFFFFFFFFFFF⟩,
    ⟨"COMPOSITE", .z,     0x2200000000000000, 0xFFFFFFFFFFFFFFFF⟩,
    ⟨"ADVANCE",   .z,     0x2300000000000000, 0xFFFFFFFFFFFFFFFF⟩,
    ⟨"SETPAL",    .pal,   0x4000000000000000, 0xFFFCFFFFFF000000⟩,
    ⟨"SETDC",     .v,     0x4100000000000000, 0xFFFFFFFFFFFF0000⟩,
    ⟨"TEXT",      .sxy,   0x4200000000000000, 0xFFFFFFFF00000000⟩,
    ⟨"HLINE",     .sxyl,  0x4300000000000000, 0xFFFF000000000000⟩,
    ⟨"BLIT1",     .sxywh, 0x4400000000000000, 0xFF00000000000000⟩ ]

/-- "A word `w` spells the row's operation when `w & mask = match`" (R73). -/
def OpRow.spells (r : OpRow) (w : Word) : Bool := w &&& r.mask == r.fixed

/-- The operation the decoder reads from an instruction whose bits are `w`, `nbits` of them given and the rest 0. An
operation is one word presented whole on a port, so the block has no byte order (R53) and the numbering of the table is
that of the word. -/
def decodeTableWord (nbits w : Nat) : Option Instr :=
  match decode (BitVec.ofNat 64 (w % 2 ^ nbits)) with
  | .ok i => some i
  | .error _ => none

end Sys2Proof
end

