-- ==== Sys2Proof/Machine/Sequencer.lean ====
section
/-! DEFINITION. The sequencer and the command port: which operation comes next, and what follows it (R24, R70, R75,
R192, R194, R220). -/

namespace Sys2Proof.Machine

/-- The operation performed at the sequencer's position (R24, R123, R153); none in IDLE. -/
def seqOperation (s : State) : Option Instr :=
  match s.seq with
  | .idle => none
  | .sPal0 => some (.setpal 0 s.cfg.bgColor)
  | .sDc => some (.setdc s.cfg.textDc)
  | .sText => some (.text 0 0)
  | .sGather => some (.gather s.x.toNat s.y.toNat)
  | .sS3x => some .s3x
  | .sEmit => some (.emit s.x.toNat s.y.toNat)
  | .uPalupd => some .palupd
  | .uStripes => some .stripes
  | .uComposite => some .composite
  | .uAdvance => some .advance

/-- A command transaction completes: "when SEQ is back to IDLE" (R70 (1)). -/
def completeCommand (s : State) : State := s.setCmdOpen false

/-- The loop of START after an EMIT: the next source pixel, or the hook's end (R123, R124). -/
def afterEmit (s : State) : State :=
  if s.x.toNat + 1 < s.cfg.srcW then (s.setCounters (s.x.toNat + 1) s.y.toNat).setSeq .sGather
  else if s.y.toNat + 1 < s.cfg.srcH then (s.setCounters 0 (s.y.toNat + 1)).setSeq .sGather
  else completeCommand ((s.setPhase .running).setSeq .idle)

/-- "Each step advances SEQ to the next position when it completes" (R24). -/
def seqAdvance (s : State) : State :=
  match s.seq with
  | .idle => s
  | .sPal0 => s.setSeq .sDc
  | .sDc => s.setSeq .sText
  | .sText => (s.setCounters 0 0).setSeq .sGather
  | .sGather => s.setSeq .sS3x
  | .sS3x => s.setSeq .sEmit
  | .sEmit => afterEmit s
  | .uPalupd => s.setSeq .uStripes
  | .uStripes => s.setSeq .uComposite
  | .uComposite => s.setSeq .uAdvance
  | .uAdvance => completeCommand (s.setSeq .idle)

/-- A word on the command port is first decoded; a word that spells no operation, or one of class U or P, halts the
block (R75, R192). `s` is the state with the transaction open. -/
def takeCommand (w : Word) (s : State) : Fetched :=
  match decode w with
  | .ok i => if i.opClass = .command then .operation .commandPort i s else .illegal .illegalCmd s
  | .error _ => .illegal .illegalCmd s

/-- An operation issued on its own (R191, log 11); START and UPDATE are "accepted on the command port only" (R123,
R153). In HALTED the block does nothing (R194, log 14). -/
def takeIssue (w : Word) (s : State) : Fetched :=
  if s.phase = .halted then .silent s
  else
    match decode w with
    | .ok i => if i.opClass = .command then .refuse .issuedCommand else .operation .issued i s
    | .error _ => .refuse .issuedWordSpellsNothing

/-- What a host event asks for; `s` is the state without the event. -/
def takeEvent (e : HostEvent) (s : State) : Fetched :=
  match e with
  | .command w => takeCommand w (s.setCmdOpen true)
  | .reset => .silent (resetBlock s)
  | .issue w => takeIssue w s
  | .writeSurf k v =>
      if k < s.cfg.surfBytes then .silent (s.setSurf (s.surf.write k v)) else .refuse .hostWriteOutsideSurface
  | .writePal slot rgb =>
      .silent (s.setPal (s.pal.set slot rgb))
  | .writeDc value => .silent (s.setDc value)

/-- The operation of a hook in progress: none between hooks (R24) and none after a halt (R194). -/
def hookOperation (s : State) : Option Instr := if s.phase = .halted then none else seqOperation s

/-- What a step has to do: the operation of the hook in progress; between hooks, or in HALTED, the oldest host event;
nothing when there is none (the block waits, R221). -/
def fetch (s : State) : Fetched :=
  if s.cfg.Ok then
    match hookOperation s with
    | some i => .operation .sequencer i s
    | none =>
      match s.inputs with
      | [] => .silent s
      | e :: rest => takeEvent e (s.setInputs rest)
  else .refuse .badParameters

/-- What follows an operation that left the state `s`: after a halt nothing (R193); otherwise the sequencer moves on,
or the command completes. -/
def afterOperation (src : OpSource) (s : State) : State :=
  if s.phase = .halted then s
  else
    match src with
    | .sequencer => seqAdvance s
    | .commandPort => completeCommand s
    | .issued => s

/-- The outcome of a step from the outcome of its operation. -/
def retire (src : OpSource) (o : Host.Outcome State Fault Refusal) : Host.Outcome State Fault Refusal :=
  match o with
  | .next s => .next (afterOperation src s)
  | .fault r => .fault r
  | .refused r => .refused r

/-- The event that brings an operation word to the block: a command goes to the command port, an operation of class U
or P, whose words the command port does not take, is issued on its own (R71, R191); a word that spells nothing goes to
the command port. -/
def eventOfWord (w : Word) : HostEvent :=
  match decode w with
  | .ok i => if i.opClass = .command then .command w else .issue w
  | .error _ => .command w

end Sys2Proof.Machine
end

