-- ==== Sys2Proof/Machine/Step.lean ====
section
/-! DEFINITION. One step of S3XP, and how a word is placed so that the next step performs it (log 11, 12). -/

namespace Sys2Proof.Machine

/-- One step: a command is run to completion (R63), a position of a hook in progress is performed (R24), or a host
event is taken. -/
def step (s : State) : Host.Outcome State Fault Refusal :=
  match fetch s with
  | .operation src i s' => retire src (exec i s')
  | .silent s' => .next s'
  | .illegal why s' => (halt why s').outcome
  | .refuse r => .refused r

/-- `s` with the word placed as the oldest host event and no hook in progress, so that the next step performs it
(log 11). -/
def State.withFetchWord (s : State) (nbits w : Nat) : State :=
  (s.setSeq .idle).setInputs (eventOfWord (BitVec.ofNat 64 (w % 2 ^ nbits)) :: s.inputs)

end Sys2Proof.Machine
end

