-- ==== Sys2Proof/Safety.lean ====
section
/-! DEFINITION. The predicates and views that statements about S3XP are written in: what a sound state is, what the
surface shows, what a source pixel's neighbourhood holds. -/

namespace Sys2Proof.Machine

/-- Both memories are in canonical form and inside their buffers (R50, R56). -/
abbrev State.MemoryOk (s : State) : Prop :=
  s.mask.wf ∧ s.mask.within s.cfg.maskBytes ∧ s.surf.wf ∧ s.surf.within s.cfg.surfBytes

/-- The clock invariant: `-(WH-1) <= CLOCK <= SCREEN_H-1` (R152). -/
abbrev State.ClockOk (s : State) : Prop :=
  1 - (s.cfg.windowHeight : Int) ≤ s.clock ∧ s.clock ≤ (s.cfg.screenH : Int) - 1

/-- A position of START (R24). -/
def Seq.inStart : Seq → Bool
  | .sPal0 | .sDc | .sText | .sGather | .sS3x | .sEmit => true
  | _ => false

/-- A position of START's loop, where X and Y count (R24, R26). -/
def Seq.inScan : Seq → Bool
  | .sGather | .sS3x | .sEmit => true
  | _ => false

/-- A position of UPDATE (R24). -/
def Seq.inUpdate : Seq → Bool
  | .uPalupd | .uStripes | .uComposite | .uAdvance => true
  | _ => false

/-- A hook in progress is one that was legal to begin, and its loop counters are on the source grid (R22, R26, R199). -/
abbrev State.SequencerOk (s : State) : Prop :=
  (s.seq.inStart = true → s.phase = .unstarted ∨ s.phase = .halted) ∧
    (s.seq.inUpdate = true → s.phase = .running ∨ s.phase = .halted) ∧
    (s.seq.inScan = true → s.x.toNat < s.cfg.srcW ∧ s.y.toNat < s.cfg.srcH)

/-- What every step keeps, whatever the host presents. That the widths suffice (`FitsFields`, R141) is a premise on the
constants. -/
abbrev State.Inv (s : State) : Prop :=
  s.cfg.Ok ∧ s.cfg.FitsFields ∧ s.MemoryOk ∧ s.ClockOk ∧ s.SequencerOk

/-- The launch premise of R223: every pixel of the glyph region holds the background PixelValue. -/
abbrev State.SurfaceClean (s : State) : Prop :=
  ∀ x < s.cfg.srcW, ∀ y < s.cfg.srcH, surfPixel s.cfg s.surf x y = s.cfg.bgIndex

/-- No hook is in progress: SEQ is IDLE, or the block has halted (R24, R194). -/
abbrev State.BetweenHooks (s : State) : Prop := s.seq = .idle ∨ s.phase = .halted

/-- What the `n`-th drawing primitive sets pixel `(x, y)` to when it draws it in logical colour `k`: nothing when that
colour is transparent (R173, log 8). -/
def dotValue (dc : DrawColour) (n : Nat) (k : Nat) (x y : Int) : Option PixelValue :=
  match dcmap dc k with
  | .transparent => none
  | .slot v => some v
  | .hostDefined => some (Config.hostPixel n x y)

/-- The neighbourhood of source pixel `(x, y)` on the surface `m` (R120). An absent neighbour's entry means nothing. -/
def neighbourhoodOf (c : Config) (m : Memory) (x y : Nat) : Neighbourhood :=
  let at_ := fun u => surfPixel c m (neighbourAt u x y).1 (neighbourAt u x y).2
  ⟨at_ .a, at_ .b, at_ .c, at_ .d, at_ .e, at_ .f, at_ .g, at_ .h, at_ .i⟩

/-- Mask pixel `(u, v)` as START computes it from the surface `m` (R127). -/
def maskPixelFrom (c : Config) (m : Memory) (u v : Nat) : Bool :=
  tobit c ((scale3x (neighbourhoodOf c m (u / 3) (v / 3)) (edgeFlags c (u / 3) (v / 3))).get (1 + u % 3 + 3 * (v % 3)))

/-- The SETPALs that PALUPD requests at clock `clk`, in order (R140, R142). -/
def palupdRequests (c : Config) (clk : Int) : List Instr :=
  (List.range 3).map fun (i : Nat) =>
    .setpal (BitVec.ofInt 2 (1 + (clk / (c.stripeHeight : Int) + (i : Int)) % 3))
      (c.colourAt ((clk / (c.stripeHeight : Int) + (i : Int)) % (c.cts : Int)).toNat)

/-- The SETDC and HLINE pairs that STRIPES requests at clock `clk`, in order (R143). -/
def stripesRequests (c : Config) (clk : Int) : List Instr :=
  (List.range c.windowHeight).flatMap fun (i : Nat) =>
    [.setdc (BitVec.ofInt 16 (2 + (clk + (i : Int)) / (c.stripeHeight : Int) % 3)),
      .hline 0 (clk + (i : Int)) c.screenW]

/-- The column of the mask's left edge on the display: `SCREEN_W/2 - MASK_W/2` (R146). -/
def maskLeft (c : Config) : Int := ((c.screenW / 2 : Nat) : Int) - ((c.maskW / 2 : Nat) : Int)

/-- The row of the mask's top edge on the display: `SCREEN_H/2 - MASK_H/2` (R146). -/
def maskTop (c : Config) : Int := ((c.screenH / 2 : Nat) : Int) - ((c.maskH / 2 : Nat) : Int)

/-- The requests of COMPOSITE, in order (R146). -/
def compositeRequests (c : Config) : List Instr :=
  [.setdc c.compositeDc, .blit1 (maskLeft c) (maskTop c) c.maskW c.maskH]

/-- The requests of UPDATE at clock `clk`, in order (R154). -/
def updateRequests (c : Config) (clk : Int) : List Instr :=
  palupdRequests c clk ++ stripesRequests c clk ++ compositeRequests c

/-- Row `y` lies in the window drawn at clock `clk`: `clk <= y < clk+WH` (R143). -/
abbrev inWindow (c : Config) (clk y : Int) : Prop := clk ≤ y ∧ y < clk + (c.windowHeight : Int)

/-- The PixelValue a line leaves in row `y`: `1 + emod(fdiv(y, SH), NCC)` (R144). -/
def rowValue (c : Config) (y : Int) : PixelValue := BitVec.ofInt 2 (1 + y / (c.stripeHeight : Int) % 3)

/-- Display pixel `(px, py)` lies on a set pixel of the mask placed at the display's centre (R146, R177). -/
abbrev onSetMaskPixel (c : Config) (mask : Memory) (px py : Int) : Prop :=
  0 ≤ px - maskLeft c ∧ px - maskLeft c < c.maskW ∧ 0 ≤ py - maskTop c ∧ py - maskTop c < c.maskH ∧
    maskBit c mask (px - maskLeft c).toNat (py - maskTop c).toNat = true

/-- A request the primitive port can carry: an operation of class P with a word (R71, R75). -/
abbrev Presentable (i : Instr) : Prop := i.WellFormed ∧ i.opClass = .primitive

/-- The last present neighbour in the order GATHER reads (R120). -/
def lastPresent (e : EdgeFlags) : Letter :=
  if pres e .i then .i else if pres e .h then .h else if pres e .f then .f else .e

end Sys2Proof.Machine
end

