-- ==== Sys2Proof/Certificates/Slice0/Obligations.lean ====
section
/-! DEFINITION. What is claimed of the model, as propositions. Each docstring names the rule it formalises. -/

open Sys2Proof Sys2Proof.Machine

/-! Encoding. -/

/-- R72, R73, R74: the decoder reads back every well-formed operation, every operand at every value its field holds. -/
def Obligations.DecodeOfEncodeIsTheOperation : Prop :=
  ∀ i : Instr, i.WellFormed → decode (encode i) = .ok i

/-- R72, R73, R75: a word that decodes is the word of what it decodes to, and that operation is well-formed; so no two
words spell one operation. -/
def Obligations.EncodeOfDecodeIsTheWord : Prop :=
  ∀ (w : Word) (i : Instr), decode w = .ok i → i.WellFormed ∧ encode i = w

/-- R73, R75: the decoder and the opcode table agree on every word: a word that decodes is spelled by exactly one row, the
one with its mnemonic; a word that does not decode is spelled by none. -/
def Obligations.DecoderAgreesWithOpcodeTable : Prop :=
  ∀ w : Word,
    (∀ i, decode w = .ok i → (opTable.filter (fun r => r.spells w)).map OpRow.mnemonic = [i.mnemonic]) ∧
    (∀ e, decode w = .error e → opTable.filter (fun r => r.spells w) = [])

/-- R79: the table of worked encodings, one per operation. -/
def Obligations.WorkedEncodingsDecode : Prop :=
  decode 0x0100000000000000 = .ok .start ∧
  decode 0x0200000000000000 = .ok .update ∧
  decode 0x1000000000030005 = .ok (.rd2 5 3) ∧
  decode 0x1100000000170017 = .ok (.rd1 23 23) ∧
  decode 0x120100000002000A = .ok (.wr1 10 2 true) ∧
  decode 0x1800000000070007 = .ok (.gather 7 7) ∧
  decode 0x1900000000000000 = .ok .s3x ∧
  decode 0x1A00000000070007 = .ok (.emit 7 7) ∧
  decode 0x2000000000000000 = .ok .palupd ∧
  decode 0x2100000000000000 = .ok .stripes ∧
  decode 0x2200000000000000 = .ok .composite ∧
  decode 0x2300000000000000 = .ok .advance ∧
  decode 0x4002000000123456 = .ok (.setpal 2 0x123456) ∧
  decode 0x4100000000000010 = .ok (.setdc 0x0010) ∧
  decode 0x4200000000000000 = .ok (.text 0 0) ∧
  decode 0x430000A0FFF10000 = .ok (.hline 0 (-15) 160) ∧
  decode 0x4418001800440044 = .ok (.blit1 68 68 24 24)

/-! The step. -/

/-- R70, R192: between hooks, a command word that decodes to START or UPDATE is run by its meaning, with the transaction
open; when the block has not halted the transaction then completes. The transaction flag is the model's (log 13). -/
def Obligations.StepRunsDecodedCommand : Prop :=
  ∀ (s : State) (w : Word) (i : Instr) (rest : List HostEvent), s.cfg.Ok → s.BetweenHooks →
    s.inputs = .command w :: rest → decode w = .ok i → i.opClass = .command →
    step s =
      match exec i { s with inputs := rest, cmdOpen := true } with
      | .next t => .next (if t.phase = .halted then t else { t with cmdOpen := false })
      | .fault r => .fault r
      | .refused r => .refused r

/-- R191, R123, R153: an operation of class U or P issued on its own is run by its meaning and nothing else; START and
UPDATE, accepted on the command port only, are refused there. Issuing is the model's event (log 11). -/
def Obligations.StepRunsIssuedOperation : Prop :=
  ∀ (s : State) (w : Word) (i : Instr) (rest : List HostEvent), s.cfg.Ok → s.seq = .idle → s.phase ≠ .halted →
    s.inputs = .issue w :: rest → decode w = .ok i →
    (i.opClass ≠ .command → step s = exec i { s with inputs := rest }) ∧
    (i.opClass = .command → step s = .refused .issuedCommand)

/-- R24: while a hook is in progress a step performs the operation of the sequencer's position by its meaning, and SEQ
moves on when the operation completes; after a halt SEQ stays. -/
def Obligations.StepRunsSequencerPosition : Prop :=
  ∀ (s : State) (i : Instr), s.cfg.Ok → s.phase ≠ .halted → seqOperation s = some i →
    step s =
      match exec i s with
      | .next t => .next (if t.phase = .halted then t else seqAdvance t)
      | .fault r => .fault r
      | .refused r => .refused r

/-- log 11 (the model's way to place a word): the step after `withFetchWord` runs exactly the decoded operation. -/
def Obligations.PlacedWordRunsNext : Prop :=
  ∀ (s : State) (w : Nat) (i : Instr), s.cfg.Ok → s.phase ≠ .halted → w < 2 ^ 64 → decodeTableWord 64 w = some i →
    (i.opClass ≠ .command → step (s.withFetchWord 64 w) = exec i { s with seq := .idle }) ∧
    (i.opClass = .command → step (s.withFetchWord 64 w) =
      match exec i { s with seq := .idle, cmdOpen := true } with
      | .next t => .next (if t.phase = .halted then t else { t with cmdOpen := false })
      | .fault r => .fault r
      | .refused r => .refused r)

/-- R192: a command word that spells no operation, or one of class U or P, halts the block; so does START out of phase
UNSTARTED and UPDATE out of phase RUNNING. The halt is that of R193: PHASE alone changes. -/
def Obligations.CommandPortHaltsOnBreach : Prop :=
  ∀ (s : State) (w : Word) (rest : List HostEvent), s.cfg.Ok → s.BetweenHooks → s.inputs = .command w :: rest →
    ((∀ i, decode w = .ok i → i.opClass ≠ .command) ∨
      (decode w = .ok .start ∧ s.phase ≠ .unstarted) ∨ (decode w = .ok .update ∧ s.phase ≠ .running)) →
    step s = .next { s with inputs := rest, cmdOpen := true, phase := .halted }

/-- R123, R153, R192: the meanings of the two hooks out of phase: PHASE becomes HALTED and nothing else changes. -/
def Obligations.HookOutOfPhaseHalts : Prop :=
  ∀ s : State,
    (s.phase ≠ .unstarted → exec .start s = .next { s with phase := .halted }) ∧
    (s.phase ≠ .running → exec .update s = .next { s with phase := .halted })

/-- R194: in HALTED a command word or an issued word (log 14) changes nothing of the block or of the host; a command is
never completed. The event is taken; the event queue and the transaction flag are the model's (log 10, log 13). -/
def Obligations.HaltedBlockIsInert : Prop :=
  ∀ (s : State) (w : Word) (rest : List HostEvent), s.cfg.Ok → s.phase = .halted →
    (s.inputs = .command w :: rest → step s = .next { s with inputs := rest, cmdOpen := true }) ∧
    (s.inputs = .issue w :: rest → step s = .next { s with inputs := rest })

/-- R220: the reset input, between hooks or in HALTED, puts CLOCK, PHASE and SEQ in their reset values and changes
nothing of the host's and nothing of the constants. What becomes of MASK and the working registers is not stated: the
rule calls them unspecified. -/
def Obligations.ResetRestartsTheBlock : Prop :=
  ∀ (s : State) (rest : List HostEvent), s.cfg.Ok → s.BetweenHooks → s.inputs = .reset :: rest →
    ∃ t, step s = .next t ∧ t.clock = 0 ∧ t.phase = .unstarted ∧ t.seq = .idle ∧ t.pal = s.pal ∧ t.dc = s.dc ∧
      t.surf = s.surf ∧ t.cfg = s.cfg ∧ t.requests = s.requests ∧ t.inputs = rest

/-- R37: the values the spec gives for reset. -/
def Obligations.ResetValuesOfTheSpec : Prop :=
  State.reset.clock = 0 ∧ State.reset.phase = .unstarted ∧ State.reset.seq = .idle

/-- R221: after reset, and between hooks at any time, the block waits while nothing is presented. -/
def Obligations.BlockWaitsForACommand : Prop :=
  ∀ s : State, s.cfg.Ok → s.BetweenHooks → s.inputs = [] → step s = .next s

/-- R8, R232: a parameter set that breaks one of the two rules is refused, and no other is. -/
def Obligations.BadParametersAreRefused : Prop :=
  ∀ s : State, step s = .refused .badParameters ↔ ¬ (s.cfg.MeetsR8 ∧ s.cfg.MeetsR232)

/-- R181: between hooks the host may write its own surface, palette and selector; only what it writes changes.
(The events are the model's, log 10.) -/
def Obligations.HostWritesOnlyItsOwn : Prop :=
  ∀ (s : State) (rest : List HostEvent), s.cfg.Ok → s.BetweenHooks → s.surf.wf →
    (∀ k v, s.inputs = .writeSurf k v :: rest → k < s.cfg.surfBytes →
      ∃ t, step s = .next t ∧ t = { s with inputs := rest, surf := t.surf } ∧
        ∀ j, t.surf.read j = if j = k then v else s.surf.read j) ∧
    (∀ slot rgb, s.inputs = .writePal slot rgb :: rest →
      ∃ t, step s = .next t ∧ t = { s with inputs := rest, pal := t.pal } ∧
        ∀ slot', t.pal.get slot' = if slot' = slot then rgb else s.pal.get slot') ∧
    (∀ value, s.inputs = .writeDc value :: rest → step s = .next { s with inputs := rest, dc := value })

/-! BitPlane. -/

/-- R90: RD2, in its encoding, reads the two bits of the pixel into RES, and halts on a coordinate off the surface. -/
def Obligations.Rd2ReadsPixelOrHalts : Prop :=
  (∀ x y : BitVec 16, decode (0x10#8 ++ 0#24 ++ y ++ x) = .ok (.rd2 x.toNat y.toNat)) ∧
  ∀ (x y : Nat) (s : State),
    (x < s.cfg.screenW ∧ y < s.cfg.screenH →
      exec (.rd2 x y) s = .next { s with
        res := (s.surf.read ((y * s.cfg.screenW + x) / 4) >>> ((y * s.cfg.screenW + x) % 4 * 2)).setWidth 2 }) ∧
    (¬ (x < s.cfg.screenW ∧ y < s.cfg.screenH) → exec (.rd2 x y) s = .next { s with phase := .halted })

/-- R91: RD1, in its encoding, reads the bit of the mask pixel into RES, zero-extended, and halts on a coordinate off
the mask. -/
def Obligations.Rd1ReadsMaskBitOrHalts : Prop :=
  (∀ x y : BitVec 16, decode (0x11#8 ++ 0#24 ++ y ++ x) = .ok (.rd1 x.toNat y.toNat)) ∧
  ∀ (x y : Nat) (s : State),
    (x < s.cfg.maskW ∧ y < s.cfg.maskH →
      exec (.rd1 x y) s = .next { s with
        res := if (s.mask.read ((y * s.cfg.maskW + x) / 8)).getLsbD (7 - (y * s.cfg.maskW + x) % 8) then 1 else 0 }) ∧
    (¬ (x < s.cfg.maskW ∧ y < s.cfg.maskH) → exec (.rd1 x y) s = .next { s with phase := .halted })

/-- R92: WR1, in its encoding, sets one bit of one mask byte, changes nothing else and is idempotent; off the mask it
halts and writes nothing. -/
def Obligations.Wr1SetsOneBitOrHalts : Prop :=
  (∀ (x y : BitVec 16) (bit : Bool),
    decode (0x12#8 ++ 0#7 ++ BitVec.ofBool bit ++ 0#16 ++ y ++ x) = .ok (.wr1 x.toNat y.toNat bit)) ∧
  ∀ (x y : Nat) (bit : Bool) (s : State), s.mask.wf →
    (x < s.cfg.maskW ∧ y < s.cfg.maskH →
      ∃ t, exec (.wr1 x y bit) s = .next t ∧ t = { s with mask := t.mask } ∧ exec (.wr1 x y bit) t = .next t ∧
        (∀ k, k ≠ (y * s.cfg.maskW + x) / 8 → t.mask.read k = s.mask.read k) ∧
        ∀ b < 8, (t.mask.read ((y * s.cfg.maskW + x) / 8)).getLsbD b =
          if b = 7 - (y * s.cfg.maskW + x) % 8 then bit
          else (s.mask.read ((y * s.cfg.maskW + x) / 8)).getLsbD b) ∧
    (¬ (x < s.cfg.maskW ∧ y < s.cfg.maskH) → exec (.wr1 x y bit) s = .next { s with phase := .halted })

/-- R93 (1) to (5): round trip, non-interference, idempotence, last write wins, writes to different pixels commute. -/
def Obligations.MaskWriteLaws : Prop :=
  ∀ (s : State) (x y : Nat) (b : Bool), s.mask.wf → x < s.cfg.maskW → y < s.cfg.maskH →
    ∃ t, exec (.wr1 x y b) s = .next t ∧
      exec (.rd1 x y) t = .next { t with res := if b then 1 else 0 } ∧
      (∀ x' y', x' < s.cfg.maskW → y' < s.cfg.maskH → ¬ (x' = x ∧ y' = y) →
        ∃ r, exec (.rd1 x' y') s = .next { s with res := r } ∧ exec (.rd1 x' y') t = .next { t with res := r }) ∧
      exec (.wr1 x y b) t = .next t ∧
      (∀ b', exec (.wr1 x y b') t = exec (.wr1 x y b') s) ∧
      (∀ x' y' b', x' < s.cfg.maskW → y' < s.cfg.maskH → ¬ (x' = x ∧ y' = y) →
        ∃ q r, exec (.wr1 x' y' b') s = .next q ∧ exec (.wr1 x' y' b') t = .next r ∧ exec (.wr1 x y b) q = .next r)

/-- R191: each BitPlane and prescaler operation halts on a coordinate outside its grid, before anything is read or
written: PHASE alone changes. -/
def Obligations.OffGridCoordinateHalts : Prop :=
  ∀ (x y : Nat) (s : State),
    (s.cfg.screenW ≤ x ∨ s.cfg.screenH ≤ y → exec (.rd2 x y) s = .next { s with phase := .halted }) ∧
    (s.cfg.maskW ≤ x ∨ s.cfg.maskH ≤ y →
      exec (.rd1 x y) s = .next { s with phase := .halted } ∧
      ∀ bit, exec (.wr1 x y bit) s = .next { s with phase := .halted }) ∧
    (s.cfg.srcW ≤ x ∨ s.cfg.srcH ≤ y →
      exec (.gather x y) s = .next { s with phase := .halted } ∧
      exec (.emit x y) s = .next { s with phase := .halted })

/-- R174: after `SurfSet(x, y, v)`, RD2 of the pixel gives `v`, RD2 of any other pixel gives what it gave before, and a
pixel off the surface changes nothing. -/
def Obligations.SurfSetThenRead : Prop :=
  ∀ (s : State) (x y : Int) (v : PixelValue), s.surf.wf →
    (∀ px py : Nat, px < s.cfg.screenW → py < s.cfg.screenH →
      (x = px ∧ y = py →
        exec (.rd2 px py) { s with surf := surfSet s.cfg s.surf x y v } =
          .next { s with surf := surfSet s.cfg s.surf x y v, res := v }) ∧
      (¬ (x = px ∧ y = py) →
        ∃ r, exec (.rd2 px py) s = .next { s with res := r } ∧
          exec (.rd2 px py) { s with surf := surfSet s.cfg s.surf x y v } =
            .next { s with surf := surfSet s.cfg s.surf x y v, res := r })) ∧
    (¬ (0 ≤ x ∧ x < s.cfg.screenW ∧ 0 ≤ y ∧ y < s.cfg.screenH) → surfSet s.cfg s.surf x y v = s.surf)

/-! Scale3x. -/

/-- R105: S3X, in its encoding, writes the nine outputs of the nine equations and changes nothing else. -/
def Obligations.S3xComputesNineEquations : Prop :=
  decode 0x1900000000000000 = .ok .s3x ∧
  ∀ s : State,
    let eq := guardedEq s.nb s.edge
    let ne := fun u v => !guardedEq s.nb s.edge u v
    let n := s.nb
    exec .s3x s = .next { s with out :=
      { p1 := if eq .d .b && ne .d .h && ne .b .f then n.d else n.e
        p2 := if (eq .d .b && ne .d .h && ne .b .f && ne .e .c) || (eq .b .f && ne .b .d && ne .f .h && ne .e .a)
              then n.b else n.e
        p3 := if eq .b .f && ne .b .d && ne .f .h then n.f else n.e
        p4 := if (eq .h .d && ne .h .f && ne .d .b && ne .e .a) || (eq .d .b && ne .d .h && ne .b .f && ne .e .g)
              then n.d else n.e
        p5 := n.e
        p6 := if (eq .b .f && ne .b .d && ne .f .h && ne .e .i) || (eq .f .h && ne .f .b && ne .h .d && ne .e .c)
              then n.f else n.e
        p7 := if eq .h .d && ne .h .f && ne .d .b then n.d else n.e
        p8 := if (eq .f .h && ne .f .b && ne .h .d && ne .e .g) || (eq .h .d && ne .h .f && ne .d .b && ne .e .i)
              then n.h else n.e
        p9 := if eq .f .h && ne .f .b && ne .h .d then n.f else n.e } }

/-- R108: the edge policy as made-up values. Give every present position its latch's value and every absent one a value
of its own outside 0 .. 3: the source's equations with plain `=` and `≠` give the nine outputs. -/
def Obligations.S3xEqualsMadeUpValueForm : Prop :=
  ∀ (s : State) (v : Letter → Nat),
    (∀ u, pres s.edge u = true → v u = (s.nb.get u).toNat) → (∀ u, pres s.edge u = false → 4 ≤ v u) →
    (∀ u w, pres s.edge u = false → pres s.edge w = false → v u = v w → u = w) →
    ∃ t, exec .s3x s = .next t ∧
      t.out.p1.toNat = (if v .d = v .b ∧ v .d ≠ v .h ∧ v .b ≠ v .f then v .d else v .e) ∧
      t.out.p2.toNat = (if (v .d = v .b ∧ v .d ≠ v .h ∧ v .b ≠ v .f ∧ v .e ≠ v .c) ∨
        (v .b = v .f ∧ v .b ≠ v .d ∧ v .f ≠ v .h ∧ v .e ≠ v .a) then v .b else v .e) ∧
      t.out.p3.toNat = (if v .b = v .f ∧ v .b ≠ v .d ∧ v .f ≠ v .h then v .f else v .e) ∧
      t.out.p4.toNat = (if (v .h = v .d ∧ v .h ≠ v .f ∧ v .d ≠ v .b ∧ v .e ≠ v .a) ∨
        (v .d = v .b ∧ v .d ≠ v .h ∧ v .b ≠ v .f ∧ v .e ≠ v .g) then v .d else v .e) ∧
      t.out.p5.toNat = v .e ∧
      t.out.p6.toNat = (if (v .b = v .f ∧ v .b ≠ v .d ∧ v .f ≠ v .h ∧ v .e ≠ v .i) ∨
        (v .f = v .h ∧ v .f ≠ v .b ∧ v .h ≠ v .d ∧ v .e ≠ v .c) then v .f else v .e) ∧
      t.out.p7.toNat = (if v .h = v .d ∧ v .h ≠ v .f ∧ v .d ≠ v .b then v .d else v .e) ∧
      t.out.p8.toNat = (if (v .f = v .h ∧ v .f ≠ v .b ∧ v .h ≠ v .d ∧ v .e ≠ v .g) ∨
        (v .h = v .d ∧ v .h ≠ v .f ∧ v .d ≠ v .b ∧ v .e ≠ v .i) then v .h else v .e) ∧
      t.out.p9.toNat = (if v .f = v .h ∧ v .f ≠ v .b ∧ v .h ≠ v .d then v .f else v .e)

/-- R107, R129: the four corner laws of edge preservation; and a pixel whose present side neighbours all equal it is
copied to all nine outputs, whatever its diagonal neighbours and whatever the flags (uniform input is a case of it). -/
def Obligations.S3xPreservesEdgesAndFlatRegions : Prop :=
  ∀ s : State, ∃ t, exec .s3x s = .next t ∧
    (let eq := guardedEq s.nb s.edge
     (eq .d .b = true → eq .b .f = false → eq .d .h = false → t.out.p1 = s.nb.d) ∧
     (eq .b .f = true → eq .b .d = false → eq .f .h = false → t.out.p3 = s.nb.f) ∧
     (eq .h .d = true → eq .h .f = false → eq .d .b = false → t.out.p7 = s.nb.d) ∧
     (eq .f .h = true → eq .f .b = false → eq .h .d = false → t.out.p9 = s.nb.f)) ∧
    ((∀ u ∈ [Letter.b, .d, .f, .h], pres s.edge u = true → s.nb.get u = s.nb.e) →
      ∀ k, 1 ≤ k → k ≤ 9 → t.out.get k = s.nb.e)

/-- R106 (1), (2), (3): an output that differs from the centre's value is the value of a present side neighbour, the
centre is always unchanged, and nothing but the outputs changes. -/
def Obligations.S3xCopiesPresentSidesOnly : Prop :=
  ∀ s : State, ∃ t, exec .s3x s = .next t ∧ t = { s with out := t.out } ∧ t.out.p5 = s.nb.e ∧
    ∀ k, 1 ≤ k → k ≤ 9 →
      t.out.get k = s.nb.e ∨
        ∃ u ∈ [Letter.b, .d, .f, .h], pres s.edge u = true ∧ t.out.get k = s.nb.get u

/-- R106 (5): renaming the PixelValues by a one-to-one map renames the outputs by the same map. -/
def Obligations.S3xCommutesWithRenaming : Prop :=
  ∀ (s s' : State) (f : PixelValue → PixelValue), Function.Injective f → s'.edge = s.edge →
    (∀ u, s'.nb.get u = f (s.nb.get u)) →
    ∃ t t', exec .s3x s = .next t ∧ exec .s3x s' = .next t' ∧
      ∀ k, 1 ≤ k → k ≤ 9 → t'.out.get k = f (t.out.get k)

/-! GlyphPrescaler. -/

/-- R120, R28, R102: GATHER on the source grid sets the four flags, by which a neighbour is present exactly when its
position lies on the grid, loads the centre and every neighbour on the grid from the surface, leaves the latch of one
off it, leaves in RES the last pixel read, and changes nothing else. -/
def Obligations.GatherLoadsPresentNeighbours : Prop :=
  ∀ (x y : Nat) (s : State), s.cfg.Ok → x < s.cfg.srcW → y < s.cfg.srcH →
    ∃ t, exec (.gather x y) s = .next t ∧ t = { s with edge := t.edge, nb := t.nb, res := t.res } ∧
      t.edge.l = decide (0 < x) ∧ t.edge.r = decide ((x : Int) < s.cfg.srcW - 1) ∧
      t.edge.t = decide (0 < y) ∧ t.edge.b = decide ((y : Int) < s.cfg.srcH - 1) ∧
      (∀ (u : Letter) (dx dy : Int),
        (u, dx, dy) ∈ [(Letter.a, -1, -1), (.b, 0, -1), (.c, 1, -1), (.d, -1, 0), (.e, 0, 0), (.f, 1, 0),
          (.g, -1, 1), (.h, 0, 1), (.i, 1, 1)] →
        (pres t.edge u = true ↔ (0 ≤ x + dx ∧ x + dx < s.cfg.srcW) ∧ 0 ≤ y + dy ∧ y + dy < s.cfg.srcH) ∧
        t.nb.get u =
          if (0 ≤ x + dx ∧ x + dx < s.cfg.srcW) ∧ 0 ≤ y + dy ∧ y + dy < s.cfg.srcH then
            surfPixel s.cfg s.surf (x + dx).toNat (y + dy).toNat
          else s.nb.get u) ∧
      t.res = t.nb.get (lastPresent t.edge)

/-- R121, R122: EMIT on the source grid writes the bits of its nine outputs to its 3 by 3 block, leaves every other
pixel and every other byte of the mask, and changes nothing else. -/
def Obligations.EmitWritesItsBlock : Prop :=
  ∀ (x y : Nat) (s : State), s.mask.wf → x < s.cfg.srcW → y < s.cfg.srcH →
    ∃ t, exec (.emit x y) s = .next t ∧ t = { s with mask := t.mask } ∧
      (∀ dx dy, dx < 3 → dy < 3 →
        maskBit s.cfg t.mask (3 * x + dx) (3 * y + dy) = decide (s.out.get (1 + dx + 3 * dy) ≠ s.cfg.bgIndex)) ∧
      (∀ u v, u < s.cfg.maskW → ¬ (u / 3 = x ∧ v / 3 = y) → maskBit s.cfg t.mask u v = maskBit s.cfg s.mask u v) ∧
      ∀ k, (∀ dx dy, dx < 3 → dy < 3 → k ≠ ((3 * y + dy) * s.cfg.maskW + (3 * x + dx)) / 8) →
        t.mask.read k = s.mask.read k

/-- R123, R127: START from UNSTARTED runs to completion, and the mask it leaves is, pixel by pixel, the function of the
surface (as TEXT left it) that R127 gives, whatever the mask held. CLOCK, PAL[1..3] and everything not named keep their
value. The final values of X, Y, NB, EDGE, P and RES mean nothing and are not stated. -/
def Obligations.StartFillsMaskFromSurface : Prop :=
  ∀ s : State, s.cfg.Ok → s.MemoryOk → s.phase = .unstarted →
    ∃ t, exec .start s = .next t ∧
      t = { s with
        phase := .running, seq := .idle, pal := { s.pal with c0 := s.cfg.bgColor }, dc := s.cfg.textDc,
        surf := (textDots s.cfg 0 0).foldl (drawDot s.cfg s.cfg.textDc s.draws) s.surf,
        draws := s.draws + 1,
        requests := s.requests ++ [.setpal 0 s.cfg.bgColor, .setdc s.cfg.textDc, .text 0 0],
        x := t.x, y := t.y, nb := t.nb, edge := t.edge, out := t.out, res := t.res, mask := t.mask } ∧
      t.mask.wf ∧ t.mask.within s.cfg.maskBytes ∧
      ∀ u v, u < s.cfg.maskW → v < s.cfg.maskH → maskBit s.cfg t.mask u v = maskPixelFrom s.cfg t.surf u v

/-- R175, R223: with the launch premise, and the spec's TEXT_DC = 0x0002 and BG_INDEX = 0, after START a pixel of the
glyph region holds 1 where the font has a foreground pixel and 0 elsewhere. -/
def Obligations.StartShowsLabelOnCleanSurface : Prop :=
  ∀ s : State, s.cfg.Ok → s.MemoryOk → s.phase = .unstarted → s.SurfaceClean → s.cfg.textDc = 0x0002 →
    s.cfg.bgIndex = 0 →
    ∃ t, exec .start s = .next t ∧
      ∀ x y, x < 8 * s.cfg.n → y < 8 →
        surfPixel s.cfg t.surf x y =
          if s.cfg.fontBit (s.cfg.labelAt (x / 8)) (x % 8) y then 1 else 0

/-- R24, R123, R124: the sequencer, step by step from S_PAL0 through three primitives and one GATHER, S3X, EMIT triple
per source pixel, ends where START ends, with the transaction complete. X is wide enough for every column, as R26 says.
The two forms of a hook are log 12, the transaction flag is log 13. -/
def Obligations.StartRunsThroughSequencer : Prop :=
  ∀ s : State, s.cfg.Ok → s.cfg.srcW ≤ 65536 → s.phase = .unstarted → s.seq = .sPal0 →
    ∃ t, exec .start s = .next t ∧
      Host.Core.run Sys2Proof.core (3 + 3 * (s.cfg.srcW * s.cfg.srcH)) s = .next { t with cmdOpen := false }

/-! AnimationEngine. -/

/-- R140, R142: PALUPD requests three SETPALs in order and leaves in slot `1 + t mod 3` colour `t mod CTS` of the table
for each stripe `t` of `s, s+1, s+2`, where `s = floor(CLOCK / STRIPE_HEIGHT)`; PAL[0] and all else keep their value. -/
def Obligations.PalupdRotatesPalette : Prop :=
  ∀ s : State, s.cfg.Ok →
    ∃ t, exec .palupd s = .next t ∧
      t = { s with pal := t.pal, requests := s.requests ++ palupdRequests s.cfg s.clock } ∧
      t.pal.get 0 = s.pal.get 0 ∧
      ∀ n : Int, s.clock / (s.cfg.stripeHeight : Int) ≤ n →
        n < s.clock / (s.cfg.stripeHeight : Int) + 3 →
        t.pal.get (BitVec.ofInt 2 (1 + n % 3)) = s.cfg.colourAt (n % (s.cfg.cts : Int)).toNat

/-- R155 (1), (2): the slots written, in request order, repeat when CLOCK grows by `SH*NCC`; the whole palette repeats
when it grows by `SH*lcm(NCC, CTS)`. -/
def Obligations.PalettePeriods : Prop :=
  ∀ s s' : State, s.cfg.Ok → s'.cfg = s.cfg →
    ∃ t t', exec .palupd s = .next t ∧ exec .palupd s' = .next t' ∧
      (s'.clock = s.clock + s.cfg.stripeHeight * 3 →
        ∃ r r' : List (BitVec 2 × Colour), r.map Prod.fst = r'.map Prod.fst ∧
          t.requests = s.requests ++ r.map (fun p => .setpal p.1 p.2) ∧
          t'.requests = s'.requests ++ r'.map (fun p => .setpal p.1 p.2)) ∧
      (s'.clock = s.clock + s.cfg.stripeHeight * Nat.lcm 3 s.cfg.cts →
        ∀ slot : BitVec 2, slot ≠ 0 → t'.pal.get slot = t.pal.get slot)

/-- R143, R144: STRIPES requests SETDC and HLINE for every row of the window, on the screen or off it, fills the rows on
the screen with PixelValue `1 + emod(fdiv(y, SH), 3)`, leaves every other row and byte of the surface, leaves DC at the
band of its last row, and changes nothing else. -/
def Obligations.StripesFillTheWindow : Prop :=
  ∀ s : State, s.cfg.Ok → s.MemoryOk →
    ∃ t, exec .stripes s = .next t ∧
      t = { s with
        surf := t.surf,
        dc := BitVec.ofInt 16
          (2 + (s.clock + s.cfg.windowHeight - 1) / (s.cfg.stripeHeight : Int) % 3),
        requests := s.requests ++ stripesRequests s.cfg s.clock,
        draws := s.draws + s.cfg.windowHeight } ∧
      (∀ px py : Nat, px < s.cfg.screenW → py < s.cfg.screenH →
        surfPixel s.cfg t.surf px py =
          if inWindow s.cfg s.clock py then rowValue s.cfg py else surfPixel s.cfg s.surf px py) ∧
      ∀ k, (∀ px py : Nat, px < s.cfg.screenW → py < s.cfg.screenH → inWindow s.cfg s.clock py →
          k ≠ (py * s.cfg.screenW + px) / 4) → t.surf.read k = s.surf.read k

/-- R145: after PALUPD and STRIPES, every row of the window shows the colour of the table that its stripe number gives,
through whatever slot it is drawn in. -/
def Obligations.RowColourIsFixed : Prop :=
  ∀ s : State, s.cfg.Ok → s.MemoryOk →
    ∃ a t, exec .palupd s = .next a ∧ exec .stripes a = .next t ∧
      ∀ px py : Nat, px < s.cfg.screenW → py < s.cfg.screenH → inWindow s.cfg s.clock py →
        t.pal.get (surfPixel s.cfg t.surf px py) =
          s.cfg.colourAt (((py : Int) / (s.cfg.stripeHeight : Int)) % (s.cfg.cts : Int)).toNat

/-- R146, R177: COMPOSITE with COMPOSITE_DC = 0x0010 requests one SETDC and one BLIT1, sets to PixelValue 0 the display
pixels under a set mask pixel, leaves every other pixel and byte of the surface, and changes nothing else. -/
def Obligations.CompositeCutsTheLabelOut : Prop :=
  ∀ s : State, s.surf.wf → s.cfg.compositeDc = 0x0010 →
    ∃ t, exec .composite s = .next t ∧
      t = { s with surf := t.surf, dc := 0x0010, requests := s.requests ++ compositeRequests s.cfg,
                   draws := s.draws + 1 } ∧
      (∀ px py : Nat, px < s.cfg.screenW → py < s.cfg.screenH →
        surfPixel s.cfg t.surf px py =
          if onSetMaskPixel s.cfg s.mask px py then 0 else surfPixel s.cfg s.surf px py) ∧
      ∀ k, (∀ px py : Nat, px < s.cfg.screenW → py < s.cfg.screenH → onSetMaskPixel s.cfg s.mask px py →
          k ≠ (py * s.cfg.screenW + px) / 4) → t.surf.read k = s.surf.read k

/-- R150, R21, R152: ADVANCE, in its encoding, adds SPEED, compares the sum with SCREEN_H, and wraps to `-WINDOW_HEIGHT + 1`,
whatever the excess; nothing else changes (R150), exactly so whenever CLOCK_BITS suffices for the clock and for what
R152 says is stored (R21). The clause `c = next.bmod …` is the MODEL'S CHOICE for a narrower clock (log 15, DEDUCED): no
rule says what an overflow does (R141), and the model keeps the low CLOCK_BITS bits. -/
def Obligations.AdvanceStepsTheClock : Prop :=
  decode 0x2300000000000000 = .ok .advance ∧
  ∀ s : State,
    let next : Int := if s.clock + s.cfg.speed ≥ s.cfg.screenH then -(s.cfg.windowHeight : Int) + 1
      else s.clock + s.cfg.speed
    ∃ c, exec .advance s = .next { s with clock := c } ∧ c = next.bmod (2 ^ s.cfg.clockBits) ∧
      (s.cfg.Ok → s.cfg.ClockFits → s.cfg.ClockHolds s.clock → c = next)

/-- R153, R227: UPDATE in RUNNING is PALUPD, STRIPES, COMPOSITE, ADVANCE in that order and leaves SEQ in IDLE. -/
def Obligations.UpdateIsItsFourSteps : Prop :=
  ∀ s : State, s.phase = .running →
    ∃ a b c d, exec .palupd s = .next a ∧ exec .stripes a = .next b ∧ exec .composite b = .next c ∧
      exec .advance c = .next d ∧ exec .update s = .next { d with seq := .idle }

/-- R153, R142, R144, R146, R150: one frame, whole. With COMPOSITE_DC = 0x0010 UPDATE completes: the palette of its
clock, each display pixel 0 under a set mask pixel, else its row's value in the window, else what it was; DC = 0x0010;
the clock of R150; every byte of the surface that holds no pixel drawn and every other piece of state, MASK and PAL[0]
among them, keep their value. The premise on the clock is that its register holds it (R21, R141). -/
def Obligations.UpdateDrawsOneFrame : Prop :=
  ∀ s : State, s.cfg.Ok → s.cfg.ClockFits → s.cfg.ClockHolds s.clock → s.MemoryOk → s.phase = .running →
    s.cfg.compositeDc = 0x0010 →
    ∃ t, exec .update s = .next t ∧
      t = { s with
        pal := t.pal, surf := t.surf, clock := t.clock, dc := 0x0010, seq := .idle,
        requests := s.requests ++ updateRequests s.cfg s.clock,
        draws := s.draws + s.cfg.windowHeight + 1 } ∧
      t.pal.get 0 = s.pal.get 0 ∧
      (∀ n : Int, s.clock / (s.cfg.stripeHeight : Int) ≤ n →
        n < s.clock / (s.cfg.stripeHeight : Int) + 3 →
        t.pal.get (BitVec.ofInt 2 (1 + n % 3)) = s.cfg.colourAt (n % (s.cfg.cts : Int)).toNat) ∧
      (t.clock = if s.clock + s.cfg.speed ≥ s.cfg.screenH then -(s.cfg.windowHeight : Int) + 1
        else s.clock + s.cfg.speed) ∧
      (∀ px py : Nat, px < s.cfg.screenW → py < s.cfg.screenH →
        surfPixel s.cfg t.surf px py =
          if onSetMaskPixel s.cfg s.mask px py then 0
          else if inWindow s.cfg s.clock py then rowValue s.cfg py
          else surfPixel s.cfg s.surf px py) ∧
      ∀ k, (∀ px py : Nat, px < s.cfg.screenW → py < s.cfg.screenH →
          onSetMaskPixel s.cfg s.mask px py ∨ inWindow s.cfg s.clock py → k ≠ (py * s.cfg.screenW + px) / 4) →
        t.surf.read k = s.surf.read k

/-- R154: one UPDATE requests NCC SETPAL, WH pairs of SETDC and HLINE, one SETDC and one BLIT1, in that order, whatever
the clock; `NCC + 2*WH + 2` in all. -/
def Obligations.UpdateRequestSequence : Prop :=
  ∀ s : State, s.cfg.Ok → s.phase = .running →
    ∃ t, exec .update s = .next t ∧ t.requests = s.requests ++ updateRequests s.cfg s.clock ∧
      (updateRequests s.cfg s.clock).length = s.cfg.ncc + 2 * s.cfg.windowHeight + 2

/-- R156, R181: what UPDATE requests, and the clock it leaves, depend on the clock and the constants alone: not on the
mask, nor on what the host has made of its palette, selector and surface. -/
def Obligations.UpdateDependsOnClockAlone : Prop :=
  ∀ s s' : State, s.phase = .running → s'.phase = .running → s'.cfg = s.cfg → s'.clock = s.clock →
    ∃ t t' r, exec .update s = .next t ∧ exec .update s' = .next t' ∧
      t.requests = s.requests ++ r ∧ t'.requests = s'.requests ++ r ∧ t'.clock = t.clock

/-- R151, R153, R62: with the default screen height, speed and window height, and a clock of 9 bits or more (D8), from
RUNNING with CLOCK = 0, the clock after `k` UPDATE commands is `4k` for `k < 40` and `-15 + 4*((k-40) mod 44)` from then
on; the mask never changes. -/
def Obligations.ClockSequence : Prop :=
  ∀ (s : State) (k : Nat) (rest : List HostEvent), s.cfg.Ok → 9 ≤ s.cfg.clockBits →
    s.cfg.screenH = 160 → s.cfg.speed = 4 → s.cfg.windowHeight = 16 → s.phase = .running → s.seq = .idle → s.clock = 0 →
    s.inputs = List.replicate k (.command 0x0200000000000000) ++ rest →
    ∃ t : State, Host.Core.run Sys2Proof.core k s = .next t ∧ t.phase = .running ∧ t.seq = .idle ∧ t.inputs = rest ∧
      t.mask = s.mask ∧
      t.clock = if k < 40 then 4 * (k : Int) else -15 + 4 * (((k : Int) - 40) % 44)

/-- R24, R153: the sequencer, four steps from U_PALUPD, ends where UPDATE ends, with the transaction complete. -/
def Obligations.UpdateRunsThroughSequencer : Prop :=
  ∀ s : State, s.cfg.Ok → s.phase = .running → s.seq = .uPalupd →
    ∃ t, exec .update s = .next t ∧ Host.Core.run Sys2Proof.core 4 s = .next { t with cmdOpen := false }

/-! The primitives. -/

/-- R171: SETPAL writes its entry of the palette and changes nothing else. (The transcript is the model's, log 13.) -/
def Obligations.SetpalWritesOneEntry : Prop :=
  ∀ (slot : BitVec 2) (rgb : Colour) (s : State),
    ∃ t, exec (.setpal slot rgb) s = .next t ∧
      t = { s with pal := t.pal, requests := s.requests ++ [.setpal slot rgb] } ∧
      ∀ slot', t.pal.get slot' = if slot' = slot then rgb else s.pal.get slot'

/-- R172: SETDC writes the selector and changes nothing else, for every 16-bit value. -/
def Obligations.SetdcWritesTheSelector : Prop :=
  ∀ (value : DrawColour) (s : State),
    exec (.setdc value) s = .next { s with dc := value, requests := s.requests ++ [.setdc value] }

/-- R173: what field `k` of a draw colour means: 0 transparent, `n` in 1 .. 4 PixelValue `n-1`, 5 to 15 the host's. -/
def Obligations.DcmapOfAField : Prop :=
  ∀ (dc : DrawColour) (k : Nat), k < 4 →
    dcmap dc k =
      if dc.toNat / 16 ^ k % 16 = 0 then .transparent
      else if dc.toNat / 16 ^ k % 16 ≤ 4 then .slot (BitVec.ofNat 2 (dc.toNat / 16 ^ k % 16 - 1))
      else .hostDefined

/-- R175, R179: TEXT draws the foreground pixels of the label in logical colour 0, drops those off the surface, leaves
every other pixel and byte of the surface, and changes nothing else. With a field of 5 to 15 the pixel takes the free
value of log 8. -/
def Obligations.TextDrawsForeground : Prop :=
  ∀ (x y : Int) (s : State), s.cfg.Ok → s.surf.wf →
    let drawn : Int → Int → Prop := fun px py =>
      ∃ j row col : Nat, j < s.cfg.n ∧ row < 8 ∧ col < 8 ∧ s.cfg.fontBit (s.cfg.labelAt j) col row = true ∧
        px = x + 8 * j + col ∧ py = y + row
    ∃ t, exec (.text x y) s = .next t ∧
      t = { s with surf := t.surf, draws := s.draws + 1, requests := s.requests ++ [.text x y] } ∧
      (∀ px py : Nat, px < s.cfg.screenW → py < s.cfg.screenH →
        (drawn px py →
          surfPixel s.cfg t.surf px py = (dotValue s.dc s.draws 0 px py).getD (surfPixel s.cfg s.surf px py)) ∧
        (¬ drawn px py → surfPixel s.cfg t.surf px py = surfPixel s.cfg s.surf px py)) ∧
      ∀ k, (∀ px py : Nat, px < s.cfg.screenW → py < s.cfg.screenH → drawn px py →
          k ≠ (py * s.cfg.screenW + px) / 4) → t.surf.read k = s.surf.read k

/-- R176, R179: HLINE draws `len` pixels to the right of `(x, y)` in logical colour 0, drops those off the surface,
leaves every other pixel and byte of the surface, and changes nothing else. -/
def Obligations.HlineDrawsARun : Prop :=
  ∀ (x y : Int) (len : Nat) (s : State), s.surf.wf →
    ∃ t, exec (.hline x y len) s = .next t ∧
      t = { s with surf := t.surf, draws := s.draws + 1, requests := s.requests ++ [.hline x y len] } ∧
      (∀ px py : Nat, px < s.cfg.screenW → py < s.cfg.screenH →
        surfPixel s.cfg t.surf px py =
          if (py : Int) = y ∧ x ≤ px ∧ (px : Int) < x + len then
            (dotValue s.dc s.draws 0 px py).getD (surfPixel s.cfg s.surf px py)
          else surfPixel s.cfg s.surf px py) ∧
      ∀ k, (∀ px py : Nat, px < s.cfg.screenW → py < s.cfg.screenH → (py : Int) = y → x ≤ px → (px : Int) < x + len →
          k ≠ (py * s.cfg.screenW + px) / 4) → t.surf.read k = s.surf.read k

/-- R177, R179: BLIT1 of a bitmap that lies in the mask draws each bitmap pixel in the logical colour of its bit, drops
those off the surface, leaves every other pixel and byte of the surface, and changes nothing else. -/
def Obligations.Blit1CompositesTheMask : Prop :=
  ∀ (x y : Int) (w h : Nat) (s : State), s.surf.wf → w * h ≤ 8 * s.cfg.maskBytes →
    ∃ t, exec (.blit1 x y w h) s = .next t ∧
      t = { s with surf := t.surf, draws := s.draws + 1, requests := s.requests ++ [.blit1 x y w h] } ∧
      (∀ px py : Nat, px < s.cfg.screenW → py < s.cfg.screenH →
        surfPixel s.cfg t.surf px py =
          if x ≤ px ∧ (px : Int) < x + w ∧ y ≤ py ∧ (py : Int) < y + h then
            (dotValue s.dc s.draws
              (if (s.mask.read ((((py : Int) - y).toNat * w + ((px : Int) - x).toNat) / 8)).getLsbD
                (7 - (((py : Int) - y).toNat * w + ((px : Int) - x).toNat) % 8) then 1 else 0)
              px py).getD (surfPixel s.cfg s.surf px py)
          else surfPixel s.cfg s.surf px py) ∧
      ∀ k, (∀ px py : Nat, px < s.cfg.screenW → py < s.cfg.screenH →
          x ≤ px → (px : Int) < x + w → y ≤ py → (py : Int) < y + h → k ≠ (py * s.cfg.screenW + px) / 4) →
        t.surf.read k = s.surf.read k

/-- R177 (U7, log 9): a bitmap that reaches beyond the mask has no meaning and is refused; nothing runs. -/
def Obligations.OversizedBlitIsRefused : Prop :=
  ∀ (x y : Int) (w h : Nat) (s : State), 8 * s.cfg.maskBytes < w * h →
    exec (.blit1 x y w h) s = .refused .blitBeyondMask

/-! The whole machine. -/

/-- R50, R56, R152, R22, R24: every step keeps the invariant: the parameters are admitted and the widths suffice (R141),
both memories are canonical and inside their buffers, the clock is in its window, and a hook in progress is a legal one
on the source grid. -/
def Obligations.StepKeepsTheInvariant : Prop :=
  ∀ s t : State, s.Inv → step s = .next t → t.Inv

/-- The invariant of `StepKeepsTheInvariant` holds at reset. It holds of the model's reset values (log 2, 4, 5, 6). -/
def Obligations.ResetMeetsTheInvariant : Prop := State.reset.Inv

/-- R126, R63: with admitted parameters no hook in progress ever halts: every step inside a hook is done. -/
def Obligations.HookInProgressNeverHalts : Prop :=
  ∀ s : State, s.Inv → ¬ s.BetweenHooks → ∃ t, step s = .next t ∧ t.phase ≠ .halted

/-- R62, R230: in RUNNING no step writes the mask, whatever the host presents, but a reset or an operation issued on its
own, which no hook is. -/
def Obligations.MaskIsReadOnlyAfterStart : Prop :=
  ∀ s t : State, s.Inv → s.phase = .running → s.inputs.head? ≠ some .reset →
    (∀ w, s.inputs.head? ≠ some (.issue w)) → step s = .next t → t.mask = s.mask

/-- R199, R22: how PHASE moves: it stays; or a halt; or from UNSTARTED to RUNNING by START completing, commanded on the
command port or in progress; or to UNSTARTED by reset. So only reset leaves HALTED, and only START leaves UNSTARTED for
RUNNING. -/
def Obligations.PhaseMovesOnlyAsListed : Prop :=
  ∀ s t : State, step s = .next t →
    t.phase = s.phase ∨ t.phase = .halted ∨
      (s.phase = .unstarted ∧ t.phase = .running ∧ t.seq = .idle ∧
        (s.seq = .sEmit ∨ ∃ w, decode w = .ok .start ∧ s.inputs.head? = some (.command w))) ∨
      (s.BetweenHooks ∧ s.inputs.head? = some .reset ∧ t.phase = .unstarted)

/-- R34: no step writes a constant. -/
def Obligations.ConstantsAreNeverWritten : Prop :=
  ∀ s t : State, step s = .next t → t.cfg = s.cfg

/-- R21 to R24, R26 to R33, R57, R178, R193: who writes what. Each piece of state, the model's own fields included,
changes only by the operations its rule names; PHASE also by the operations that can halt. -/
def Obligations.EachRegisterHasItsWriters : Prop :=
  ∀ (i : Instr) (s t : State), exec i s = .next t →
    t.cfg = s.cfg ∧ t.inputs = s.inputs ∧ t.cmdOpen = s.cmdOpen ∧
    (t.clock ≠ s.clock → i = .advance ∨ i = .update) ∧
    (t.mask ≠ s.mask → i = .start ∨ (∃ x y b, i = .wr1 x y b) ∨ ∃ x y, i = .emit x y) ∧
    (t.edge ≠ s.edge ∨ t.nb ≠ s.nb → i = .start ∨ ∃ x y, i = .gather x y) ∧
    (t.out ≠ s.out → i = .start ∨ i = .s3x) ∧
    (t.res ≠ s.res → i = .start ∨ (∃ x y, i = .rd2 x y) ∨ (∃ x y, i = .rd1 x y) ∨ ∃ x y, i = .gather x y) ∧
    (t.x ≠ s.x ∨ t.y ≠ s.y → i = .start) ∧
    (t.seq ≠ s.seq → i = .start ∨ i = .update) ∧
    (t.phase ≠ s.phase → i = .start ∨ i = .update ∨ (∃ x y, i = .rd2 x y) ∨ (∃ x y, i = .rd1 x y) ∨
      (∃ x y b, i = .wr1 x y b) ∨ (∃ x y, i = .gather x y) ∨ ∃ x y, i = .emit x y) ∧
    (t.surf ≠ s.surf ∨ t.draws ≠ s.draws → i = .start ∨ i = .update ∨ i = .stripes ∨ i = .composite ∨
      (∃ x y, i = .text x y) ∨ (∃ x y len, i = .hline x y len) ∨ ∃ x y w h, i = .blit1 x y w h) ∧
    (t.requests ≠ s.requests → i = .start ∨ i = .update ∨ i = .palupd ∨ i = .stripes ∨ i = .composite ∨
      i.opClass = .primitive) ∧
    (i.opClass = .internal → i ≠ .palupd → i ≠ .stripes → i ≠ .composite →
      t.pal = s.pal ∧ t.dc = s.dc ∧ t.surf = s.surf ∧ t.requests = s.requests ∧ t.draws = s.draws) ∧
    (t.pal ≠ s.pal → i = .start ∨ i = .update ∨ i = .palupd ∨ ∃ slot rgb, i = .setpal slot rgb) ∧
    (t.dc ≠ s.dc → i = .start ∨ i = .update ∨ i = .stripes ∨ i = .composite ∨ ∃ v, i = .setdc v)

/-- R75, R141, R71: the block never presents a word that spells nothing: every request is a well-formed operation of
class P, so it has a word; every step keeps this. -/
def Obligations.EveryRequestSpellsAnOperation : Prop :=
  ∀ s t : State, s.Inv → (∀ i ∈ s.requests, Presentable i) → step s = .next t → ∀ i ∈ t.requests, Presentable i

/-- R9: the mask's size in bytes is exact, `72*N`, with no padding bits. -/
def Obligations.MaskSizeIsExact : Prop :=
  ∀ c : Config, c.Ok → c.maskW * c.maskH = 576 * c.n ∧ c.maskBytes = 72 * c.n ∧ 8 * c.maskBytes = c.maskW * c.maskH
end

