-- ==== Sys2Proof/Laws/Params.lean ====
section
/-! SUPPORT. What an admitted parameter set satisfies (R7, R8, R9, R141). -/

namespace Sys2Proof

variable {c : Config}

/-- The derived parameters of an admitted set, in terms of N, STRIPE_HEIGHT and the screen. -/
theorem Config.derived_of_ok (h : c.Ok) :
    c.ncc = 3 ∧ c.windowHeight = 2 * c.stripeHeight ∧ c.srcW = 8 * c.n ∧ c.srcH = 8 ∧ c.maskW = 24 * c.n ∧
      c.maskH = 24 ∧ c.glyphW = 8 ∧ c.glyphH = 8 := by
  obtain ⟨⟨h1, -, -, -, h5, -⟩, -, h6, h7, h8, h9, h10⟩ := h
  refine ⟨h1, by rw [h10, h1], h8, h9, by omega, by omega, ?_, h9⟩
  unfold Config.srcW at h8
  exact Nat.eq_of_mul_eq_mul_right (by omega) h8

/-- The bounds of an admitted set (R8). -/
theorem Config.bounds_of_ok (h : c.Ok) :
    1 ≤ c.stripeHeight ∧ 1 ≤ c.speed ∧ 1 ≤ c.cts ∧ 1 ≤ c.n ∧ 8 * c.n ≤ c.screenW ∧ 8 ≤ c.screenH ∧
      c.screenW = c.screenH := h.1.2

/-- A value that the clock's register holds is stored as it is (R21). -/
theorem Config.storedClock_of_holds {v : Int} (h : c.ClockHolds v) : c.storedClock v = v := by
  obtain ⟨h1, h2⟩ := h
  have hp : 0 < 2 ^ c.clockBits := Nat.two_pow_pos _
  unfold Config.storedClock
  generalize hm : 2 ^ c.clockBits = m at hp ⊢
  have hm' : (2 : Int) ^ c.clockBits = (m : Int) := by rw [← hm]; push_cast; rfl
  rw [hm'] at h1 h2
  exact Int.bmod_eq_of_le (by omega) (by omega)

/-- Every value between two that the clock's register holds is one it holds. -/
theorem Config.clockHolds_of_between {u v w : Int} (hu : c.ClockHolds u) (hw : c.ClockHolds w) (h1 : u ≤ v)
    (h2 : v ≤ w) : c.ClockHolds v := by
  obtain ⟨hu1, -⟩ := hu
  obtain ⟨-, hw2⟩ := hw
  exact ⟨by omega, by omega⟩

/-- The source grid lies on the surface (R126). -/
theorem Config.src_le_screen_of_ok (h : c.Ok) : c.srcW ≤ c.screenW ∧ c.srcH ≤ c.screenH := by
  obtain ⟨-, -, h1, h2, -⟩ := Config.derived_of_ok h
  obtain ⟨-, -, -, -, h3, h4, -⟩ := Config.bounds_of_ok h
  omega

end Sys2Proof
end

