-- ==== Sys2Proof/Laws/Memory.lean ====
section
/-! SUPPORT. Memory: read after write, the canonical form is kept, equal reads make equal memories. -/

namespace Sys2Proof.Machine

theorem Memory.read_nil (k : Nat) : Memory.read [] k = unlistedByte := rfl

/-- A byte whose index no cell carries reads as an unlisted one. -/
theorem Memory.read_of_forall_ne {m : Memory} {k : Nat} (h : ∀ p ∈ m, p.1 ≠ k) : m.read k = unlistedByte := by
  induction m with
  | nil => rfl
  | cons p rest ih =>
    obtain ⟨a, v⟩ := p
    simp only [Memory.read]
    rw [if_neg (h (a, v) (by simp)), ih (fun q hq => h q (by simp [hq]))]

theorem Memory.read_eq_of_mem {m : Memory} (hm : m.wf) {k : Nat} {v : Byte} (h : (k, v) ∈ m) : m.read k = v := by
  induction m with
  | nil => cases h
  | cons p rest ih =>
    obtain ⟨a, b⟩ := p
    have hp := List.pairwise_cons.mp hm.1
    simp only [Memory.read]
    rcases List.mem_cons.mp h with h | h
    · cases h; simp
    · have : a < k := hp.1 _ h
      rw [if_neg (by omega)]
      exact ih ⟨hp.2, fun q hq => hm.2 q (by simp [hq])⟩ h

theorem Memory.wf_tail {p : Host.Cell} {rest : Memory} (h : Memory.wf (p :: rest)) : Memory.wf rest :=
  ⟨(List.pairwise_cons.mp h.1).2, fun q hq => h.2 q (by simp [hq])⟩

theorem Memory.read_cons (k : Nat) (v : Byte) (rest : Memory) (h : ∀ p ∈ rest, p.1 ≠ k) (j : Nat) :
    (Memory.cons k v rest).read j = if j = k then v else rest.read j := by
  unfold Memory.cons
  split
  · rename_i hv
    split
    · subst_vars; exact Memory.read_of_forall_ne h
    · rfl
  · simp only [Memory.read]
    by_cases hj : j = k
    · simp [hj]
    · rw [if_neg (fun e => hj e.symm), if_neg hj]

/-- Read after write. -/
theorem Memory.read_write {m : Memory} (hm : m.wf) (k : Nat) (v : Byte) (j : Nat) :
    (m.write k v).read j = if j = k then v else m.read j := by
  induction m with
  | nil => exact Memory.read_cons k v [] (by simp) j
  | cons p rest ih =>
    obtain ⟨a, b⟩ := p
    have hp := (List.pairwise_cons.mp hm.1).1
    simp only [Memory.write]
    split
    · rename_i hka
      refine Memory.read_cons k v _ ?_ j
      intro q hq
      rcases List.mem_cons.mp hq with rfl | hq
      · simp only; omega
      · have : a < q.1 := hp q hq
        omega
    · split
      · rename_i h1 h2
        subst h2
        rw [Memory.read_cons k v rest (fun q hq => by have := hp q hq; simp only at this; omega) j]
        by_cases hj : j = k
        · simp [hj]
        · simp only [Memory.read, if_neg hj]
          rw [if_neg (fun e => hj e.symm)]
      · rename_i h1 h2
        simp only [Memory.read]
        rw [ih (Memory.wf_tail hm)]
        by_cases hj : j = k
        · subst hj
          rw [if_neg (fun e => h2 e.symm)]
          simp
        · simp only [if_neg hj]

theorem Memory.read_write_same {m : Memory} (hm : m.wf) (k : Nat) (v : Byte) : (m.write k v).read k = v := by
  rw [Memory.read_write hm]; simp

theorem Memory.read_write_other {m : Memory} (hm : m.wf) {k j : Nat} (h : j ≠ k) (v : Byte) :
    (m.write k v).read j = m.read j := by
  rw [Memory.read_write hm, if_neg h]

theorem Memory.mem_cons' {k : Nat} {v : Byte} {rest : Memory} {p : Host.Cell} (h : p ∈ Memory.cons k v rest) :
    (p = (k, v) ∧ v ≠ unlistedByte) ∨ p ∈ rest := by
  unfold Memory.cons at h
  split at h
  · exact .inr h
  · rename_i hv
    rcases List.mem_cons.mp h with rfl | h
    · exact .inl ⟨rfl, hv⟩
    · exact .inr h

/-- A cell after a write is the written one or an old one. -/
theorem Memory.mem_write {m : Memory} {k : Nat} {v : Byte} {p : Host.Cell} (h : p ∈ m.write k v) :
    (p = (k, v) ∧ v ≠ unlistedByte) ∨ p ∈ m := by
  induction m with
  | nil => exact Memory.mem_cons' h
  | cons q rest ih =>
    obtain ⟨a, b⟩ := q
    simp only [Memory.write] at h
    split at h
    · exact Memory.mem_cons' h
    · split at h
      · rcases Memory.mem_cons' h with h | h
        · exact .inl h
        · exact .inr (by simp [h])
      · rcases List.mem_cons.mp h with rfl | h
        · exact .inr (by simp)
        · rcases ih h with h | h
          · exact .inl h
          · exact .inr (by simp [h])

theorem Memory.wf_cons {k : Nat} {v : Byte} {rest : Memory} (hr : Memory.wf rest) (h : ∀ p ∈ rest, k < p.1) :
    Memory.wf (Memory.cons k v rest) := by
  unfold Memory.cons
  split
  · exact hr
  · rename_i hv
    refine ⟨List.pairwise_cons.mpr ⟨h, hr.1⟩, ?_⟩
    intro p hp
    rcases List.mem_cons.mp hp with rfl | hp
    · exact hv
    · exact hr.2 p hp

/-- A write keeps the canonical form. -/
theorem Memory.wf_write {m : Memory} (hm : m.wf) (k : Nat) (v : Byte) : (m.write k v).wf := by
  induction m with
  | nil => exact Memory.wf_cons ⟨List.Pairwise.nil, by simp⟩ (by simp)
  | cons q rest ih =>
    obtain ⟨a, b⟩ := q
    have hp := (List.pairwise_cons.mp hm.1).1
    simp only [Memory.write]
    split
    · rename_i hka
      refine Memory.wf_cons hm ?_
      intro p hpm
      rcases List.mem_cons.mp hpm with rfl | hpm
      · exact hka
      · exact lt_trans hka (hp p hpm)
    · split
      · rename_i h1 h2
        subst h2
        exact Memory.wf_cons (Memory.wf_tail hm) hp
      · rename_i h1 h2
        have ih' := ih (Memory.wf_tail hm)
        refine ⟨List.pairwise_cons.mpr ⟨?_, ih'.1⟩, ?_⟩
        · intro p hpm
          rcases Memory.mem_write hpm with ⟨rfl, _⟩ | hpm
          · simp only; omega
          · exact hp p hpm
        · intro p hpm
          rcases List.mem_cons.mp hpm with rfl | hpm
          · exact hm.2 _ (by simp)
          · exact ih'.2 p hpm

/-- A write inside a buffer keeps every cell inside it. -/
theorem Memory.within_write {size : Nat} {m : Memory} (hm : m.within size) {k : Nat} (hk : k < size) (v : Byte) :
    (m.write k v).within size := by
  intro p hp
  rcases Memory.mem_write hp with ⟨rfl, _⟩ | hp
  · exact hk
  · exact hm p hp

/-- The canonical form is canonical: memories that read alike are equal. -/
theorem Memory.eq_of_read {m m' : Memory} (hm : m.wf) (hm' : m'.wf) (h : ∀ k, m.read k = m'.read k) : m = m' := by
  induction m generalizing m' with
  | nil =>
    cases m' with
    | nil => rfl
    | cons q rest =>
      obtain ⟨a, b⟩ := q
      have h1 := h a
      simp only [Memory.read, if_true] at h1
      exact absurd h1.symm (hm'.2 (a, b) (by simp))
  | cons p rest ih =>
    obtain ⟨a, b⟩ := p
    cases m' with
    | nil =>
      have h1 := h a
      simp only [Memory.read, if_true] at h1
      exact absurd h1 (hm.2 (a, b) (by simp))
    | cons q rest' =>
      obtain ⟨a', b'⟩ := q
      have hp := (List.pairwise_cons.mp hm.1).1
      have hp' := (List.pairwise_cons.mp hm'.1).1
      have haa : a = a' := by
        rcases Nat.lt_trichotomy a a' with hlt | heq | hgt
        · have h1 := h a
          rw [Memory.read_eq_of_mem hm (v := b) (by simp),
            Memory.read_of_forall_ne (m := (a', b') :: rest') (k := a) (by
              intro q hq
              rcases List.mem_cons.mp hq with rfl | hq
              · simp only; omega
              · have := hp' q hq; simp only at this; omega)] at h1
          exact absurd h1 (hm.2 (a, b) (by simp))
        · exact heq
        · have h1 := h a'
          rw [Memory.read_eq_of_mem hm' (v := b') (by simp),
            Memory.read_of_forall_ne (m := (a, b) :: rest) (k := a') (by
              intro q hq
              rcases List.mem_cons.mp hq with rfl | hq
              · simp only; omega
              · have := hp q hq; simp only at this; omega)] at h1
          exact absurd h1.symm (hm'.2 (a', b') (by simp))
      subst haa
      have hbb : b = b' := by
        have h1 := h a
        simpa [Memory.read] using h1
      subst hbb
      congr 1
      refine ih (Memory.wf_tail hm) (Memory.wf_tail hm') fun k => ?_
      by_cases hk : k = a
      · subst hk
        rw [Memory.read_of_forall_ne (m := rest) (fun q hq => by have := hp q hq; simp only at this; omega),
          Memory.read_of_forall_ne (m := rest') (fun q hq => by have := hp' q hq; simp only at this; omega)]
      · have h1 := h k
        simp only [Memory.read] at h1
        rwa [if_neg (fun e => hk e.symm), if_neg (fun e => hk e.symm)] at h1

end Sys2Proof.Machine
end

