-- ==== Sys2Proof/Laws/State.lean ====
section
/-! SUPPORT. One lemma a field a named update of State, so that no proof unfolds a record update. -/

namespace Sys2Proof.Machine

variable (s : State)

@[simp] theorem State.setClock_cfg (v : Int) : (s.setClock v).cfg = s.cfg := rfl
@[simp] theorem State.setClock_clock (v : Int) : (s.setClock v).clock = v := rfl
@[simp] theorem State.setClock_phase (v : Int) : (s.setClock v).phase = s.phase := rfl
@[simp] theorem State.setClock_seq (v : Int) : (s.setClock v).seq = s.seq := rfl
@[simp] theorem State.setClock_mask (v : Int) : (s.setClock v).mask = s.mask := rfl
@[simp] theorem State.setClock_surf (v : Int) : (s.setClock v).surf = s.surf := rfl
@[simp] theorem State.setClock_x (v : Int) : (s.setClock v).x = s.x := rfl
@[simp] theorem State.setClock_y (v : Int) : (s.setClock v).y = s.y := rfl
@[simp] theorem State.setClock_nb (v : Int) : (s.setClock v).nb = s.nb := rfl
@[simp] theorem State.setClock_edge (v : Int) : (s.setClock v).edge = s.edge := rfl
@[simp] theorem State.setClock_out (v : Int) : (s.setClock v).out = s.out := rfl
@[simp] theorem State.setClock_res (v : Int) : (s.setClock v).res = s.res := rfl
@[simp] theorem State.setClock_pal (v : Int) : (s.setClock v).pal = s.pal := rfl
@[simp] theorem State.setClock_dc (v : Int) : (s.setClock v).dc = s.dc := rfl
@[simp] theorem State.setClock_inputs (v : Int) : (s.setClock v).inputs = s.inputs := rfl
@[simp] theorem State.setClock_requests (v : Int) : (s.setClock v).requests = s.requests := rfl
@[simp] theorem State.setClock_cmdOpen (v : Int) : (s.setClock v).cmdOpen = s.cmdOpen := rfl
@[simp] theorem State.setClock_draws (v : Int) : (s.setClock v).draws = s.draws := rfl

@[simp] theorem State.setPhase_cfg (v : Phase) : (s.setPhase v).cfg = s.cfg := rfl
@[simp] theorem State.setPhase_clock (v : Phase) : (s.setPhase v).clock = s.clock := rfl
@[simp] theorem State.setPhase_phase (v : Phase) : (s.setPhase v).phase = v := rfl
@[simp] theorem State.setPhase_seq (v : Phase) : (s.setPhase v).seq = s.seq := rfl
@[simp] theorem State.setPhase_mask (v : Phase) : (s.setPhase v).mask = s.mask := rfl
@[simp] theorem State.setPhase_surf (v : Phase) : (s.setPhase v).surf = s.surf := rfl
@[simp] theorem State.setPhase_x (v : Phase) : (s.setPhase v).x = s.x := rfl
@[simp] theorem State.setPhase_y (v : Phase) : (s.setPhase v).y = s.y := rfl
@[simp] theorem State.setPhase_nb (v : Phase) : (s.setPhase v).nb = s.nb := rfl
@[simp] theorem State.setPhase_edge (v : Phase) : (s.setPhase v).edge = s.edge := rfl
@[simp] theorem State.setPhase_out (v : Phase) : (s.setPhase v).out = s.out := rfl
@[simp] theorem State.setPhase_res (v : Phase) : (s.setPhase v).res = s.res := rfl
@[simp] theorem State.setPhase_pal (v : Phase) : (s.setPhase v).pal = s.pal := rfl
@[simp] theorem State.setPhase_dc (v : Phase) : (s.setPhase v).dc = s.dc := rfl
@[simp] theorem State.setPhase_inputs (v : Phase) : (s.setPhase v).inputs = s.inputs := rfl
@[simp] theorem State.setPhase_requests (v : Phase) : (s.setPhase v).requests = s.requests := rfl
@[simp] theorem State.setPhase_cmdOpen (v : Phase) : (s.setPhase v).cmdOpen = s.cmdOpen := rfl
@[simp] theorem State.setPhase_draws (v : Phase) : (s.setPhase v).draws = s.draws := rfl

@[simp] theorem State.setSeq_cfg (v : Seq) : (s.setSeq v).cfg = s.cfg := rfl
@[simp] theorem State.setSeq_clock (v : Seq) : (s.setSeq v).clock = s.clock := rfl
@[simp] theorem State.setSeq_phase (v : Seq) : (s.setSeq v).phase = s.phase := rfl
@[simp] theorem State.setSeq_seq (v : Seq) : (s.setSeq v).seq = v := rfl
@[simp] theorem State.setSeq_mask (v : Seq) : (s.setSeq v).mask = s.mask := rfl
@[simp] theorem State.setSeq_surf (v : Seq) : (s.setSeq v).surf = s.surf := rfl
@[simp] theorem State.setSeq_x (v : Seq) : (s.setSeq v).x = s.x := rfl
@[simp] theorem State.setSeq_y (v : Seq) : (s.setSeq v).y = s.y := rfl
@[simp] theorem State.setSeq_nb (v : Seq) : (s.setSeq v).nb = s.nb := rfl
@[simp] theorem State.setSeq_edge (v : Seq) : (s.setSeq v).edge = s.edge := rfl
@[simp] theorem State.setSeq_out (v : Seq) : (s.setSeq v).out = s.out := rfl
@[simp] theorem State.setSeq_res (v : Seq) : (s.setSeq v).res = s.res := rfl
@[simp] theorem State.setSeq_pal (v : Seq) : (s.setSeq v).pal = s.pal := rfl
@[simp] theorem State.setSeq_dc (v : Seq) : (s.setSeq v).dc = s.dc := rfl
@[simp] theorem State.setSeq_inputs (v : Seq) : (s.setSeq v).inputs = s.inputs := rfl
@[simp] theorem State.setSeq_requests (v : Seq) : (s.setSeq v).requests = s.requests := rfl
@[simp] theorem State.setSeq_cmdOpen (v : Seq) : (s.setSeq v).cmdOpen = s.cmdOpen := rfl
@[simp] theorem State.setSeq_draws (v : Seq) : (s.setSeq v).draws = s.draws := rfl

@[simp] theorem State.setMask_cfg (v : Memory) : (s.setMask v).cfg = s.cfg := rfl
@[simp] theorem State.setMask_clock (v : Memory) : (s.setMask v).clock = s.clock := rfl
@[simp] theorem State.setMask_phase (v : Memory) : (s.setMask v).phase = s.phase := rfl
@[simp] theorem State.setMask_seq (v : Memory) : (s.setMask v).seq = s.seq := rfl
@[simp] theorem State.setMask_mask (v : Memory) : (s.setMask v).mask = v := rfl
@[simp] theorem State.setMask_surf (v : Memory) : (s.setMask v).surf = s.surf := rfl
@[simp] theorem State.setMask_x (v : Memory) : (s.setMask v).x = s.x := rfl
@[simp] theorem State.setMask_y (v : Memory) : (s.setMask v).y = s.y := rfl
@[simp] theorem State.setMask_nb (v : Memory) : (s.setMask v).nb = s.nb := rfl
@[simp] theorem State.setMask_edge (v : Memory) : (s.setMask v).edge = s.edge := rfl
@[simp] theorem State.setMask_out (v : Memory) : (s.setMask v).out = s.out := rfl
@[simp] theorem State.setMask_res (v : Memory) : (s.setMask v).res = s.res := rfl
@[simp] theorem State.setMask_pal (v : Memory) : (s.setMask v).pal = s.pal := rfl
@[simp] theorem State.setMask_dc (v : Memory) : (s.setMask v).dc = s.dc := rfl
@[simp] theorem State.setMask_inputs (v : Memory) : (s.setMask v).inputs = s.inputs := rfl
@[simp] theorem State.setMask_requests (v : Memory) : (s.setMask v).requests = s.requests := rfl
@[simp] theorem State.setMask_cmdOpen (v : Memory) : (s.setMask v).cmdOpen = s.cmdOpen := rfl
@[simp] theorem State.setMask_draws (v : Memory) : (s.setMask v).draws = s.draws := rfl

@[simp] theorem State.setSurf_cfg (v : Memory) : (s.setSurf v).cfg = s.cfg := rfl
@[simp] theorem State.setSurf_clock (v : Memory) : (s.setSurf v).clock = s.clock := rfl
@[simp] theorem State.setSurf_phase (v : Memory) : (s.setSurf v).phase = s.phase := rfl
@[simp] theorem State.setSurf_seq (v : Memory) : (s.setSurf v).seq = s.seq := rfl
@[simp] theorem State.setSurf_mask (v : Memory) : (s.setSurf v).mask = s.mask := rfl
@[simp] theorem State.setSurf_surf (v : Memory) : (s.setSurf v).surf = v := rfl
@[simp] theorem State.setSurf_x (v : Memory) : (s.setSurf v).x = s.x := rfl
@[simp] theorem State.setSurf_y (v : Memory) : (s.setSurf v).y = s.y := rfl
@[simp] theorem State.setSurf_nb (v : Memory) : (s.setSurf v).nb = s.nb := rfl
@[simp] theorem State.setSurf_edge (v : Memory) : (s.setSurf v).edge = s.edge := rfl
@[simp] theorem State.setSurf_out (v : Memory) : (s.setSurf v).out = s.out := rfl
@[simp] theorem State.setSurf_res (v : Memory) : (s.setSurf v).res = s.res := rfl
@[simp] theorem State.setSurf_pal (v : Memory) : (s.setSurf v).pal = s.pal := rfl
@[simp] theorem State.setSurf_dc (v : Memory) : (s.setSurf v).dc = s.dc := rfl
@[simp] theorem State.setSurf_inputs (v : Memory) : (s.setSurf v).inputs = s.inputs := rfl
@[simp] theorem State.setSurf_requests (v : Memory) : (s.setSurf v).requests = s.requests := rfl
@[simp] theorem State.setSurf_cmdOpen (v : Memory) : (s.setSurf v).cmdOpen = s.cmdOpen := rfl
@[simp] theorem State.setSurf_draws (v : Memory) : (s.setSurf v).draws = s.draws := rfl

@[simp] theorem State.setCounters_cfg (v w : Nat) : (s.setCounters v w).cfg = s.cfg := rfl
@[simp] theorem State.setCounters_clock (v w : Nat) : (s.setCounters v w).clock = s.clock := rfl
@[simp] theorem State.setCounters_phase (v w : Nat) : (s.setCounters v w).phase = s.phase := rfl
@[simp] theorem State.setCounters_seq (v w : Nat) : (s.setCounters v w).seq = s.seq := rfl
@[simp] theorem State.setCounters_mask (v w : Nat) : (s.setCounters v w).mask = s.mask := rfl
@[simp] theorem State.setCounters_surf (v w : Nat) : (s.setCounters v w).surf = s.surf := rfl
@[simp] theorem State.setCounters_x (v w : Nat) : (s.setCounters v w).x = BitVec.ofNat 16 v := rfl
@[simp] theorem State.setCounters_y (v w : Nat) : (s.setCounters v w).y = BitVec.ofNat 16 w := rfl
@[simp] theorem State.setCounters_nb (v w : Nat) : (s.setCounters v w).nb = s.nb := rfl
@[simp] theorem State.setCounters_edge (v w : Nat) : (s.setCounters v w).edge = s.edge := rfl
@[simp] theorem State.setCounters_out (v w : Nat) : (s.setCounters v w).out = s.out := rfl
@[simp] theorem State.setCounters_res (v w : Nat) : (s.setCounters v w).res = s.res := rfl
@[simp] theorem State.setCounters_pal (v w : Nat) : (s.setCounters v w).pal = s.pal := rfl
@[simp] theorem State.setCounters_dc (v w : Nat) : (s.setCounters v w).dc = s.dc := rfl
@[simp] theorem State.setCounters_inputs (v w : Nat) : (s.setCounters v w).inputs = s.inputs := rfl
@[simp] theorem State.setCounters_requests (v w : Nat) : (s.setCounters v w).requests = s.requests := rfl
@[simp] theorem State.setCounters_cmdOpen (v w : Nat) : (s.setCounters v w).cmdOpen = s.cmdOpen := rfl
@[simp] theorem State.setCounters_draws (v w : Nat) : (s.setCounters v w).draws = s.draws := rfl

@[simp] theorem State.setNb_cfg (v : Neighbourhood) : (s.setNb v).cfg = s.cfg := rfl
@[simp] theorem State.setNb_clock (v : Neighbourhood) : (s.setNb v).clock = s.clock := rfl
@[simp] theorem State.setNb_phase (v : Neighbourhood) : (s.setNb v).phase = s.phase := rfl
@[simp] theorem State.setNb_seq (v : Neighbourhood) : (s.setNb v).seq = s.seq := rfl
@[simp] theorem State.setNb_mask (v : Neighbourhood) : (s.setNb v).mask = s.mask := rfl
@[simp] theorem State.setNb_surf (v : Neighbourhood) : (s.setNb v).surf = s.surf := rfl
@[simp] theorem State.setNb_x (v : Neighbourhood) : (s.setNb v).x = s.x := rfl
@[simp] theorem State.setNb_y (v : Neighbourhood) : (s.setNb v).y = s.y := rfl
@[simp] theorem State.setNb_nb (v : Neighbourhood) : (s.setNb v).nb = v := rfl
@[simp] theorem State.setNb_edge (v : Neighbourhood) : (s.setNb v).edge = s.edge := rfl
@[simp] theorem State.setNb_out (v : Neighbourhood) : (s.setNb v).out = s.out := rfl
@[simp] theorem State.setNb_res (v : Neighbourhood) : (s.setNb v).res = s.res := rfl
@[simp] theorem State.setNb_pal (v : Neighbourhood) : (s.setNb v).pal = s.pal := rfl
@[simp] theorem State.setNb_dc (v : Neighbourhood) : (s.setNb v).dc = s.dc := rfl
@[simp] theorem State.setNb_inputs (v : Neighbourhood) : (s.setNb v).inputs = s.inputs := rfl
@[simp] theorem State.setNb_requests (v : Neighbourhood) : (s.setNb v).requests = s.requests := rfl
@[simp] theorem State.setNb_cmdOpen (v : Neighbourhood) : (s.setNb v).cmdOpen = s.cmdOpen := rfl
@[simp] theorem State.setNb_draws (v : Neighbourhood) : (s.setNb v).draws = s.draws := rfl

@[simp] theorem State.setEdge_cfg (v : EdgeFlags) : (s.setEdge v).cfg = s.cfg := rfl
@[simp] theorem State.setEdge_clock (v : EdgeFlags) : (s.setEdge v).clock = s.clock := rfl
@[simp] theorem State.setEdge_phase (v : EdgeFlags) : (s.setEdge v).phase = s.phase := rfl
@[simp] theorem State.setEdge_seq (v : EdgeFlags) : (s.setEdge v).seq = s.seq := rfl
@[simp] theorem State.setEdge_mask (v : EdgeFlags) : (s.setEdge v).mask = s.mask := rfl
@[simp] theorem State.setEdge_surf (v : EdgeFlags) : (s.setEdge v).surf = s.surf := rfl
@[simp] theorem State.setEdge_x (v : EdgeFlags) : (s.setEdge v).x = s.x := rfl
@[simp] theorem State.setEdge_y (v : EdgeFlags) : (s.setEdge v).y = s.y := rfl
@[simp] theorem State.setEdge_nb (v : EdgeFlags) : (s.setEdge v).nb = s.nb := rfl
@[simp] theorem State.setEdge_edge (v : EdgeFlags) : (s.setEdge v).edge = v := rfl
@[simp] theorem State.setEdge_out (v : EdgeFlags) : (s.setEdge v).out = s.out := rfl
@[simp] theorem State.setEdge_res (v : EdgeFlags) : (s.setEdge v).res = s.res := rfl
@[simp] theorem State.setEdge_pal (v : EdgeFlags) : (s.setEdge v).pal = s.pal := rfl
@[simp] theorem State.setEdge_dc (v : EdgeFlags) : (s.setEdge v).dc = s.dc := rfl
@[simp] theorem State.setEdge_inputs (v : EdgeFlags) : (s.setEdge v).inputs = s.inputs := rfl
@[simp] theorem State.setEdge_requests (v : EdgeFlags) : (s.setEdge v).requests = s.requests := rfl
@[simp] theorem State.setEdge_cmdOpen (v : EdgeFlags) : (s.setEdge v).cmdOpen = s.cmdOpen := rfl
@[simp] theorem State.setEdge_draws (v : EdgeFlags) : (s.setEdge v).draws = s.draws := rfl

@[simp] theorem State.setOut_cfg (v : OutputLatches) : (s.setOut v).cfg = s.cfg := rfl
@[simp] theorem State.setOut_clock (v : OutputLatches) : (s.setOut v).clock = s.clock := rfl
@[simp] theorem State.setOut_phase (v : OutputLatches) : (s.setOut v).phase = s.phase := rfl
@[simp] theorem State.setOut_seq (v : OutputLatches) : (s.setOut v).seq = s.seq := rfl
@[simp] theorem State.setOut_mask (v : OutputLatches) : (s.setOut v).mask = s.mask := rfl
@[simp] theorem State.setOut_surf (v : OutputLatches) : (s.setOut v).surf = s.surf := rfl
@[simp] theorem State.setOut_x (v : OutputLatches) : (s.setOut v).x = s.x := rfl
@[simp] theorem State.setOut_y (v : OutputLatches) : (s.setOut v).y = s.y := rfl
@[simp] theorem State.setOut_nb (v : OutputLatches) : (s.setOut v).nb = s.nb := rfl
@[simp] theorem State.setOut_edge (v : OutputLatches) : (s.setOut v).edge = s.edge := rfl
@[simp] theorem State.setOut_out (v : OutputLatches) : (s.setOut v).out = v := rfl
@[simp] theorem State.setOut_res (v : OutputLatches) : (s.setOut v).res = s.res := rfl
@[simp] theorem State.setOut_pal (v : OutputLatches) : (s.setOut v).pal = s.pal := rfl
@[simp] theorem State.setOut_dc (v : OutputLatches) : (s.setOut v).dc = s.dc := rfl
@[simp] theorem State.setOut_inputs (v : OutputLatches) : (s.setOut v).inputs = s.inputs := rfl
@[simp] theorem State.setOut_requests (v : OutputLatches) : (s.setOut v).requests = s.requests := rfl
@[simp] theorem State.setOut_cmdOpen (v : OutputLatches) : (s.setOut v).cmdOpen = s.cmdOpen := rfl
@[simp] theorem State.setOut_draws (v : OutputLatches) : (s.setOut v).draws = s.draws := rfl

@[simp] theorem State.setRes_cfg (v : BitVec 2) : (s.setRes v).cfg = s.cfg := rfl
@[simp] theorem State.setRes_clock (v : BitVec 2) : (s.setRes v).clock = s.clock := rfl
@[simp] theorem State.setRes_phase (v : BitVec 2) : (s.setRes v).phase = s.phase := rfl
@[simp] theorem State.setRes_seq (v : BitVec 2) : (s.setRes v).seq = s.seq := rfl
@[simp] theorem State.setRes_mask (v : BitVec 2) : (s.setRes v).mask = s.mask := rfl
@[simp] theorem State.setRes_surf (v : BitVec 2) : (s.setRes v).surf = s.surf := rfl
@[simp] theorem State.setRes_x (v : BitVec 2) : (s.setRes v).x = s.x := rfl
@[simp] theorem State.setRes_y (v : BitVec 2) : (s.setRes v).y = s.y := rfl
@[simp] theorem State.setRes_nb (v : BitVec 2) : (s.setRes v).nb = s.nb := rfl
@[simp] theorem State.setRes_edge (v : BitVec 2) : (s.setRes v).edge = s.edge := rfl
@[simp] theorem State.setRes_out (v : BitVec 2) : (s.setRes v).out = s.out := rfl
@[simp] theorem State.setRes_res (v : BitVec 2) : (s.setRes v).res = v := rfl
@[simp] theorem State.setRes_pal (v : BitVec 2) : (s.setRes v).pal = s.pal := rfl
@[simp] theorem State.setRes_dc (v : BitVec 2) : (s.setRes v).dc = s.dc := rfl
@[simp] theorem State.setRes_inputs (v : BitVec 2) : (s.setRes v).inputs = s.inputs := rfl
@[simp] theorem State.setRes_requests (v : BitVec 2) : (s.setRes v).requests = s.requests := rfl
@[simp] theorem State.setRes_cmdOpen (v : BitVec 2) : (s.setRes v).cmdOpen = s.cmdOpen := rfl
@[simp] theorem State.setRes_draws (v : BitVec 2) : (s.setRes v).draws = s.draws := rfl

@[simp] theorem State.setPal_cfg (v : Palette) : (s.setPal v).cfg = s.cfg := rfl
@[simp] theorem State.setPal_clock (v : Palette) : (s.setPal v).clock = s.clock := rfl
@[simp] theorem State.setPal_phase (v : Palette) : (s.setPal v).phase = s.phase := rfl
@[simp] theorem State.setPal_seq (v : Palette) : (s.setPal v).seq = s.seq := rfl
@[simp] theorem State.setPal_mask (v : Palette) : (s.setPal v).mask = s.mask := rfl
@[simp] theorem State.setPal_surf (v : Palette) : (s.setPal v).surf = s.surf := rfl
@[simp] theorem State.setPal_x (v : Palette) : (s.setPal v).x = s.x := rfl
@[simp] theorem State.setPal_y (v : Palette) : (s.setPal v).y = s.y := rfl
@[simp] theorem State.setPal_nb (v : Palette) : (s.setPal v).nb = s.nb := rfl
@[simp] theorem State.setPal_edge (v : Palette) : (s.setPal v).edge = s.edge := rfl
@[simp] theorem State.setPal_out (v : Palette) : (s.setPal v).out = s.out := rfl
@[simp] theorem State.setPal_res (v : Palette) : (s.setPal v).res = s.res := rfl
@[simp] theorem State.setPal_pal (v : Palette) : (s.setPal v).pal = v := rfl
@[simp] theorem State.setPal_dc (v : Palette) : (s.setPal v).dc = s.dc := rfl
@[simp] theorem State.setPal_inputs (v : Palette) : (s.setPal v).inputs = s.inputs := rfl
@[simp] theorem State.setPal_requests (v : Palette) : (s.setPal v).requests = s.requests := rfl
@[simp] theorem State.setPal_cmdOpen (v : Palette) : (s.setPal v).cmdOpen = s.cmdOpen := rfl
@[simp] theorem State.setPal_draws (v : Palette) : (s.setPal v).draws = s.draws := rfl

@[simp] theorem State.setDc_cfg (v : DrawColour) : (s.setDc v).cfg = s.cfg := rfl
@[simp] theorem State.setDc_clock (v : DrawColour) : (s.setDc v).clock = s.clock := rfl
@[simp] theorem State.setDc_phase (v : DrawColour) : (s.setDc v).phase = s.phase := rfl
@[simp] theorem State.setDc_seq (v : DrawColour) : (s.setDc v).seq = s.seq := rfl
@[simp] theorem State.setDc_mask (v : DrawColour) : (s.setDc v).mask = s.mask := rfl
@[simp] theorem State.setDc_surf (v : DrawColour) : (s.setDc v).surf = s.surf := rfl
@[simp] theorem State.setDc_x (v : DrawColour) : (s.setDc v).x = s.x := rfl
@[simp] theorem State.setDc_y (v : DrawColour) : (s.setDc v).y = s.y := rfl
@[simp] theorem State.setDc_nb (v : DrawColour) : (s.setDc v).nb = s.nb := rfl
@[simp] theorem State.setDc_edge (v : DrawColour) : (s.setDc v).edge = s.edge := rfl
@[simp] theorem State.setDc_out (v : DrawColour) : (s.setDc v).out = s.out := rfl
@[simp] theorem State.setDc_res (v : DrawColour) : (s.setDc v).res = s.res := rfl
@[simp] theorem State.setDc_pal (v : DrawColour) : (s.setDc v).pal = s.pal := rfl
@[simp] theorem State.setDc_dc (v : DrawColour) : (s.setDc v).dc = v := rfl
@[simp] theorem State.setDc_inputs (v : DrawColour) : (s.setDc v).inputs = s.inputs := rfl
@[simp] theorem State.setDc_requests (v : DrawColour) : (s.setDc v).requests = s.requests := rfl
@[simp] theorem State.setDc_cmdOpen (v : DrawColour) : (s.setDc v).cmdOpen = s.cmdOpen := rfl
@[simp] theorem State.setDc_draws (v : DrawColour) : (s.setDc v).draws = s.draws := rfl

@[simp] theorem State.setInputs_cfg (v : List HostEvent) : (s.setInputs v).cfg = s.cfg := rfl
@[simp] theorem State.setInputs_clock (v : List HostEvent) : (s.setInputs v).clock = s.clock := rfl
@[simp] theorem State.setInputs_phase (v : List HostEvent) : (s.setInputs v).phase = s.phase := rfl
@[simp] theorem State.setInputs_seq (v : List HostEvent) : (s.setInputs v).seq = s.seq := rfl
@[simp] theorem State.setInputs_mask (v : List HostEvent) : (s.setInputs v).mask = s.mask := rfl
@[simp] theorem State.setInputs_surf (v : List HostEvent) : (s.setInputs v).surf = s.surf := rfl
@[simp] theorem State.setInputs_x (v : List HostEvent) : (s.setInputs v).x = s.x := rfl
@[simp] theorem State.setInputs_y (v : List HostEvent) : (s.setInputs v).y = s.y := rfl
@[simp] theorem State.setInputs_nb (v : List HostEvent) : (s.setInputs v).nb = s.nb := rfl
@[simp] theorem State.setInputs_edge (v : List HostEvent) : (s.setInputs v).edge = s.edge := rfl
@[simp] theorem State.setInputs_out (v : List HostEvent) : (s.setInputs v).out = s.out := rfl
@[simp] theorem State.setInputs_res (v : List HostEvent) : (s.setInputs v).res = s.res := rfl
@[simp] theorem State.setInputs_pal (v : List HostEvent) : (s.setInputs v).pal = s.pal := rfl
@[simp] theorem State.setInputs_dc (v : List HostEvent) : (s.setInputs v).dc = s.dc := rfl
@[simp] theorem State.setInputs_inputs (v : List HostEvent) : (s.setInputs v).inputs = v := rfl
@[simp] theorem State.setInputs_requests (v : List HostEvent) : (s.setInputs v).requests = s.requests := rfl
@[simp] theorem State.setInputs_cmdOpen (v : List HostEvent) : (s.setInputs v).cmdOpen = s.cmdOpen := rfl
@[simp] theorem State.setInputs_draws (v : List HostEvent) : (s.setInputs v).draws = s.draws := rfl

@[simp] theorem State.setCmdOpen_cfg (v : Bool) : (s.setCmdOpen v).cfg = s.cfg := rfl
@[simp] theorem State.setCmdOpen_clock (v : Bool) : (s.setCmdOpen v).clock = s.clock := rfl
@[simp] theorem State.setCmdOpen_phase (v : Bool) : (s.setCmdOpen v).phase = s.phase := rfl
@[simp] theorem State.setCmdOpen_seq (v : Bool) : (s.setCmdOpen v).seq = s.seq := rfl
@[simp] theorem State.setCmdOpen_mask (v : Bool) : (s.setCmdOpen v).mask = s.mask := rfl
@[simp] theorem State.setCmdOpen_surf (v : Bool) : (s.setCmdOpen v).surf = s.surf := rfl
@[simp] theorem State.setCmdOpen_x (v : Bool) : (s.setCmdOpen v).x = s.x := rfl
@[simp] theorem State.setCmdOpen_y (v : Bool) : (s.setCmdOpen v).y = s.y := rfl
@[simp] theorem State.setCmdOpen_nb (v : Bool) : (s.setCmdOpen v).nb = s.nb := rfl
@[simp] theorem State.setCmdOpen_edge (v : Bool) : (s.setCmdOpen v).edge = s.edge := rfl
@[simp] theorem State.setCmdOpen_out (v : Bool) : (s.setCmdOpen v).out = s.out := rfl
@[simp] theorem State.setCmdOpen_res (v : Bool) : (s.setCmdOpen v).res = s.res := rfl
@[simp] theorem State.setCmdOpen_pal (v : Bool) : (s.setCmdOpen v).pal = s.pal := rfl
@[simp] theorem State.setCmdOpen_dc (v : Bool) : (s.setCmdOpen v).dc = s.dc := rfl
@[simp] theorem State.setCmdOpen_inputs (v : Bool) : (s.setCmdOpen v).inputs = s.inputs := rfl
@[simp] theorem State.setCmdOpen_requests (v : Bool) : (s.setCmdOpen v).requests = s.requests := rfl
@[simp] theorem State.setCmdOpen_cmdOpen (v : Bool) : (s.setCmdOpen v).cmdOpen = v := rfl
@[simp] theorem State.setCmdOpen_draws (v : Bool) : (s.setCmdOpen v).draws = s.draws := rfl

@[simp] theorem State.request_cfg (v : Instr) : (s.request v).cfg = s.cfg := rfl
@[simp] theorem State.request_clock (v : Instr) : (s.request v).clock = s.clock := rfl
@[simp] theorem State.request_phase (v : Instr) : (s.request v).phase = s.phase := rfl
@[simp] theorem State.request_seq (v : Instr) : (s.request v).seq = s.seq := rfl
@[simp] theorem State.request_mask (v : Instr) : (s.request v).mask = s.mask := rfl
@[simp] theorem State.request_surf (v : Instr) : (s.request v).surf = s.surf := rfl
@[simp] theorem State.request_x (v : Instr) : (s.request v).x = s.x := rfl
@[simp] theorem State.request_y (v : Instr) : (s.request v).y = s.y := rfl
@[simp] theorem State.request_nb (v : Instr) : (s.request v).nb = s.nb := rfl
@[simp] theorem State.request_edge (v : Instr) : (s.request v).edge = s.edge := rfl
@[simp] theorem State.request_out (v : Instr) : (s.request v).out = s.out := rfl
@[simp] theorem State.request_res (v : Instr) : (s.request v).res = s.res := rfl
@[simp] theorem State.request_pal (v : Instr) : (s.request v).pal = s.pal := rfl
@[simp] theorem State.request_dc (v : Instr) : (s.request v).dc = s.dc := rfl
@[simp] theorem State.request_inputs (v : Instr) : (s.request v).inputs = s.inputs := rfl
@[simp] theorem State.request_requests (v : Instr) : (s.request v).requests = s.requests ++ [v] := rfl
@[simp] theorem State.request_cmdOpen (v : Instr) : (s.request v).cmdOpen = s.cmdOpen := rfl
@[simp] theorem State.request_draws (v : Instr) : (s.request v).draws = s.draws := rfl

@[simp] theorem State.countDraw_cfg : (s.countDraw).cfg = s.cfg := rfl
@[simp] theorem State.countDraw_clock : (s.countDraw).clock = s.clock := rfl
@[simp] theorem State.countDraw_phase : (s.countDraw).phase = s.phase := rfl
@[simp] theorem State.countDraw_seq : (s.countDraw).seq = s.seq := rfl
@[simp] theorem State.countDraw_mask : (s.countDraw).mask = s.mask := rfl
@[simp] theorem State.countDraw_surf : (s.countDraw).surf = s.surf := rfl
@[simp] theorem State.countDraw_x : (s.countDraw).x = s.x := rfl
@[simp] theorem State.countDraw_y : (s.countDraw).y = s.y := rfl
@[simp] theorem State.countDraw_nb : (s.countDraw).nb = s.nb := rfl
@[simp] theorem State.countDraw_edge : (s.countDraw).edge = s.edge := rfl
@[simp] theorem State.countDraw_out : (s.countDraw).out = s.out := rfl
@[simp] theorem State.countDraw_res : (s.countDraw).res = s.res := rfl
@[simp] theorem State.countDraw_pal : (s.countDraw).pal = s.pal := rfl
@[simp] theorem State.countDraw_dc : (s.countDraw).dc = s.dc := rfl
@[simp] theorem State.countDraw_inputs : (s.countDraw).inputs = s.inputs := rfl
@[simp] theorem State.countDraw_requests : (s.countDraw).requests = s.requests := rfl
@[simp] theorem State.countDraw_cmdOpen : (s.countDraw).cmdOpen = s.cmdOpen := rfl
@[simp] theorem State.countDraw_draws : (s.countDraw).draws = s.draws + 1 := rfl

end Sys2Proof.Machine
end

