-- ==== Sys2Proof/Laws/Result.lean ====
section
/-! SUPPORT. Results and sequences: what `andThen`, `runAll`, `halt` and `outcome` answer. -/

namespace Sys2Proof.Machine

@[simp] theorem Result.done_andThen (s : State) (f : State → Result) : (Result.done s).andThen f = f s := rfl

@[simp] theorem Result.halted_andThen (why : HaltCause) (s : State) (f : State → Result) :
    (Result.halted why s).andThen f = .halted why s := rfl

@[simp] theorem Result.refused_andThen (r : Refusal) (f : State → Result) :
    (Result.refused r).andThen f = .refused r := rfl

@[simp] theorem Result.done_outcome (s : State) : (Result.done s).outcome = .next s := rfl

@[simp] theorem Result.halted_outcome (why : HaltCause) (s : State) : (Result.halted why s).outcome = .next s := rfl

@[simp] theorem Result.refused_outcome (r : Refusal) : (Result.refused r).outcome = .refused r := rfl

/-- The halt as the step sees it: the same state in phase HALTED (R193). -/
@[simp] theorem halt_outcome (why : HaltCause) (s : State) : (halt why s).outcome = .next (s.setPhase .halted) := rfl

/-- No result is a fault (log 7). -/
theorem Result.outcome_ne_fault (r : Result) (f : Fault) : r.outcome ≠ .fault f := by cases f

/-- What follows an operation runs only when the operation is done. -/
theorem Result.andThen_eq_done {r : Result} {f : State → Result} {t : State} :
    r.andThen f = .done t ↔ ∃ s, r = .done s ∧ f s = .done t := by
  cases r <;> simp [Result.andThen]

@[simp] theorem runAll_nil {α : Type} (f : α → State → Result) (s : State) : runAll f [] s = .done s := rfl

@[simp] theorem runAll_cons {α : Type} (f : α → State → Result) (a : α) (as : List α) (s : State) :
    runAll f (a :: as) s = (f a s).andThen (fun s' => runAll f as s') := rfl

theorem Result.andThen_assoc (r : Result) (f g : State → Result) :
    (r.andThen f).andThen g = r.andThen (fun s => (f s).andThen g) := by
  cases r <;> rfl

theorem runAll_append {α : Type} (f : α → State → Result) (as bs : List α) (s : State) :
    runAll f (as ++ bs) s = (runAll f as s).andThen (fun s' => runAll f bs s') := by
  induction as generalizing s with
  | nil => rfl
  | cons a as ih =>
    simp only [List.cons_append, runAll_cons, Result.andThen_assoc]
    congr 1
    funext s'
    exact ih s'

/-- A sequence whose every operation is done in every state that meets `Inv`, and keeps it, is done and keeps it. -/
theorem runAll_done {α : Type} {f : α → State → Result} {Inv : State → Prop} {as : List α}
    (h : ∀ a ∈ as, ∀ s, Inv s → ∃ t, f a s = .done t ∧ Inv t) {s : State} (hs : Inv s) :
    ∃ t, runAll f as s = .done t ∧ Inv t := by
  induction as generalizing s with
  | nil => exact ⟨s, rfl, hs⟩
  | cons a as ih =>
    obtain ⟨t, ht, hInv⟩ := h a (by simp) s hs
    obtain ⟨u, hu, hInv'⟩ := ih (fun b hb => h b (by simp [hb])) hInv
    exact ⟨u, by simp [ht, hu], hInv'⟩

end Sys2Proof.Machine
end

