-- ==== Sys2Proof/Laws/BitPlane.lean ====
section
/-! SUPPORT. Packed pixels: a pixel written reads back, every other pixel is left alone (R51, R52, R93, R174). -/

namespace Sys2Proof.Machine

/-! Bits of one byte. -/

theorem getPixel2_putPixel2_same (byte : Byte) {s : Nat} (hs : s = 0 ∨ s = 2 ∨ s = 4 ∨ s = 6) (v : PixelValue) :
    getPixel2 (putPixel2 byte s v) s = v := by
  unfold getPixel2 putPixel2
  revert byte v
  rcases hs with rfl | rfl | rfl | rfl <;> decide +kernel

theorem getPixel2_putPixel2_other (byte : Byte) {s t : Nat} (hs : s = 0 ∨ s = 2 ∨ s = 4 ∨ s = 6)
    (ht : t = 0 ∨ t = 2 ∨ t = 4 ∨ t = 6) (h : t ≠ s) (v : PixelValue) :
    getPixel2 (putPixel2 byte s v) t = getPixel2 byte t := by
  unfold getPixel2 putPixel2
  revert byte v
  rcases hs with rfl | rfl | rfl | rfl <;> rcases ht with rfl | rfl | rfl | rfl <;>
    first | exact absurd rfl h | decide +kernel

theorem getPixel1_putPixel1 (byte : Byte) {s t : Nat} (hs : s < 8) (ht : t < 8) (b : Bool) :
    getPixel1 (putPixel1 byte s b) t = if t = s then b else getPixel1 byte t := by
  unfold getPixel1 putPixel1
  revert byte b
  interval_cases s <;> interval_cases t <;> decide +kernel

theorem shiftOf2_cases (o : Nat) : shiftOf2 o = 0 ∨ shiftOf2 o = 2 ∨ shiftOf2 o = 4 ∨ shiftOf2 o = 6 := by
  unfold shiftOf2; omega

theorem shiftOf1_lt (o : Nat) : shiftOf1 o < 8 := by unfold shiftOf1; omega

/-- Byte and shift name the pixel (R93 (6)). -/
theorem offset_eq_of_place2 {o o' : Nat} (h1 : byteOf2 o = byteOf2 o') (h2 : shiftOf2 o = shiftOf2 o') : o = o' := by
  unfold byteOf2 shiftOf2 at *; omega

theorem offset_eq_of_place1 {o o' : Nat} (h1 : byteOf1 o = byteOf1 o') (h2 : shiftOf1 o = shiftOf1 o') : o = o' := by
  unfold byteOf1 shiftOf1 at *; omega

/-- The offset is injective on the grid (R93 (6)). -/
theorem pixelOffset_inj {w x y x' y' : Nat} (hx : x < w) (hx' : x' < w)
    (h : pixelOffset w x y = pixelOffset w x' y') : x = x' ∧ y = y' := by
  unfold pixelOffset at h
  have hw : 0 < w := by omega
  have h1 : (y * w + x) / w = y := by
    rw [Nat.mul_comm, Nat.mul_add_div hw, Nat.div_eq_of_lt hx]; omega
  have h2 : (y' * w + x') / w = y' := by
    rw [Nat.mul_comm, Nat.mul_add_div hw, Nat.div_eq_of_lt hx']; omega
  have hy : y = y' := by rw [← h1, ← h2, h]
  subst hy
  exact ⟨by omega, rfl⟩

/-- Every offset computed in range lies inside the grid (R93 (8)). -/
theorem pixelOffset_lt {w h x y : Nat} (hx : x < w) (hy : y < h) : pixelOffset w x y < w * h := by
  unfold pixelOffset
  calc y * w + x < y * w + w := by omega
    _ = (y + 1) * w := by ring
    _ ≤ h * w := Nat.mul_le_mul_right w hy
    _ = w * h := Nat.mul_comm h w

theorem byteOf2_lt_surfBytes {c : Config} {x y : Nat} (hx : x < c.screenW) (hy : y < c.screenH) :
    byteOf2 (pixelOffset c.screenW x y) < c.surfBytes := by
  have := pixelOffset_lt hx hy
  unfold byteOf2 Config.surfBytes; omega

theorem byteOf1_lt_maskBytes {c : Config} {x y : Nat} (hx : x < c.maskW) (hy : y < c.maskH) :
    byteOf1 (pixelOffset c.maskW x y) < c.maskBytes := by
  have := pixelOffset_lt hx hy
  unfold byteOf1 Config.maskBytes; omega

/-! The mask. -/

theorem maskPut_wf {c : Config} {m : Memory} (hm : m.wf) (x y : Nat) (b : Bool) : (maskPut c m x y b).wf :=
  Memory.wf_write hm _ _

theorem maskPut_within {c : Config} {m : Memory} (hm : m.within c.maskBytes) {x y : Nat} (hx : x < c.maskW)
    (hy : y < c.maskH) (b : Bool) : (maskPut c m x y b).within c.maskBytes :=
  Memory.within_write hm (byteOf1_lt_maskBytes hx hy) _

/-- WR1 changes no byte but the pixel's own (R92). -/
theorem maskPut_read_other {c : Config} {m : Memory} (hm : m.wf) {x y k : Nat} (b : Bool)
    (hk : k ≠ byteOf1 (pixelOffset c.maskW x y)) : (maskPut c m x y b).read k = m.read k :=
  Memory.read_write_other hm hk _

/-- What WR1 leaves in each pixel: `b` in its own, what was there in every other (R93 (1), (2)). -/
theorem maskBit_maskPut {c : Config} {m : Memory} (hm : m.wf) {x y x' y' : Nat} (hx : x < c.maskW)
    (hx' : x' < c.maskW) (b : Bool) :
    maskBit c (maskPut c m x y b) x' y' = if x' = x ∧ y' = y then b else maskBit c m x' y' := by
  unfold maskBit bitmapBit maskPut
  simp only
  rw [Memory.read_write hm]
  by_cases hb : byteOf1 (pixelOffset c.maskW x' y') = byteOf1 (pixelOffset c.maskW x y)
  · rw [if_pos hb, getPixel1_putPixel1 _ (shiftOf1_lt _) (shiftOf1_lt _), hb]
    by_cases hxy : x' = x ∧ y' = y
    · rw [if_pos hxy, hxy.1, hxy.2, if_pos rfl]
    · rw [if_neg hxy, if_neg]
      exact fun hs => hxy (pixelOffset_inj hx' hx (offset_eq_of_place1 hb hs))
  · rw [if_neg hb, if_neg]
    rintro ⟨rfl, rfl⟩
    exact hb rfl

/-! The surface. -/

theorem surfSet_wf {c : Config} {m : Memory} (hm : m.wf) (x y : Int) (v : PixelValue) : (surfSet c m x y v).wf := by
  unfold surfSet; split
  · exact Memory.wf_write hm _ _
  · exact hm

theorem surfSet_within {c : Config} {m : Memory} (hm : m.within c.surfBytes) (x y : Int) (v : PixelValue) :
    (surfSet c m x y v).within c.surfBytes := by
  unfold surfSet; split
  · rename_i h
    exact Memory.within_write hm (byteOf2_lt_surfBytes (by omega) (by omega)) _
  · exact hm

/-- Off the surface nothing is written (R179). -/
theorem surfSet_off {c : Config} {m : Memory} {x y : Int} (h : ¬ onSurface c x y) (v : PixelValue) :
    surfSet c m x y v = m := if_neg h

/-- SurfSet changes no byte but the pixel's own (R174). -/
theorem surfSet_read_other {c : Config} {m : Memory} (hm : m.wf) {x y : Int} {k : Nat} (v : PixelValue)
    (hk : onSurface c x y → k ≠ byteOf2 (pixelOffset c.screenW x.toNat y.toNat)) :
    (surfSet c m x y v).read k = m.read k := by
  unfold surfSet; split
  · rename_i h
    exact Memory.read_write_other hm (hk h) _
  · rfl

/-- What SurfSet leaves in each pixel of the surface (R174). -/
theorem surfPixel_surfSet {c : Config} {m : Memory} (hm : m.wf) (x y : Int) (v : PixelValue) {px py : Nat}
    (hpx : px < c.screenW) (hpy : py < c.screenH) :
    surfPixel c (surfSet c m x y v) px py = if (px : Int) = x ∧ (py : Int) = y then v else surfPixel c m px py := by
  by_cases hon : onSurface c x y
  · obtain ⟨h1, h2, h3, h4⟩ := hon
    have hon : onSurface c x y := ⟨h1, h2, h3, h4⟩
    unfold surfPixel surfSet
    rw [if_pos hon]
    simp only
    rw [Memory.read_write hm]
    by_cases hb : byteOf2 (pixelOffset c.screenW px py) = byteOf2 (pixelOffset c.screenW x.toNat y.toNat)
    · rw [if_pos hb]
      by_cases hxy : (px : Int) = x ∧ (py : Int) = y
      · rw [if_pos hxy]
        obtain ⟨rfl, rfl⟩ := hxy
        simp only [Int.toNat_natCast]
        exact getPixel2_putPixel2_same _ (shiftOf2_cases _) v
      · rw [if_neg hxy, hb]
        refine getPixel2_putPixel2_other _ (shiftOf2_cases _) (shiftOf2_cases _) (fun hs => hxy ?_) v
        have := pixelOffset_inj hpx (by omega) (offset_eq_of_place2 hb hs)
        omega
    · rw [if_neg hb, if_neg]
      rintro ⟨rfl, rfl⟩
      exact hb (by simp)
  · rw [surfSet_off hon, if_neg]
    rintro ⟨rfl, rfl⟩
    exact hon ⟨by omega, by omega, by omega, by omega⟩

/-! The three operations: each is done in range and halts out of range. -/

theorem rd2_of_range {x y : Nat} {s : State} (hx : x < s.cfg.screenW) (hy : y < s.cfg.screenH) :
    rd2 x y s = .done (s.setRes (surfPixel s.cfg s.surf x y)) := if_pos ⟨hx, hy⟩

theorem rd1_of_range {x y : Nat} {s : State} (hx : x < s.cfg.maskW) (hy : y < s.cfg.maskH) :
    rd1 x y s = .done (s.setRes ((BitVec.ofBool (maskBit s.cfg s.mask x y)).setWidth 2)) := if_pos ⟨hx, hy⟩

theorem wr1_of_range {x y : Nat} {s : State} (hx : x < s.cfg.maskW) (hy : y < s.cfg.maskH) (b : Bool) :
    wr1 x y b s = .done (s.setMask (maskPut s.cfg s.mask x y b)) := if_pos ⟨hx, hy⟩

theorem rd2_off_range {x y : Nat} {s : State} (h : ¬ (x < s.cfg.screenW ∧ y < s.cfg.screenH)) :
    rd2 x y s = halt .bpRange s := if_neg h

theorem rd1_off_range {x y : Nat} {s : State} (h : ¬ (x < s.cfg.maskW ∧ y < s.cfg.maskH)) :
    rd1 x y s = halt .bpRange s := if_neg h

theorem wr1_off_range {x y : Nat} {s : State} (h : ¬ (x < s.cfg.maskW ∧ y < s.cfg.maskH)) (b : Bool) :
    wr1 x y b s = halt .bpRange s := if_neg h

/-- Everything RD2 can do. -/
theorem rd2_cases (x y : Nat) (s : State) :
    (x < s.cfg.screenW ∧ y < s.cfg.screenH ∧ rd2 x y s = .done (s.setRes (surfPixel s.cfg s.surf x y))) ∨
      (¬ (x < s.cfg.screenW ∧ y < s.cfg.screenH) ∧ rd2 x y s = halt .bpRange s) := by
  by_cases h : x < s.cfg.screenW ∧ y < s.cfg.screenH
  · exact .inl ⟨h.1, h.2, if_pos h⟩
  · exact .inr ⟨h, if_neg h⟩

/-- Everything WR1 can do. -/
theorem wr1_cases (x y : Nat) (b : Bool) (s : State) :
    (x < s.cfg.maskW ∧ y < s.cfg.maskH ∧ wr1 x y b s = .done (s.setMask (maskPut s.cfg s.mask x y b))) ∨
      (¬ (x < s.cfg.maskW ∧ y < s.cfg.maskH) ∧ wr1 x y b s = halt .bpRange s) := by
  by_cases h : x < s.cfg.maskW ∧ y < s.cfg.maskH
  · exact .inl ⟨h.1, h.2, if_pos h⟩
  · exact .inr ⟨h, if_neg h⟩

end Sys2Proof.Machine
end

