-- ==== Sys2Proof/Laws/Draw.lean ====
section
/-! SUPPORT. Drawing: what a list of dots leaves in each pixel and in each byte of the surface (R173, R174, R179). -/

namespace Sys2Proof.Machine

variable {c : Config} {dc : DrawColour} {n : Nat}

theorem drawDot_eq (m : Memory) (p : Dot) :
    drawDot c dc n m p = (dotValue dc n p.k p.x p.y).elim m (surfSet c m p.x p.y) := by
  unfold drawDot dotValue; cases dcmap dc p.k <;> rfl

theorem drawDot_wf {m : Memory} (hm : m.wf) (p : Dot) : (drawDot c dc n m p).wf := by
  rw [drawDot_eq]; cases dotValue dc n p.k p.x p.y
  · exact hm
  · exact surfSet_wf hm _ _ _

theorem drawDot_within {m : Memory} (hm : m.within c.surfBytes) (p : Dot) :
    (drawDot c dc n m p).within c.surfBytes := by
  rw [drawDot_eq]; cases dotValue dc n p.k p.x p.y
  · exact hm
  · exact surfSet_within hm _ _ _

/-- What one dot leaves in a pixel of the surface. -/
theorem surfPixel_drawDot {m : Memory} (hm : m.wf) (p : Dot) {px py : Nat} (hpx : px < c.screenW)
    (hpy : py < c.screenH) :
    surfPixel c (drawDot c dc n m p) px py =
      if (px : Int) = p.x ∧ (py : Int) = p.y then (dotValue dc n p.k px py).getD (surfPixel c m px py)
      else surfPixel c m px py := by
  rw [drawDot_eq]
  by_cases h : (px : Int) = p.x ∧ (py : Int) = p.y
  · rw [if_pos h, h.1, h.2]
    cases dotValue dc n p.k p.x p.y with
    | none => rfl
    | some v => simp only [Option.elim_some, surfPixel_surfSet hm p.x p.y v hpx hpy, if_pos h, Option.getD_some]
  · rw [if_neg h]
    cases dotValue dc n p.k p.x p.y with
    | none => rfl
    | some v => simp only [Option.elim_some, surfPixel_surfSet hm p.x p.y v hpx hpy, if_neg h]

/-- One dot changes no byte but its own pixel's, and none when it is off the surface. -/
theorem drawDot_read_other {m : Memory} (hm : m.wf) (p : Dot) {k : Nat}
    (hk : onSurface c p.x p.y → k ≠ byteOf2 (pixelOffset c.screenW p.x.toNat p.y.toNat)) :
    (drawDot c dc n m p).read k = m.read k := by
  rw [drawDot_eq]; cases dotValue dc n p.k p.x p.y with
  | none => rfl
  | some v => exact surfSet_read_other hm v hk

theorem drawDots_wf {m : Memory} (hm : m.wf) (dots : List Dot) : (dots.foldl (drawDot c dc n) m).wf := by
  induction dots generalizing m with
  | nil => exact hm
  | cons p rest ih => exact ih (drawDot_wf hm p)

theorem drawDots_within {m : Memory} (hm : m.within c.surfBytes) (dots : List Dot) :
    (dots.foldl (drawDot c dc n) m).within c.surfBytes := by
  induction dots generalizing m with
  | nil => exact hm
  | cons p rest ih => exact ih (drawDot_within hm p)

/-- A pixel that no dot names keeps its value. -/
theorem surfPixel_drawDots_none {m : Memory} (hm : m.wf) {dots : List Dot} {px py : Nat} (hpx : px < c.screenW)
    (hpy : py < c.screenH) (h : ∀ p ∈ dots, ¬ ((px : Int) = p.x ∧ (py : Int) = p.y)) :
    surfPixel c (dots.foldl (drawDot c dc n) m) px py = surfPixel c m px py := by
  induction dots generalizing m with
  | nil => rfl
  | cons p rest ih =>
    rw [List.foldl_cons, ih (drawDot_wf hm p) (fun q hq => h q (by simp [hq])), surfPixel_drawDot hm p hpx hpy,
      if_neg (h p (by simp))]

/-- A pixel that dots name, all in logical colour `k`, takes that colour's value. -/
theorem surfPixel_drawDots_some {m : Memory} (hm : m.wf) {dots : List Dot} {px py k : Nat} (hpx : px < c.screenW)
    (hpy : py < c.screenH) (hk : ∀ p ∈ dots, (px : Int) = p.x → (py : Int) = p.y → p.k = k)
    (h : ∃ p ∈ dots, (px : Int) = p.x ∧ (py : Int) = p.y) :
    surfPixel c (dots.foldl (drawDot c dc n) m) px py = (dotValue dc n k px py).getD (surfPixel c m px py) := by
  induction dots generalizing m with
  | nil => obtain ⟨p, hp, _⟩ := h; cases hp
  | cons p rest ih =>
    rw [List.foldl_cons]
    have hk' : ∀ q ∈ rest, (px : Int) = q.x → (py : Int) = q.y → q.k = k := fun q hq => hk q (by simp [hq])
    by_cases hr : ∃ q ∈ rest, (px : Int) = q.x ∧ (py : Int) = q.y
    · rw [ih (drawDot_wf hm p) hk' hr, surfPixel_drawDot hm p hpx hpy]
      split
      · rename_i hp
        rw [hk p (by simp) hp.1 hp.2]
        cases dotValue dc n k px py <;> rfl
      · rfl
    · rw [surfPixel_drawDots_none (drawDot_wf hm p) hpx hpy (fun q hq e => hr ⟨q, hq, e⟩),
        surfPixel_drawDot hm p hpx hpy]
      obtain ⟨q, hq, e⟩ := h
      rcases List.mem_cons.mp hq with rfl | hq
      · rw [if_pos e, hk q (by simp) e.1 e.2]
      · exact absurd ⟨q, hq, e⟩ hr

/-- A byte that holds no pixel a dot draws keeps its value. -/
theorem drawDots_read_other {m : Memory} (hm : m.wf) {dots : List Dot} {k : Nat}
    (h : ∀ p ∈ dots, onSurface c p.x p.y → k ≠ byteOf2 (pixelOffset c.screenW p.x.toNat p.y.toNat)) :
    (dots.foldl (drawDot c dc n) m).read k = m.read k := by
  induction dots generalizing m with
  | nil => rfl
  | cons p rest ih =>
    rw [List.foldl_cons, ih (drawDot_wf hm p) (fun q hq => h q (by simp [hq])),
      drawDot_read_other hm p (h p (by simp))]

/-! The named update of State. -/

theorem State.draw_eq (s : State) (dots : List Dot) :
    s.draw dots =
      { s with surf := dots.foldl (drawDot s.cfg s.dc s.draws) s.surf, draws := s.draws + 1 } := rfl

/-! The dots of each drawing primitive. -/

theorem mem_hlineDots {x y : Int} {len : Nat} {p : Dot} :
    p ∈ hlineDots x y len ↔ ∃ j < len, p = ⟨x + (j : Int), y, 0⟩ := by
  simp only [hlineDots, List.mem_map, List.mem_range]
  constructor
  · rintro ⟨j, hj, rfl⟩
    exact ⟨j, hj, rfl⟩
  · rintro ⟨j, hj, rfl⟩
    exact ⟨j, hj, rfl⟩

theorem mem_textDots {c : Config} {x y : Int} {p : Dot} :
    p ∈ textDots c x y ↔ ∃ j < c.n, ∃ row < c.glyphH, ∃ col < c.glyphW, c.fontBit (c.labelAt j) col row = true ∧
      p = ⟨x + ((c.glyphW * j + col : Nat) : Int), y + (row : Int), 0⟩ := by
  simp only [textDots, List.mem_flatMap, List.mem_map, List.mem_filter, List.mem_range]
  constructor
  · rintro ⟨j, hj, row, hrow, col, ⟨hcol, hf⟩, rfl⟩
    exact ⟨j, hj, row, hrow, col, hcol, hf, rfl⟩
  · rintro ⟨j, hj, row, hrow, col, hcol, hf, rfl⟩
    exact ⟨j, hj, row, hrow, col, ⟨hcol, hf⟩, rfl⟩

theorem mem_blitDots {mask : Memory} {x y : Int} {w h : Nat} {p : Dot} :
    p ∈ blitDots mask x y w h ↔ ∃ v < h, ∃ u < w,
      p = ⟨x + (u : Int), y + (v : Int), if bitmapBit mask w u v then 1 else 0⟩ := by
  simp only [blitDots, List.mem_flatMap, List.mem_map, List.mem_range]
  constructor
  · rintro ⟨v, hv, u, hu, rfl⟩
    exact ⟨v, hv, u, hu, rfl⟩
  · rintro ⟨v, hv, u, hu, rfl⟩
    exact ⟨v, hv, u, hu, rfl⟩

end Sys2Proof.Machine
end

