-- ==== Sys2Proof/Laws/Primitives.lean ====
section
/-! SUPPORT. The five primitives: the whole state each leaves (R171, R172, R175, R176, R177, R178). -/

namespace Sys2Proof.Machine

theorem setpal_eq (slot : BitVec 2) (rgb : Colour) (s : State) :
    setpal slot rgb s =
      { s with pal := s.pal.set slot rgb, requests := s.requests ++ [.setpal slot rgb] } := rfl

theorem setdc_eq (value : DrawColour) (s : State) :
    setdc value s = { s with dc := value, requests := s.requests ++ [.setdc value] } := rfl

theorem text_eq (x y : Int) (s : State) :
    text x y s =
      { s with surf := (textDots s.cfg x y).foldl (drawDot s.cfg s.dc s.draws) s.surf,
               draws := s.draws + 1, requests := s.requests ++ [.text x y] } := rfl

theorem hline_eq (x y : Int) (len : Nat) (s : State) :
    hline x y len s =
      { s with surf := (hlineDots x y len).foldl (drawDot s.cfg s.dc s.draws) s.surf,
               draws := s.draws + 1, requests := s.requests ++ [.hline x y len] } := rfl

theorem blit1_of_le {x y : Int} {w h : Nat} {s : State} (hw : w * h ≤ 8 * s.cfg.maskBytes) :
    blit1 x y w h s =
      .done { s with surf := (blitDots s.mask x y w h).foldl (drawDot s.cfg s.dc s.draws) s.surf,
                     draws := s.draws + 1, requests := s.requests ++ [.blit1 x y w h] } := if_pos hw

theorem blit1_of_gt {x y : Int} {w h : Nat} {s : State} (hw : ¬ w * h ≤ 8 * s.cfg.maskBytes) :
    blit1 x y w h s = .refused .blitBeyondMask := if_neg hw

/-- The mask's own size is within the mask, whatever the parameters. -/
theorem Config.maskW_mul_maskH_le (c : Config) : c.maskW * c.maskH ≤ 8 * c.maskBytes := by
  unfold Config.maskBytes; omega

theorem Palette.get_set (p : Palette) (slot slot' : BitVec 2) (rgb : Colour) :
    (p.set slot rgb).get slot' = if slot' = slot then rgb else p.get slot' := by
  have h : ∀ v : BitVec 2, v = 0 ∨ v = 1 ∨ v = 2 ∨ v = 3 := by decide
  rcases h slot with rfl | rfl | rfl | rfl <;> rcases h slot' with rfl | rfl | rfl | rfl <;> rfl

/-- Two palettes with the same four entries are equal. -/
theorem Palette.eq_of_get {p q : Palette} (h : ∀ slot, p.get slot = q.get slot) : p = q := by
  obtain ⟨a, b, c, d⟩ := p
  obtain ⟨a', b', c', d'⟩ := q
  have h0 := h 0
  have h1 := h 1
  have h2 := h 2
  have h3 := h 3
  simp [Palette.get] at h0 h1 h2 h3
  simp [h0, h1, h2, h3]

end Sys2Proof.Machine
end

