-- ==== Sys2Proof/Laws/Animation.lean ====
section
/-! SUPPORT. PALUPD, STRIPES, COMPOSITE, ADVANCE, UPDATE: the whole state each leaves (R140 to R153). -/

namespace Sys2Proof.Machine

theorem emod_eq (a b : Int) : emod a b = a % b := by
  unfold emod fdiv; have := Int.mul_ediv_add_emod a b; omega

theorem emod_nonneg (a : Int) {b : Int} (h : 0 < b) : 0 ≤ emod a b := by
  rw [emod_eq]; exact Int.emod_nonneg a (by omega)

theorem emod_lt (a : Int) {b : Int} (h : 0 < b) : emod a b < b := by
  rw [emod_eq]; exact Int.emod_lt_of_pos a h

/-- The remainder of a sum depends on the remainder of its term (R142). -/
theorem emod_emod_add (a b : Int) (i : Int) : emod (emod a b + i) b = emod (a + i) b := by
  rw [emod_eq, emod_eq, emod_eq, Int.emod_add_emod]

/-! PALUPD. -/

/-- PALUPD writes three palette entries and requests three SETPALs, nothing else (R140). -/
theorem palupd_eq {s : State} (h : s.cfg.ncc = 3) :
    palupd s =
      { s with
        pal := ((s.pal.set (paletteSlot s.cfg s.clock 0) (paletteColour s.cfg s.clock 0)).set
          (paletteSlot s.cfg s.clock 1) (paletteColour s.cfg s.clock 1)).set
          (paletteSlot s.cfg s.clock 2) (paletteColour s.cfg s.clock 2),
        requests := s.requests ++
          [.setpal (paletteSlot s.cfg s.clock 0) (paletteColour s.cfg s.clock 0),
           .setpal (paletteSlot s.cfg s.clock 1) (paletteColour s.cfg s.clock 1),
           .setpal (paletteSlot s.cfg s.clock 2) (paletteColour s.cfg s.clock 2)] } := by
  unfold palupd
  rw [h]
  simp [List.range_succ, setpal, State.request, State.setPal]

theorem paletteSlot_eq {c : Config} (h : c.ncc = 3) (clock : Int) (i : Nat) :
    paletteSlot c clock i = BitVec.ofInt 2 (1 + (stripeOf c clock + i) % 3) := by
  unfold paletteSlot
  rw [emod_emod_add, emod_eq, h]
  rfl

theorem paletteColour_eq (c : Config) (clock : Int) (i : Nat) :
    paletteColour c clock i = c.colourAt (emod (stripeOf c clock + i) c.cts).toNat := by
  unfold paletteColour
  rw [emod_emod_add]

/-! STRIPES. -/

theorem bandOf_range {c : Config} (h : c.ncc = 3) (y : Int) : 2 ≤ bandOf c y ∧ bandOf c y ≤ 4 := by
  have h1 := emod_nonneg (fdiv y c.stripeHeight) (b := (c.ncc : Int)) (by omega)
  have h2 := emod_lt (fdiv y c.stripeHeight) (b := (c.ncc : Int)) (by omega)
  unfold bandOf
  omega

/-- A line of band `b` sets its pixels to `b-1` (R144). -/
theorem dotValue_band {b : Int} (h : 2 ≤ b ∧ b ≤ 4) (n : Nat) (x y : Int) :
    dotValue (BitVec.ofInt 16 b) n 0 x y = some (BitVec.ofInt 2 (b - 1)) := by
  obtain ⟨h1, h2⟩ := h
  interval_cases b <;> rfl

/-- What STRIPES may change (R143). -/
abbrev SameButDrawing (s t : State) : Prop :=
  t = { s with surf := t.surf, dc := t.dc, requests := t.requests, draws := t.draws }

/-- One row of STRIPES (R143). -/
theorem stripeRow_eq (y : Int) (s : State) :
    stripeRow y s =
      { s with
        dc := BitVec.ofInt 16 (bandOf s.cfg y),
        surf := (hlineDots 0 y s.cfg.screenW).foldl
          (drawDot s.cfg (BitVec.ofInt 16 (bandOf s.cfg y)) s.draws) s.surf,
        draws := s.draws + 1,
        requests := s.requests ++ [.setdc (BitVec.ofInt 16 (bandOf s.cfg y)), .hline 0 y s.cfg.screenW] } := by
  simp [stripeRow, hline, setdc, State.draw, State.request, State.setDc, State.setSurf, State.countDraw]

theorem surfPixel_stripeRow {y : Int} {s : State} (h : s.cfg.ncc = 3) (hm : s.surf.wf) {px py : Nat}
    (hpx : px < s.cfg.screenW) (hpy : py < s.cfg.screenH) :
    surfPixel s.cfg (stripeRow y s).surf px py =
      if (py : Int) = y then BitVec.ofInt 2 (bandOf s.cfg y - 1) else surfPixel s.cfg s.surf px py := by
  rw [stripeRow_eq]
  simp only
  split
  · rename_i hy
    rw [surfPixel_drawDots_some (k := 0) hm hpx hpy, dotValue_band (bandOf_range h y), Option.getD_some]
    · intro p hp _ _
      obtain ⟨j, _, rfl⟩ := mem_hlineDots.mp hp
      rfl
    · exact ⟨_, mem_hlineDots.mpr ⟨px, hpx, rfl⟩, by simp, hy⟩
  · rename_i hy
    refine surfPixel_drawDots_none hm hpx hpy ?_
    intro p hp he
    obtain ⟨j, _, rfl⟩ := mem_hlineDots.mp hp
    exact hy he.2

/-- The requests of one row (R143). -/
def stripeRequests (c : Config) (y : Int) : List Instr :=
  [.setdc (BitVec.ofInt 16 (bandOf c y)), .hline 0 y c.screenW]

/-- The first `k` rows of a window that starts at row `top` (R143, R144). -/
theorem stripes_rows {s : State} (h : s.cfg.ncc = 3) (hwf : s.surf.wf) (hin : s.surf.within s.cfg.surfBytes)
    (top : Int) (k : Nat) :
    ∃ t, (List.range k).foldl (fun (t : State) (i : Nat) => stripeRow (top + (i : Int)) t) s = t ∧
      SameButDrawing s t ∧ t.surf.wf ∧ t.surf.within s.cfg.surfBytes ∧ t.draws = s.draws + k ∧
      t.dc = (if k = 0 then s.dc else BitVec.ofInt 16 (bandOf s.cfg (top + k - 1))) ∧
      t.requests = s.requests ++ (List.range k).flatMap (fun (i : Nat) => stripeRequests s.cfg (top + (i : Int))) ∧
      ∀ px py : Nat, px < s.cfg.screenW → py < s.cfg.screenH →
        surfPixel s.cfg t.surf px py =
          if top ≤ py ∧ (py : Int) < top + k then BitVec.ofInt 2 (bandOf s.cfg py - 1)
          else surfPixel s.cfg s.surf px py := by
  induction k with
  | zero =>
    refine ⟨s, rfl, rfl, hwf, hin, rfl, rfl, by simp, ?_⟩
    intro px py _ _
    rw [if_neg (by omega)]
  | succ k ih =>
    obtain ⟨t, ht, hsame, hwf', hin', hdr, hdc, hreq, hpix⟩ := ih
    have hcfg : t.cfg = s.cfg := by rw [hsame]
    refine ⟨stripeRow (top + (k : Int)) t, ?_, ?_, ?_, ?_, ?_, ?_, ?_, ?_⟩
    · rw [List.range_succ, List.foldl_append, ht]; rfl
    · rw [stripeRow_eq, hsame]
    · rw [stripeRow_eq]; exact drawDots_wf hwf' _
    · rw [stripeRow_eq, ← hcfg]; exact drawDots_within (by rw [hcfg]; exact hin') _
    · rw [stripeRow_eq]; simp only [hdr]; omega
    · rw [stripeRow_eq, if_neg (by omega)]
      simp only [hcfg]
      congr 2
      push_cast; omega
    · rw [stripeRow_eq]
      simp only [hreq, hcfg]
      rw [List.range_succ, List.flatMap_append, List.append_assoc]
      simp [stripeRequests]
    · intro px py hpx hpy
      have h1 := surfPixel_stripeRow (y := top + (k : Int)) (s := t) (by rw [hcfg]; exact h) hwf' (px := px) (py := py)
        (by rw [hcfg]; exact hpx) (by rw [hcfg]; exact hpy)
      rw [hcfg] at h1
      rw [h1, hpix px py hpx hpy]
      by_cases hrow : (py : Int) = top + k
      · rw [if_pos hrow, if_pos (by push_cast; omega), hrow]
      · rw [if_neg hrow]
        by_cases hin : top ≤ py ∧ (py : Int) < top + k
        · rw [if_pos hin, if_pos (by push_cast; omega)]
        · rw [if_neg hin, if_neg (by push_cast; omega)]

/-- Everything STRIPES does (R143, R144). -/
theorem stripes_spec {s : State} (h : s.cfg.ncc = 3) (hwf : s.surf.wf) (hin : s.surf.within s.cfg.surfBytes) :
    SameButDrawing s (stripes s) ∧ (stripes s).surf.wf ∧ (stripes s).surf.within s.cfg.surfBytes ∧
      (stripes s).draws = s.draws + s.cfg.windowHeight ∧
      (stripes s).dc = (if s.cfg.windowHeight = 0 then s.dc
        else BitVec.ofInt 16 (bandOf s.cfg (s.clock + s.cfg.windowHeight - 1))) ∧
      (stripes s).requests = s.requests ++
        (List.range s.cfg.windowHeight).flatMap (fun (i : Nat) => stripeRequests s.cfg (s.clock + (i : Int))) ∧
      ∀ px py : Nat, px < s.cfg.screenW → py < s.cfg.screenH →
        surfPixel s.cfg (stripes s).surf px py =
          if s.clock ≤ py ∧ (py : Int) < s.clock + s.cfg.windowHeight then
            BitVec.ofInt 2 (bandOf s.cfg py - 1)
          else surfPixel s.cfg s.surf px py := by
  obtain ⟨t, ht, rest⟩ := stripes_rows h hwf hin s.clock s.cfg.windowHeight
  have : stripes s = t := ht
  rw [this]
  exact rest

/-! COMPOSITE. -/

/-- COMPOSITE is always done: the mask's own size is within the mask (R146). -/
theorem composite_eq (s : State) :
    composite s =
      .done { s with
        dc := s.cfg.compositeDc,
        surf := (blitDots s.mask (compositeX s.cfg) (compositeY s.cfg) s.cfg.maskW s.cfg.maskH).foldl
          (drawDot s.cfg s.cfg.compositeDc s.draws) s.surf,
        draws := s.draws + 1,
        requests := s.requests ++
          [.setdc s.cfg.compositeDc, .blit1 (compositeX s.cfg) (compositeY s.cfg) s.cfg.maskW s.cfg.maskH] } := by
  unfold composite
  rw [blit1_of_le (by rw [setdc_eq]; exact Config.maskW_mul_maskH_le s.cfg), setdc_eq]
  simp

/-! ADVANCE. -/

/-- The clock after ADVANCE (R150): a register wide enough for the window of R152 stores every result exactly. -/
theorem advancedClock_eq {c : Config} (hs : 1 ≤ c.speed) (hf : c.ClockFits) {clock : Int} (h : c.ClockHolds clock) :
    advancedClock c clock =
      if (c.screenH : Int) ≤ clock + c.speed then -(c.windowHeight : Int) + 1 else clock + c.speed := by
  unfold advancedClock
  simp only
  rw [show -(c.windowHeight : Int) + 1 = 1 - (c.windowHeight : Int) by omega]
  apply Config.storedClock_of_holds
  split
  · exact hf.1
  · exact Config.clockHolds_of_between h hf.2 (by omega) (by omega)

/-! UPDATE. -/

/-- UPDATE in phase RUNNING is its four steps in order (R153). -/
theorem update_running {s : State} (h : s.phase = .running) :
    update s = (composite ((stripes ((palupd (s.setSeq .uPalupd)).setSeq .uStripes)).setSeq .uComposite)).andThen
      fun s => .done ((advance (s.setSeq .uAdvance)).setSeq .idle) := if_pos h

theorem update_not_running {s : State} (h : s.phase ≠ .running) : update s = halt .protocol s := if_neg h

end Sys2Proof.Machine
end

