-- ==== Sys2Proof/Laws/Decode.lean ====
section
/-! SUPPORT. The fields of a packed word (R72) and the numbers a field stands for (R74). -/

namespace Sys2Proof

variable (op d : BitVec 8) (c b a : BitVec 16)

theorem packWord_getLsbD (i : Nat) :
    (packWord op d c b a).getLsbD i =
      if i < 16 then a.getLsbD i else if i < 32 then b.getLsbD (i - 16) else if i < 48 then c.getLsbD (i - 32)
      else if i < 56 then d.getLsbD (i - 48) else op.getLsbD (i - 56) := by
  unfold packWord
  simp only [BitVec.getLsbD_append]
  split_ifs <;> first | rfl | (exfalso; omega)

@[simp] theorem opField_packWord : opField (packWord op d c b a) = op := by
  apply BitVec.eq_of_getLsbD_eq
  intro i hi
  simp only [opField, BitVec.getLsbD_extractLsb', packWord_getLsbD, hi, decide_true, Bool.true_and]
  rw [if_neg (by omega), if_neg (by omega), if_neg (by omega), if_neg (by omega), Nat.add_sub_cancel_left]

@[simp] theorem dField_packWord : dField (packWord op d c b a) = d := by
  apply BitVec.eq_of_getLsbD_eq
  intro i hi
  simp only [dField, BitVec.getLsbD_extractLsb', packWord_getLsbD, hi, decide_true, Bool.true_and]
  rw [if_neg (by omega), if_neg (by omega), if_neg (by omega), if_pos (by omega), Nat.add_sub_cancel_left]

@[simp] theorem cField_packWord : cField (packWord op d c b a) = c := by
  apply BitVec.eq_of_getLsbD_eq
  intro i hi
  simp only [cField, BitVec.getLsbD_extractLsb', packWord_getLsbD, hi, decide_true, Bool.true_and]
  rw [if_neg (by omega), if_neg (by omega), if_pos (by omega), Nat.add_sub_cancel_left]

@[simp] theorem bField_packWord : bField (packWord op d c b a) = b := by
  apply BitVec.eq_of_getLsbD_eq
  intro i hi
  simp only [bField, BitVec.getLsbD_extractLsb', packWord_getLsbD, hi, decide_true, Bool.true_and]
  rw [if_neg (by omega), if_pos (by omega), Nat.add_sub_cancel_left]

@[simp] theorem aField_packWord : aField (packWord op d c b a) = a := by
  apply BitVec.eq_of_getLsbD_eq
  intro i hi
  simp only [aField, BitVec.getLsbD_extractLsb', packWord_getLsbD, hi, decide_true, Bool.true_and]
  rw [if_pos (by omega), Nat.zero_add]

/-- A word is its five fields. -/
theorem packWord_fields (w : Word) : packWord (opField w) (dField w) (cField w) (bField w) (aField w) = w := by
  apply BitVec.eq_of_getLsbD_eq
  intro i hi
  rw [packWord_getLsbD]
  simp only [opField, dField, cField, bField, aField, BitVec.getLsbD_extractLsb']
  split
  · simp [*]
  · split
    · have : i - 16 < 16 := by omega
      simp [this]; congr 1; omega
    · split
      · have : i - 32 < 16 := by omega
        simp [this]; congr 1; omega
      · split
        · have : i - 48 < 8 := by omega
          simp [this]; congr 1; omega
        · have : i - 56 < 8 := by omega
          simp [this]; congr 1; omega

theorem packWord_and (op' d' : BitVec 8) (c' b' a' : BitVec 16) :
    packWord op d c b a &&& packWord op' d' c' b' a' =
      packWord (op &&& op') (d &&& d') (c &&& c') (b &&& b') (a &&& a') := by
  apply BitVec.eq_of_getLsbD_eq
  intro i hi
  simp only [BitVec.getLsbD_and, packWord_getLsbD]
  split_ifs <;> rfl

theorem packWord_inj {op' d' : BitVec 8} {c' b' a' : BitVec 16} :
    packWord op d c b a = packWord op' d' c' b' a' ↔ op = op' ∧ d = d' ∧ c = c' ∧ b = b' ∧ a = a' := by
  constructor
  · intro h
    exact ⟨by simpa using congrArg opField h, by simpa using congrArg dField h, by simpa using congrArg cField h,
      by simpa using congrArg bField h, by simpa using congrArg aField h⟩
  · rintro ⟨rfl, rfl, rfl, rfl, rfl⟩; rfl

/-- A mask cuts a word field by field. -/
theorem packWord_and_eq_zero (m : Word) :
    packWord op d c b a &&& m = 0 ↔
      op &&& opField m = 0 ∧ d &&& dField m = 0 ∧ c &&& cField m = 0 ∧ b &&& bField m = 0 ∧ a &&& aField m = 0 := by
  conv_lhs => rw [← packWord_fields m, packWord_and, ← packWord_fields 0, packWord_inj]
  rfl

/-- A signed field holds any number that fits it (R74). -/
theorem signedField_ofInt {n : Int} (h : fitsS16 n) : signedField (BitVec.ofInt 16 n) = n := by
  obtain ⟨h1, h2⟩ := h
  unfold signedField
  rw [BitVec.toInt_signExtend_of_le (by decide), BitVec.toInt_ofInt]
  simp only [Int.bmod]
  omega

theorem fitsS16_signedField (v : BitVec 16) : fitsS16 (signedField v) := by
  unfold signedField fitsS16
  rw [BitVec.toInt_signExtend_of_le (by decide)]
  have h1 := BitVec.le_toInt v
  have h2 := BitVec.toInt_lt (x := v)
  simp at h1 h2
  omega

theorem ofInt_signedField (v : BitVec 16) : BitVec.ofInt 16 (signedField v) = v := by
  unfold signedField
  rw [BitVec.toInt_signExtend_of_le (by decide), BitVec.ofInt_toInt]

/-- The bits a format leaves unused are 0 in a word exactly when the word's own bits there are. -/
theorem checkedAs_eq_ok {f : Format} {w : Word} {i j : Instr} :
    checkedAs f w i = .ok j ↔ w &&& f.unusedBits = 0 ∧ i = j := by
  unfold checkedAs
  by_cases h : w &&& f.unusedBits = 0
  · rw [if_pos h]; simp [h]
  · rw [if_neg h]
    exact ⟨fun e => by simp at e, fun e => absurd e.1 h⟩

end Sys2Proof
end

