-- ==== Sys2Proof/Laws/Frames.lean ====
section
/-! SUPPORT. What each composite operation leaves alone, in every state, whether it completes or halts (R178). -/

namespace Sys2Proof.Machine

/-- A relation that each turn of a loop keeps holds between the loop's ends, be the loop done or halted. -/
theorem runAll_related {α : Type} {f : α → State → Result} {R : State → State → Prop} (refl : ∀ s, R s s)
    (trans : ∀ a b c, R a b → R b c → R a c) (turn : ∀ a s t, (f a s).outcome = .next t → R s t) {as : List α}
    {s t : State} (h : (runAll f as s).outcome = .next t) : R s t := by
  induction as generalizing s with
  | nil => cases h; exact refl _
  | cons a as ih =>
    rw [runAll_cons] at h
    cases hx : f a s with
    | done b => rw [hx] at h; exact trans _ _ _ (turn a s b (by rw [hx]; rfl)) (ih h)
    | halted w b => rw [hx] at h; cases h; exact turn a s _ (by rw [hx]; rfl)
    | refused r => rw [hx] at h; cases h

/-- What GATHER may change (R120). -/
abbrev SameButGather (s t : State) : Prop := t = { s with phase := t.phase, edge := t.edge, nb := t.nb, res := t.res }

/-- What EMIT may change (R121). -/
abbrev SameButEmit (s t : State) : Prop := t = { s with phase := t.phase, mask := t.mask }

/-- What one turn of START's loop may change, a halt's PHASE among it (R123). -/
abbrev SameButTurn (s t : State) : Prop :=
  t = { s with phase := t.phase, seq := t.seq, x := t.x, y := t.y, nb := t.nb, edge := t.edge, out := t.out,
               res := t.res, mask := t.mask }

theorem gather_frame {x y : Nat} {s t : State} (h : (gather x y s).outcome = .next t) : SameButGather s t := by
  unfold gather at h
  split at h
  · have := runAll_related (R := SameButGather) (fun _ => rfl)
      (fun a b c h1 h2 => by rw [SameButGather, h2, h1]) (fun u a b hb => ?_) h
    · rw [SameButGather, this]; rfl
    · unfold gatherOne at hb
      split at hb
      · rcases rd2_cases (neighbourAt u x y).1 (neighbourAt u x y).2 a with ⟨_, _, e⟩ | ⟨_, e⟩ <;> rw [e] at hb <;>
          cases hb <;> rfl
      · cases hb; rfl
  · cases h; rfl

theorem emit_frame {x y : Nat} {s t : State} (h : (emit x y s).outcome = .next t) : SameButEmit s t := by
  unfold emit at h
  split at h
  · refine runAll_related (R := SameButEmit) (fun _ => rfl) (fun a b c h1 h2 => by rw [SameButEmit, h2, h1])
      (fun d a b hb => ?_) h
    unfold emitOne at hb
    rcases wr1_cases (3 * x + d.1) (3 * y + d.2) (tobit a.cfg (a.out.get (1 + d.1 + 3 * d.2))) a with
      ⟨_, _, e⟩ | ⟨_, e⟩ <;> rw [e] at hb <;> cases hb <;> rfl
  · cases h; rfl

theorem scanPixel_frame {p : Nat × Nat} {s t : State} (h : (scanPixel p s).outcome = .next t) : SameButTurn s t := by
  unfold scanPixel at h
  cases hx : gather p.1 p.2 ((s.setCounters p.1 p.2).setSeq .sGather) with
  | done a =>
    have h1 := gather_frame (t := a) (by rw [hx]; rfl)
    rw [hx] at h
    have h2 := emit_frame h
    rw [SameButTurn, h2]
    simp only [s3x, State.setSeq, State.setOut]
    rw [h1]
    simp only [State.setSeq, State.setCounters]
  | halted w a =>
    have h1 := gather_frame (t := a) (by rw [hx]; rfl)
    rw [hx] at h
    cases h
    rw [SameButTurn, h1]
    simp only [State.setSeq, State.setCounters]
  | refused r => rw [hx] at h; cases h

/-- START's loop over any list of source pixels, done or halted. -/
theorem scan_frame {ps : List (Nat × Nat)} {s t : State} (h : (runAll scanPixel ps s).outcome = .next t) :
    SameButTurn s t :=
  runAll_related (R := SameButTurn) (fun _ => rfl) (fun a b c h1 h2 => by rw [SameButTurn, h2, h1])
    (fun _ _ _ => scanPixel_frame) h

/-- START's three primitives (R123, steps 1 and 2). -/
theorem startPrimitives_eq (s : State) :
    startPrimitives s =
      { s with
        seq := .sText, pal := s.pal.set 0 s.cfg.bgColor, dc := s.cfg.textDc,
        surf := (textDots s.cfg 0 0).foldl (drawDot s.cfg s.cfg.textDc s.draws) s.surf, draws := s.draws + 1,
        requests := s.requests ++ [.setpal 0 s.cfg.bgColor, .setdc s.cfg.textDc, .text 0 0] } := by
  simp [startPrimitives, text_eq, setdc_eq, setpal_eq, State.setSeq]

/-- What START never changes, whatever happens (R123). -/
theorem start_frame {s t : State} (h : (start s).outcome = .next t) :
    t = { s with
      surf := t.surf, dc := t.dc, draws := t.draws, requests := t.requests, pal := t.pal, phase := t.phase,
      seq := t.seq, edge := t.edge, nb := t.nb, res := t.res, mask := t.mask, x := t.x, y := t.y, out := t.out } := by
  unfold start at h
  split at h
  · cases hx : runAll scanPixel (scanOrder s.cfg) (startPrimitives s) with
    | done a =>
      have h1 := scan_frame (t := a) (by rw [hx]; rfl)
      rw [hx] at h
      cases h
      simp only [State.setSeq, State.setPhase]
      rw [h1]
      simp only [startPrimitives_eq]
    | halted w a =>
      have h1 := scan_frame (t := a) (by rw [hx]; rfl)
      rw [hx] at h
      cases h
      rw [h1]
      simp only [startPrimitives_eq]
    | refused r => rw [hx] at h; cases h
  · cases h; rfl

/-- PALUPD changes the palette and the transcript only, for every parameter set. What it adds to the transcript is a
function of the constants and the clock (R140, R156). -/
theorem palupd_frame (s : State) :
    ∃ p, palupd s =
      { s with
        pal := p,
        requests := s.requests ++ (List.range s.cfg.ncc).map fun i =>
          .setpal (paletteSlot s.cfg s.clock i) (paletteColour s.cfg s.clock i) } := by
  have key : ∀ (l : List Nat) (f : Nat → BitVec 2) (g : Nat → Colour) (t : State),
      ∃ p, l.foldl (fun (t : State) (i : Nat) => setpal (f i) (g i) t) t =
        { t with pal := p, requests := t.requests ++ l.map fun i => .setpal (f i) (g i) } := by
    intro l f g
    induction l with
    | nil => intro t; exact ⟨t.pal, by simp⟩
    | cons a l ih =>
      intro t
      obtain ⟨p, hp⟩ := ih (setpal (f a) (g a) t)
      exact ⟨p, by rw [List.foldl_cons, hp, setpal_eq]; simp⟩
  exact key _ _ _ _

/-- STRIPES changes the surface, the selector and the model's two counters only, for every parameter set. What it adds
to the transcript is a function of the constants and the clock (R143, R156). -/
theorem stripes_frame (s : State) :
    ∃ m d n, stripes s =
      { s with
        surf := m, dc := d, draws := n,
        requests := s.requests ++
          (List.range s.cfg.windowHeight).flatMap fun (i : Nat) => stripeRequests s.cfg (s.clock + (i : Int)) } := by
  have key : ∀ (l : List Nat) (top : Int) (t : State),
      ∃ m d n, l.foldl (fun (t : State) (i : Nat) => stripeRow (top + (i : Int)) t) t =
        { t with
          surf := m, dc := d, draws := n,
          requests := t.requests ++ l.flatMap fun (i : Nat) => stripeRequests t.cfg (top + (i : Int)) } := by
    intro l top
    induction l with
    | nil => intro t; exact ⟨t.surf, t.dc, t.draws, by simp⟩
    | cons a l ih =>
      intro t
      obtain ⟨m, d, n, hp⟩ := ih (stripeRow (top + (a : Int)) t)
      exact ⟨m, d, n, by rw [List.foldl_cons, hp, stripeRow_eq]; simp [stripeRequests]⟩
  exact key _ _ _

/-- UPDATE in phase RUNNING, for every parameter set: it is done, and leaves MASK, the working registers, the constants
and the ports as they were (R153, R156). -/
theorem update_frame {s : State} (h : s.phase = .running) :
    ∃ p m n, update s =
      .done { s with
        pal := p, surf := m, draws := n, dc := s.cfg.compositeDc, seq := .idle,
        clock := advancedClock s.cfg s.clock,
        requests := s.requests ++
          (((List.range s.cfg.ncc).map fun i =>
              .setpal (paletteSlot s.cfg s.clock i) (paletteColour s.cfg s.clock i)) ++
            ((List.range s.cfg.windowHeight).flatMap fun (i : Nat) =>
              stripeRequests s.cfg (s.clock + (i : Int))) ++
            [.setdc s.cfg.compositeDc,
              .blit1 (compositeX s.cfg) (compositeY s.cfg) s.cfg.maskW s.cfg.maskH]) } := by
  rw [update_running h]
  obtain ⟨p, hp⟩ := palupd_frame (s.setSeq .uPalupd)
  rw [hp]
  simp only [State.setSeq]
  obtain ⟨m, d, n, hs⟩ := stripes_frame { s with
    seq := .uStripes, pal := p,
    requests := s.requests ++ (List.range s.cfg.ncc).map fun i =>
      .setpal (paletteSlot s.cfg s.clock i) (paletteColour s.cfg s.clock i) }
  rw [hs, composite_eq]
  simp only [Result.done_andThen, advance, State.setClock, List.append_assoc]
  exact ⟨p, _, _, rfl⟩

end Sys2Proof.Machine
end

