-- ==== Sys2Proof/Laws/PerInstr.lean ====
section
/-! SUPPORT. Statements made one operation at a time: the word of each operation carries the opcode that R73's map gives
its mnemonic, and its row of the table spells it. -/

namespace Sys2Proof.Laws.EncodesItsOpcode

/-- The `OP` value of each operation (R73, opcode map). -/
def opcode : Instr → BitVec 8
  | .start => 0x01
  | .update => 0x02
  | .rd2 _ _ => 0x10
  | .rd1 _ _ => 0x11
  | .wr1 _ _ _ => 0x12
  | .gather _ _ => 0x18
  | .s3x => 0x19
  | .emit _ _ => 0x1A
  | .palupd => 0x20
  | .stripes => 0x21
  | .composite => 0x22
  | .advance => 0x23
  | .setpal _ _ => 0x40
  | .setdc _ => 0x41
  | .text _ _ => 0x42
  | .hline _ _ _ => 0x43
  | .blit1 _ _ _ _ => 0x44

/-- The word of the operation has the operation's opcode in its `OP` field. -/
def Statement (i : Instr) : Prop := opField (encode i) = opcode i

theorem start : Statement .start := opField_packWord _ _ _ _ _
theorem update : Statement .update := opField_packWord _ _ _ _ _
theorem rd2 (x y : Nat) : Statement (.rd2 x y) := opField_packWord _ _ _ _ _
theorem rd1 (x y : Nat) : Statement (.rd1 x y) := opField_packWord _ _ _ _ _
theorem wr1 (x y : Nat) (bit : Bool) : Statement (.wr1 x y bit) := opField_packWord _ _ _ _ _
theorem gather (x y : Nat) : Statement (.gather x y) := opField_packWord _ _ _ _ _
theorem s3x : Statement .s3x := opField_packWord _ _ _ _ _
theorem emit (x y : Nat) : Statement (.emit x y) := opField_packWord _ _ _ _ _
theorem palupd : Statement .palupd := opField_packWord _ _ _ _ _
theorem stripes : Statement .stripes := opField_packWord _ _ _ _ _
theorem composite : Statement .composite := opField_packWord _ _ _ _ _
theorem advance : Statement .advance := opField_packWord _ _ _ _ _
theorem setpal (slot : BitVec 2) (rgb : Colour) : Statement (.setpal slot rgb) := opField_packWord _ _ _ _ _
theorem setdc (value : DrawColour) : Statement (.setdc value) := opField_packWord _ _ _ _ _
theorem text (x y : Int) : Statement (.text x y) := opField_packWord _ _ _ _ _
theorem hline (x y : Int) (len : Nat) : Statement (.hline x y len) := opField_packWord _ _ _ _ _
theorem blit1 (x y : Int) (w h : Nat) : Statement (.blit1 x y w h) := opField_packWord _ _ _ _ _

end Sys2Proof.Laws.EncodesItsOpcode
end

