-- ==== Sys2Proof/Laws/Scale3x.lean ====
section
/-! SUPPORT. Scale3x never looks at the latch of an absent neighbour (R103, R106 (1), U3). -/

namespace Sys2Proof.Machine

theorem guardedEq_congr {nb nb' : Neighbourhood} {e : EdgeFlags} (h : ∀ u, pres e u = true → nb.get u = nb'.get u)
    (u v : Letter) : guardedEq nb e u v = guardedEq nb' e u v := by
  unfold guardedEq
  cases hu : pres e u
  · rfl
  · cases hv : pres e v
    · rfl
    · rw [h u hu, h v hv]

theorem guardedNe_congr {nb nb' : Neighbourhood} {e : EdgeFlags} (h : ∀ u, pres e u = true → nb.get u = nb'.get u)
    (u v : Letter) : guardedNe nb e u v = guardedNe nb' e u v := by
  unfold guardedNe; rw [guardedEq_congr h]

/-- EQ asks for presence first (R103). -/
theorem pres_of_guardedEq {nb : Neighbourhood} {e : EdgeFlags} {u v : Letter} (h : guardedEq nb e u v = true) :
    pres e u = true ∧ pres e v = true ∧ nb.get u = nb.get v := by
  unfold guardedEq at h; simpa using h

theorem guardedEq_comm (nb : Neighbourhood) (e : EdgeFlags) (u v : Letter) :
    guardedEq nb e u v = guardedEq nb e v u := by
  unfold guardedEq
  cases pres e u <;> cases pres e v <;> simp [eq_comm]

/-- The result depends on the latches of present neighbours alone. -/
theorem scale3x_congr {nb nb' : Neighbourhood} {e : EdgeFlags}
    (h : ∀ u, pres e u = true → nb.get u = nb'.get u) : scale3x nb e = scale3x nb' e := by
  have hE : nb.e = nb'.e := h .e rfl
  have hq := guardedEq_congr h
  have hn := guardedNe_congr h
  have k1 : cornerK1 nb e = cornerK1 nb' e := by unfold cornerK1; rw [hq, hn, hn]
  have k3 : cornerK3 nb e = cornerK3 nb' e := by unfold cornerK3; rw [hq, hn, hn]
  have k7 : cornerK7 nb e = cornerK7 nb' e := by unfold cornerK7; rw [hq, hn, hn]
  have k9 : cornerK9 nb e = cornerK9 nb' e := by unfold cornerK9; rw [hq, hn, hn]
  have h1 : cornerK1 nb' e = true → nb.d = nb'.d ∧ nb.b = nb'.b := by
    intro hk
    have := pres_of_guardedEq (nb := nb') (e := e) (u := .d) (v := .b) (by unfold cornerK1 at hk; simp at hk; exact hk.1)
    exact ⟨h .d this.1, h .b this.2.1⟩
  have h3 : cornerK3 nb' e = true → nb.f = nb'.f ∧ nb.b = nb'.b := by
    intro hk
    have := pres_of_guardedEq (nb := nb') (e := e) (u := .b) (v := .f) (by unfold cornerK3 at hk; simp at hk; exact hk.1)
    exact ⟨h .f this.2.1, h .b this.1⟩
  have h7 : cornerK7 nb' e = true → nb.d = nb'.d ∧ nb.h = nb'.h := by
    intro hk
    have := pres_of_guardedEq (nb := nb') (e := e) (u := .h) (v := .d) (by unfold cornerK7 at hk; simp at hk; exact hk.1)
    exact ⟨h .d this.2.1, h .h this.1⟩
  have h9 : cornerK9 nb' e = true → nb.f = nb'.f ∧ nb.h = nb'.h := by
    intro hk
    have := pres_of_guardedEq (nb := nb') (e := e) (u := .f) (v := .h) (by unfold cornerK9 at hk; simp at hk; exact hk.1)
    exact ⟨h .f this.1, h .h this.2.1⟩
  unfold scale3x
  simp only [k1, k3, k7, k9, hn, hE, OutputLatches.mk.injEq]
  refine ⟨?_, ?_, ?_, ?_, ?_, ?_, ?_, ?_, ?_⟩
  · split
    · rename_i hk; exact (h1 hk).1
    · rfl
  · split
    · rename_i hk
      simp only [Bool.or_eq_true, Bool.and_eq_true] at hk
      rcases hk with hk | hk
      · exact (h1 hk.1).2
      · exact (h3 hk.1).2
    · rfl
  · split
    · rename_i hk; exact (h3 hk).1
    · rfl
  · split
    · rename_i hk
      simp only [Bool.or_eq_true, Bool.and_eq_true] at hk
      rcases hk with hk | hk
      · exact (h7 hk.1).1
      · exact (h1 hk.1).1
    · rfl
  · trivial
  · split
    · rename_i hk
      simp only [Bool.or_eq_true, Bool.and_eq_true] at hk
      rcases hk with hk | hk
      · exact (h3 hk.1).1
      · exact (h9 hk.1).1
    · rfl
  · split
    · rename_i hk; exact (h7 hk).1
    · rfl
  · split
    · rename_i hk
      simp only [Bool.or_eq_true, Bool.and_eq_true] at hk
      rcases hk with hk | hk
      · exact (h9 hk.1).2
      · exact (h7 hk.1).2
    · rfl
  · split
    · rename_i hk; exact (h9 hk).1
    · rfl

end Sys2Proof.Machine
end

