-- ==== Sys2Proof/Laws/Prescaler.lean ====
section
/-! SUPPORT. GATHER, EMIT and START's scan: what each leaves in the latches and in the mask (R120, R121, R123, R127). -/

namespace Sys2Proof.Machine

/-! GATHER. -/

/-- A present neighbour of a pixel of the source grid lies on the source grid (R126). -/
theorem neighbourAt_lt {c : Config} {x y : Nat} (hx : x < c.srcW) (hy : y < c.srcH) {u : Letter}
    (hu : pres (edgeFlags c x y) u = true) :
    (neighbourAt u x y).1 < c.srcW ∧ (neighbourAt u x y).2 < c.srcH := by
  cases u <;> simp [pres, edgeFlags] at hu <;> simp only [neighbourAt] <;> omega

/-- The latches and `RES` after GATHER has read the letters of `us` (R120). -/
def gatherLatches (c : Config) (m : Memory) (e : EdgeFlags) (x y : Nat) (us : List Letter)
    (start : Neighbourhood × BitVec 2) : Neighbourhood × BitVec 2 :=
  us.foldl (fun p u =>
    if pres e u then
      (p.1.set u (surfPixel c m (neighbourAt u x y).1 (neighbourAt u x y).2),
        surfPixel c m (neighbourAt u x y).1 (neighbourAt u x y).2)
    else p) start

theorem runAll_gatherOne {x y : Nat} {us : List Letter} {s : State}
    (h : ∀ u ∈ us, pres s.edge u = true →
      (neighbourAt u x y).1 < s.cfg.screenW ∧ (neighbourAt u x y).2 < s.cfg.screenH) :
    runAll (gatherOne x y) us s =
      .done { s with nb := (gatherLatches s.cfg s.surf s.edge x y us (s.nb, s.res)).1,
                     res := (gatherLatches s.cfg s.surf s.edge x y us (s.nb, s.res)).2 } := by
  induction us generalizing s with
  | nil => rfl
  | cons u us ih =>
    simp only [runAll_cons, gatherOne]
    by_cases hu : pres s.edge u = true
    · obtain ⟨h1, h2⟩ := h u (by simp) hu
      rw [if_pos hu, rd2_of_range h1 h2]
      simp only [Result.done_andThen]
      rw [ih (by simpa using fun v hv => h v (by simp [hv]))]
      rw [gatherLatches, gatherLatches, List.foldl_cons, if_pos hu]
      rfl
    · rw [if_neg hu]
      simp only [Result.done_andThen]
      rw [ih (fun v hv => h v (by simp [hv]))]
      rw [gatherLatches, gatherLatches, List.foldl_cons, if_neg hu]

theorem gatherLatches_get (c : Config) (m : Memory) (e : EdgeFlags) (x y : Nat) (nb : Neighbourhood) (r : BitVec 2)
    (u : Letter) :
    (gatherLatches c m e x y gatherOrder (nb, r)).1.get u =
      if pres e u then surfPixel c m (neighbourAt u x y).1 (neighbourAt u x y).2 else nb.get u := by
  obtain ⟨l, r', t, b⟩ := e
  cases l <;> cases r' <;> cases t <;> cases b <;> cases u <;> rfl

theorem gatherLatches_res (c : Config) (m : Memory) (e : EdgeFlags) (x y : Nat) (nb : Neighbourhood) (r : BitVec 2) :
    (gatherLatches c m e x y gatherOrder (nb, r)).2 =
      surfPixel c m (neighbourAt (lastPresent e) x y).1 (neighbourAt (lastPresent e) x y).2 := by
  obtain ⟨l, r', t, b⟩ := e
  cases l <;> cases r' <;> cases t <;> cases b <;> rfl

/-- GATHER inside the source grid: the flags, the latches of the present neighbours and `RES`, nothing else (R120). -/
theorem gather_of_range {x y : Nat} {s : State} (hx : x < s.cfg.srcW) (hy : y < s.cfg.srcH)
    (hW : s.cfg.srcW ≤ s.cfg.screenW) (hH : s.cfg.srcH ≤ s.cfg.screenH) :
    gather x y s =
      .done { s with
        edge := edgeFlags s.cfg x y,
        nb := (gatherLatches s.cfg s.surf (edgeFlags s.cfg x y) x y gatherOrder (s.nb, s.res)).1,
        res := (gatherLatches s.cfg s.surf (edgeFlags s.cfg x y) x y gatherOrder (s.nb, s.res)).2 } := by
  unfold gather
  rw [if_pos ⟨hx, hy⟩, runAll_gatherOne]
  · rfl
  · intro u _ hu
    have := neighbourAt_lt (c := s.cfg) hx hy (u := u) (by simpa using hu)
    simp only [State.setEdge_cfg]
    omega

theorem gather_off_range {x y : Nat} {s : State} (h : ¬ (x < s.cfg.srcW ∧ y < s.cfg.srcH)) :
    gather x y s = halt .bpRange s := if_neg h

theorem neighbourhoodOf_get (c : Config) (m : Memory) (x y : Nat) (u : Letter) :
    (neighbourhoodOf c m x y).get u = surfPixel c m (neighbourAt u x y).1 (neighbourAt u x y).2 := by
  cases u <;> rfl

/-- What S3X makes of the gathered latches does not depend on what the latches held before (R38, R125). -/
theorem scale3x_gatherLatches (c : Config) (m : Memory) (e : EdgeFlags) (x y : Nat) (nb : Neighbourhood)
    (r : BitVec 2) :
    scale3x (gatherLatches c m e x y gatherOrder (nb, r)).1 e = scale3x (neighbourhoodOf c m x y) e := by
  apply scale3x_congr
  intro u hu
  rw [gatherLatches_get, if_pos hu, neighbourhoodOf_get]

/-! EMIT. -/

/-- The mask after the writes `ds` of EMIT (R121). -/
def emitMask (c : Config) (out : OutputLatches) (x y : Nat) (ds : List (Nat × Nat)) (m : Memory) : Memory :=
  ds.foldl (fun m d => maskPut c m (3 * x + d.1) (3 * y + d.2) (tobit c (out.get (1 + d.1 + 3 * d.2)))) m

theorem runAll_emitOne {x y : Nat} {ds : List (Nat × Nat)} {s : State}
    (h : ∀ d ∈ ds, 3 * x + d.1 < s.cfg.maskW ∧ 3 * y + d.2 < s.cfg.maskH) :
    runAll (emitOne x y) ds s = .done (s.setMask (emitMask s.cfg s.out x y ds s.mask)) := by
  induction ds generalizing s with
  | nil => rfl
  | cons d ds ih =>
    obtain ⟨h1, h2⟩ := h d (by simp)
    simp only [runAll_cons, emitOne]
    rw [wr1_of_range h1 h2]
    simp only [Result.done_andThen]
    rw [ih (by simpa using fun a b hv => h (a, b) (by simp [hv]))]
    rfl

theorem mem_emitOrder {d : Nat × Nat} : d ∈ emitOrder ↔ d.1 < 3 ∧ d.2 < 3 := by
  obtain ⟨a, b⟩ := d
  constructor
  · intro h
    simp [emitOrder] at h
    omega
  · rintro ⟨h1, h2⟩
    simp only at h1 h2
    interval_cases a <;> interval_cases b <;> simp [emitOrder]

/-- EMIT inside the source grid writes its block of the mask and nothing else (R121). -/
theorem emit_of_range {x y : Nat} {s : State} (hx : x < s.cfg.srcW) (hy : y < s.cfg.srcH) :
    emit x y s = .done (s.setMask (emitMask s.cfg s.out x y emitOrder s.mask)) := by
  unfold emit
  rw [if_pos ⟨hx, hy⟩, runAll_emitOne]
  intro d hd
  have := mem_emitOrder.mp hd
  unfold Config.maskW Config.maskH
  omega

theorem emit_off_range {x y : Nat} {s : State} (h : ¬ (x < s.cfg.srcW ∧ y < s.cfg.srcH)) :
    emit x y s = halt .bpRange s := if_neg h

theorem emitMask_wf {c : Config} {out : OutputLatches} {x y : Nat} (ds : List (Nat × Nat)) {m : Memory} (hm : m.wf) :
    (emitMask c out x y ds m).wf := by
  induction ds generalizing m with
  | nil => exact hm
  | cons d ds ih => exact ih (maskPut_wf hm _ _ _)

theorem emitMask_within {c : Config} {out : OutputLatches} {x y : Nat} {ds : List (Nat × Nat)} {m : Memory}
    (h : ∀ d ∈ ds, 3 * x + d.1 < c.maskW ∧ 3 * y + d.2 < c.maskH) (hm : m.within c.maskBytes) :
    (emitMask c out x y ds m).within c.maskBytes := by
  induction ds generalizing m with
  | nil => exact hm
  | cons d ds ih =>
    obtain ⟨h1, h2⟩ := h d (by simp)
    exact ih (fun e he => h e (by simp [he])) (maskPut_within hm h1 h2 _)

theorem maskBit_emitMask_none {c : Config} {out : OutputLatches} {x y u v : Nat} {ds : List (Nat × Nat)} {m : Memory}
    (hm : m.wf) (hds : ∀ d ∈ ds, 3 * x + d.1 < c.maskW) (hu : u < c.maskW)
    (h : ∀ d ∈ ds, ¬ (u = 3 * x + d.1 ∧ v = 3 * y + d.2)) :
    maskBit c (emitMask c out x y ds m) u v = maskBit c m u v := by
  induction ds generalizing m with
  | nil => rfl
  | cons d ds ih =>
    rw [emitMask, List.foldl_cons, ← emitMask,
      ih (maskPut_wf hm _ _ _) (fun e he => hds e (by simp [he])) (fun e he => h e (by simp [he])),
      maskBit_maskPut hm (hds d (by simp)) hu, if_neg (h d (by simp))]

/-- What EMIT leaves in each pixel of the mask: its nine outputs' bits in its block, the rest as it was (R121, R122). -/
theorem maskBit_emitMask {c : Config} {out : OutputLatches} {x y u v : Nat} {m : Memory} (hm : m.wf)
    (hx : x < c.srcW) (hu : u < c.maskW) :
    maskBit c (emitMask c out x y emitOrder m) u v =
      if u / 3 = x ∧ v / 3 = y then tobit c (out.get (1 + u % 3 + 3 * (v % 3))) else maskBit c m u v := by
  have key : ∀ (ds : List (Nat × Nat)) (m : Memory), m.wf → (∀ d ∈ ds, d.1 < 3 ∧ d.2 < 3) →
      maskBit c (emitMask c out x y ds m) u v =
        if (u - 3 * x, v - 3 * y) ∈ ds ∧ 3 * x ≤ u ∧ 3 * y ≤ v then tobit c (out.get (1 + u % 3 + 3 * (v % 3)))
        else maskBit c m u v := by
    intro ds
    induction ds with
    | nil => intro m _ _; simp [emitMask]
    | cons d ds ih =>
      intro m hm hds
      have hd := hds d (by simp)
      have hlt : 3 * x + d.1 < c.maskW := by unfold Config.maskW; omega
      rw [emitMask, List.foldl_cons, ← emitMask, ih _ (maskPut_wf hm _ _ _) (fun e he => hds e (by simp [he])),
        maskBit_maskPut hm hlt hu]
      by_cases h1 : (u - 3 * x, v - 3 * y) ∈ ds ∧ 3 * x ≤ u ∧ 3 * y ≤ v
      · rw [if_pos h1, if_pos ⟨by simp [h1.1], h1.2⟩]
      · rw [if_neg h1]
        by_cases h2 : u = 3 * x + d.1 ∧ v = 3 * y + d.2
        · rw [if_pos h2, if_pos]
          · obtain ⟨rfl, rfl⟩ := h2
            congr 2; omega
          · obtain ⟨rfl, rfl⟩ := h2
            refine ⟨?_, by omega, by omega⟩
            simp
        · rw [if_neg h2, if_neg]
          rintro ⟨hmem, hux, hvy⟩
          rcases List.mem_cons.mp hmem with he | he
          · have e1 : u - 3 * x = d.1 := congrArg Prod.fst he
            have e2 : v - 3 * y = d.2 := congrArg Prod.snd he
            exact h2 ⟨by omega, by omega⟩
          · exact h1 ⟨he, hux, hvy⟩
  rw [key emitOrder m hm (fun d hd => mem_emitOrder.mp hd)]
  by_cases h : u / 3 = x ∧ v / 3 = y
  · rw [if_pos h, if_pos]
    rw [mem_emitOrder]
    simp only
    omega
  · rw [if_neg h, if_neg]
    rintro ⟨hmem, h1, h2⟩
    have := mem_emitOrder.mp hmem
    simp only at this
    omega

/-- EMIT changes no byte but those its nine pixels lie in (R121). -/
theorem emitMask_read_other {c : Config} {out : OutputLatches} {x y k : Nat} {ds : List (Nat × Nat)} {m : Memory}
    (hm : m.wf) (h : ∀ d ∈ ds, k ≠ byteOf1 (pixelOffset c.maskW (3 * x + d.1) (3 * y + d.2))) :
    (emitMask c out x y ds m).read k = m.read k := by
  induction ds generalizing m with
  | nil => rfl
  | cons d ds ih =>
    rw [emitMask, List.foldl_cons, ← emitMask, ih (maskPut_wf hm _ _ _) (fun e he => h e (by simp [he])),
      maskPut_read_other hm _ (h d (by simp))]

/-! START. -/

theorem mem_scanOrder {c : Config} {p : Nat × Nat} : p ∈ scanOrder c ↔ p.1 < c.srcW ∧ p.2 < c.srcH := by
  obtain ⟨x, y⟩ := p
  simp only [scanOrder, List.mem_flatMap, List.mem_map, List.mem_range]
  constructor
  · rintro ⟨y', hy, x', hx, he⟩
    cases he
    exact ⟨hx, hy⟩
  · rintro ⟨hx, hy⟩
    exact ⟨y, hy, x, hx, rfl⟩

/-- What START's loop may change: the counters, SEQ, the working registers and the mask (R123). -/
abbrev SameButScan (s t : State) : Prop :=
  t = { s with x := t.x, y := t.y, seq := t.seq, nb := t.nb, edge := t.edge, out := t.out, res := t.res,
               mask := t.mask }

/-- One source pixel of START's loop. -/
theorem scanPixel_of_range {p : Nat × Nat} {s : State} (hx : p.1 < s.cfg.srcW) (hy : p.2 < s.cfg.srcH)
    (hW : s.cfg.srcW ≤ s.cfg.screenW) (hH : s.cfg.srcH ≤ s.cfg.screenH) :
    ∃ t, scanPixel p s = .done t ∧ SameButScan s t ∧ t.seq = .sEmit ∧ t.x = BitVec.ofNat 16 p.1 ∧
      t.y = BitVec.ofNat 16 p.2 ∧
      t.mask = emitMask s.cfg (scale3x (neighbourhoodOf s.cfg s.surf p.1 p.2) (edgeFlags s.cfg p.1 p.2)) p.1 p.2
        emitOrder s.mask := by
  unfold scanPixel
  rw [gather_of_range (by simpa using hx) (by simpa using hy) (by simpa using hW) (by simpa using hH)]
  simp only [Result.done_andThen]
  rw [emit_of_range (by simpa [s3x] using hx) (by simpa [s3x] using hy)]
  refine ⟨_, rfl, rfl, rfl, rfl, rfl, ?_⟩
  simp only [s3x, State.setMask_mask, State.setSeq_mask, State.setOut_mask, State.setSeq_cfg, State.setOut_cfg,
    State.setCounters_cfg, State.setSeq_out, State.setOut_out, State.setSeq_nb, State.setSeq_edge,
    State.setSeq_surf, State.setCounters_surf]
  rw [scale3x_gatherLatches]
  rfl

/-- START's loop over any list of source pixels: it is done; the mask pixels of their blocks are those of R127, the
other mask pixels keep their value. -/
theorem runAll_scanPixel {ps : List (Nat × Nat)} {s : State} (hps : ∀ p ∈ ps, p.1 < s.cfg.srcW ∧ p.2 < s.cfg.srcH)
    (hW : s.cfg.srcW ≤ s.cfg.screenW) (hH : s.cfg.srcH ≤ s.cfg.screenH) (hwf : s.mask.wf)
    (hin : s.mask.within s.cfg.maskBytes) :
    ∃ t, runAll scanPixel ps s = .done t ∧ SameButScan s t ∧ t.mask.wf ∧ t.mask.within s.cfg.maskBytes ∧
      ∀ u v, u < s.cfg.maskW →
        maskBit s.cfg t.mask u v =
          if (u / 3, v / 3) ∈ ps then maskPixelFrom s.cfg s.surf u v else maskBit s.cfg s.mask u v := by
  induction ps generalizing s with
  | nil => exact ⟨s, rfl, rfl, hwf, hin, by simp⟩
  | cons p ps ih =>
    obtain ⟨hx, hy⟩ := hps p (by simp)
    obtain ⟨a, ha, hsame, -, -, -, hmask⟩ := scanPixel_of_range (s := s) hx hy hW hH
    have hcfg : a.cfg = s.cfg := by rw [hsame]
    have hsurf : a.surf = s.surf := by rw [hsame]
    have hawf : a.mask.wf := by rw [hmask]; exact emitMask_wf _ hwf
    have hain : a.mask.within s.cfg.maskBytes := by
      rw [hmask]
      refine emitMask_within (fun d hd => ?_) hin
      have := mem_emitOrder.mp hd
      unfold Config.maskW Config.maskH
      omega
    obtain ⟨t, ht, hsame', hwf', hin', hbits⟩ := ih (s := a) (by rw [hcfg]; exact fun q hq => hps q (by simp [hq]))
      (by rw [hcfg]; exact hW) (by rw [hcfg]; exact hH) hawf (by rw [hcfg]; exact hain)
    refine ⟨t, by simp [ha, ht], ?_, hwf', by rw [← hcfg]; exact hin', ?_⟩
    · rw [hsame', hsame]
    · intro u v hu
      have h1 := hbits u v (by rw [hcfg]; exact hu)
      rw [hcfg, hsurf] at h1
      rw [h1, hmask]
      by_cases hm : (u / 3, v / 3) ∈ ps
      · rw [if_pos hm, if_pos (by simp [hm])]
      · rw [if_neg hm, maskBit_emitMask hwf hx hu]
        by_cases hp : u / 3 = p.1 ∧ v / 3 = p.2
        · rw [if_pos hp, if_pos (by rw [hp.1, hp.2]; simp)]
          unfold maskPixelFrom
          rw [hp.1, hp.2]
        · rw [if_neg hp, if_neg]
          rintro hmem
          rcases List.mem_cons.mp hmem with he | he
          · exact hp ⟨congrArg Prod.fst he, congrArg Prod.snd he⟩
          · exact hm he

end Sys2Proof.Machine
end

