-- ==== Sys2Proof/Laws/Step.lean ====
section
/-! SUPPORT. What a step can do, said once (R24, R70, R192, R194, R221). -/

namespace Sys2Proof.Machine

theorem fetch_of_ok {s : State} (h : s.cfg.Ok) :
    fetch s =
      match hookOperation s with
      | some i => .operation .sequencer i s
      | none =>
        match s.inputs with
        | [] => .silent s
        | e :: rest => takeEvent e (s.setInputs rest) := if_pos h

theorem step_of_bad_parameters {s : State} (h : ¬ s.cfg.Ok) : step s = .refused .badParameters := by
  have : fetch s = .refuse .badParameters := if_neg h
  unfold step; rw [this]

theorem hookOperation_eq_none {s : State} : hookOperation s = none ↔ s.BetweenHooks := by
  unfold hookOperation State.BetweenHooks seqOperation
  by_cases h : s.phase = .halted
  · simp [h]
  · rw [if_neg h]; cases s.seq <;> simp [h]

/-- A hook in progress: the step performs the operation of its position (R24). -/
theorem step_in_hook {s : State} {i : Instr} (h : s.cfg.Ok) (hp : s.phase ≠ .halted) (hi : seqOperation s = some i) :
    step s = retire .sequencer (exec i s) := by
  unfold step
  rw [fetch_of_ok h]
  simp [hookOperation, hp, hi]

/-- Between hooks with nothing presented the block waits (R221). -/
theorem step_idle {s : State} (h : s.cfg.Ok) (hb : s.BetweenHooks) (hi : s.inputs = []) : step s = .next s := by
  unfold step
  rw [fetch_of_ok h, hookOperation_eq_none.mpr hb, hi]

/-- Between hooks the oldest host event says what there is to do. -/
theorem fetch_event {s : State} {e : HostEvent} {rest : List HostEvent} (h : s.cfg.Ok) (hb : s.BetweenHooks)
    (hi : s.inputs = e :: rest) : fetch s = takeEvent e (s.setInputs rest) := by
  rw [fetch_of_ok h, hookOperation_eq_none.mpr hb, hi]

/-- Between hooks the step takes the oldest host event. -/
theorem step_event {s : State} {e : HostEvent} {rest : List HostEvent} (h : s.cfg.Ok) (hb : s.BetweenHooks)
    (hi : s.inputs = e :: rest) :
    step s =
      match takeEvent e (s.setInputs rest) with
      | .operation src i s' => retire src (exec i s')
      | .silent s' => .next s'
      | .illegal why s' => (halt why s').outcome
      | .refuse r => .refused r := by
  have hf := fetch_event h hb hi
  generalize takeEvent e (s.setInputs rest) = f at hf
  cases f <;> simp only [step, hf]

/-- Every way a step answers a next state. -/
theorem step_cases {s t : State} (h : step s = .next t) :
    s.cfg.Ok ∧
      ((∃ i a, seqOperation s = some i ∧ s.phase ≠ .halted ∧ exec i s = .next a ∧ t = afterOperation .sequencer a) ∨
       (s.BetweenHooks ∧ s.inputs = [] ∧ t = s) ∨
       (s.BetweenHooks ∧ ∃ e rest, s.inputs = e :: rest ∧
         ((∃ src i s' a, takeEvent e (s.setInputs rest) = .operation src i s' ∧ exec i s' = .next a ∧
             t = afterOperation src a) ∨
          takeEvent e (s.setInputs rest) = .silent t ∨
          ∃ why s', takeEvent e (s.setInputs rest) = .illegal why s' ∧ t = s'.setPhase .halted))) := by
  by_cases hok : s.cfg.Ok
  · refine ⟨hok, ?_⟩
    by_cases hb : s.BetweenHooks
    · cases hin : s.inputs with
      | nil =>
        rw [step_idle hok hb hin] at h
        cases h
        exact .inr (.inl ⟨hb, rfl, rfl⟩)
      | cons e rest =>
        rw [step_event hok hb hin] at h
        refine .inr (.inr ⟨hb, e, rest, rfl, ?_⟩)
        split at h
        · rename_i src i s' he
          cases hx : exec i s' with
          | next a => rw [hx] at h; cases h; exact .inl ⟨src, i, s', a, he, hx, rfl⟩
          | fault r => cases r
          | refused r => rw [hx] at h; cases h
        · rename_i s' he; cases h; exact .inr (.inl he)
        · rename_i why s' he; cases h; exact .inr (.inr ⟨why, s', he, rfl⟩)
        · cases h
    · have hne : hookOperation s ≠ none := fun e => hb (hookOperation_eq_none.mp e)
      have hp : s.phase ≠ .halted := fun e => hb (.inr e)
      have hso : hookOperation s = seqOperation s := if_neg hp
      obtain ⟨i, hi⟩ := Option.ne_none_iff_exists'.mp hne
      rw [hso] at hi
      rw [step_in_hook hok hp hi] at h
      cases hx : exec i s with
      | next a => rw [hx] at h; cases h; exact .inl ⟨i, a, hi, hp, hx, rfl⟩
      | fault r => cases r
      | refused r => rw [hx] at h; cases h
  · rw [step_of_bad_parameters hok] at h; cases h

/-- An issued operation's step is its meaning, nothing more. -/
@[simp] theorem retire_issued (o : Host.Outcome State Fault Refusal) : retire .issued o = o := by
  cases o with
  | next s => simp [retire, afterOperation]
  | fault r => rfl
  | refused r => rfl

end Sys2Proof.Machine
end

