-- ==== Sys2Proof/Tests/Slice0.lean ====
section
/-! SUPPORT. Tests: the refused terms of the well-formedness check, words written out from the encoding tables, one-step
tests whose expected results are the vectors of 95_test_vectors.md, and a state that meets the hypotheses of each
statement that has some. -/

namespace Sys2Proof.Tests

open Sys2Proof Sys2Proof.Machine

/- One theorem at a time: each small `decide` would otherwise hold a thread of its own. -/
set_option Elab.async false

/-! Helpers: states and what to look at. -/

/-- The state after reset, RUNNING. -/
def running : State := { State.reset with phase := .running }

/-- The state after reset, HALTED. -/
def haltedBlock : State := { State.reset with phase := .halted }

/-- A state with the neighbourhood `abc/def/ghi` and the flags `LRTB` of the V-S3X table; an absent latch holds 0. -/
def withNeighbours (nb : Neighbourhood) (e : EdgeFlags) : State := { State.reset with nb := nb, edge := e }

/-- Whether an outcome is a next state with the property. -/
def holdsNext (o : Host.Outcome State Fault Refusal) (p : State → Bool) : Bool :=
  match o with
  | .next t => p t
  | _ => false

/-- Whether an outcome is the refusal. -/
def isRefused (o : Host.Outcome State Fault Refusal) (r : Refusal) : Bool :=
  match o with
  | .refused r' => r' == r
  | _ => false

/-- Whether a word is refused by the decoder, and why. -/
def refusedAs (w : Word) (e : DecodeError) : Bool :=
  match decode w with
  | .ok _ => false
  | .error e' => e' == e

/-! WellFormed: an ill-formed term for each check, refused. -/

theorem test_wf_x_too_wide : (Instr.rd2 65536 0).wellFormed = false := by decide
theorem test_wf_y_too_wide : (Instr.rd1 0 65536).wellFormed = false := by decide
theorem test_wf_wr1_x : (Instr.wr1 65536 0 true).wellFormed = false := by decide
theorem test_wf_gather_y : (Instr.gather 0 65536).wellFormed = false := by decide
theorem test_wf_emit_x : (Instr.emit 65536 0).wellFormed = false := by decide
theorem test_wf_text_x_low : (Instr.text (-32769) 0).wellFormed = false := by decide
theorem test_wf_text_y_high : (Instr.text 0 32768).wellFormed = false := by decide
theorem test_wf_hline_x : (Instr.hline 32768 0 1).wellFormed = false := by decide
theorem test_wf_hline_y : (Instr.hline 0 (-32769) 1).wellFormed = false := by decide
theorem test_wf_hline_len : (Instr.hline 0 0 65536).wellFormed = false := by decide
theorem test_wf_blit_x : (Instr.blit1 32768 0 1 1).wellFormed = false := by decide
theorem test_wf_blit_y : (Instr.blit1 0 (-32769) 1 1).wellFormed = false := by decide
theorem test_wf_blit_w : (Instr.blit1 0 0 65536 1).wellFormed = false := by decide
theorem test_wf_blit_h : (Instr.blit1 0 0 1 256).wellFormed = false := by decide
theorem test_wf_bounds_admitted :
    (Instr.blit1 (-32768) 32767 65535 255).wellFormed = true ∧ (Instr.wr1 65535 65535 true).wellFormed = true := by
  decide

/-! Decode: the worked words of R79, field by field from R72 to R74, and the words of R75. -/

theorem test_decode_start : decode 0x0100000000000000 = .ok .start := by decide +kernel
theorem test_decode_update : decode 0x0200000000000000 = .ok .update := by decide +kernel
theorem test_decode_rd2 : decode 0x1000000000030005 = .ok (.rd2 5 3) := by decide +kernel
theorem test_decode_rd1 : decode 0x1100000000170017 = .ok (.rd1 23 23) := by decide +kernel
theorem test_decode_wr1 : decode 0x120100000002000A = .ok (.wr1 10 2 true) := by decide +kernel
theorem test_decode_gather : decode 0x1800000000000001 = .ok (.gather 1 0) := by decide +kernel
theorem test_decode_s3x : decode 0x1900000000000000 = .ok .s3x := by decide +kernel
theorem test_decode_emit : decode 0x1A00000000070007 = .ok (.emit 7 7) := by decide +kernel
theorem test_decode_palupd : decode 0x2000000000000000 = .ok .palupd := by decide +kernel
theorem test_decode_stripes : decode 0x2100000000000000 = .ok .stripes := by decide +kernel
theorem test_decode_composite : decode 0x2200000000000000 = .ok .composite := by decide +kernel
theorem test_decode_advance : decode 0x2300000000000000 = .ok .advance := by decide +kernel
theorem test_decode_setpal : decode 0x4002000000123456 = .ok (.setpal 2 0x123456) := by decide +kernel
theorem test_decode_setdc : decode 0x4100000000000010 = .ok (.setdc 0x0010) := by decide +kernel
theorem test_decode_text : decode 0x4200000000000000 = .ok (.text 0 0) := by decide +kernel
theorem test_decode_hline : decode 0x430000A0FFF10000 = .ok (.hline 0 (-15) 160) := by decide +kernel
theorem test_decode_blit1 : decode 0x4418001800440044 = .ok (.blit1 68 68 24 24) := by decide +kernel

/-- The widest operands of R75's vectors. -/
theorem test_decode_all_ones :
    decode 0x4300FFFFFFFFFFFF = .ok (.hline (-1) (-1) 65535) ∧
      decode 0x44FFFFFFFFFFFFFF = .ok (.blit1 (-1) (-1) 65535 255) := by decide +kernel

/-- The words of 95_test_vectors.md that spell nothing. -/
theorem test_decode_refuses :
    refusedAs 0x0000000000000000 .unassignedOpcode ∧ refusedAs 0xFF00000000000000 .unassignedOpcode ∧
      refusedAs 0x0100000000000001 .unusedBitSet ∧ refusedAs 0x4004000000000000 .unusedBitSet ∧
      refusedAs 0x1202000000000000 .unusedBitSet ∧ refusedAs 0x4101000000000002 .unusedBitSet ∧
      refusedAs 0x43FFFFFFFFFFFFFF .unusedBitSet := by decide +kernel

/-- The encoder writes the same words (R79). -/
theorem test_encode_worked :
    encode (.wr1 10 2 true) = 0x120100000002000A ∧ encode (.setpal 2 0x123456) = 0x4002000000123456 ∧
      encode (.hline 0 (-15) 160) = 0x430000A0FFF10000 ∧ encode (.blit1 68 68 24 24) = 0x4418001800440044 := by
  decide +kernel

/-- No word is spelled by two rows of the opcode table (R73). -/
theorem test_rows_never_overlap :
    opTable.Pairwise (fun r q => r.fixed &&& q.mask &&& r.mask ≠ q.fixed &&& r.mask &&& q.mask) := by decide +kernel

/-! BitPlane: V-BP. -/

/-- V-BP-6: the second row starts at byte 40; V-BP-4: the highest pixel of a byte. -/
theorem test_rd2_packing :
    holdsNext (exec (.rd2 1 1) { State.reset with surf := [(40, 0x04)] }) (fun t => t.res == 1) ∧
      holdsNext (exec (.rd2 3 0) { State.reset with surf := [(0, 0xE4)] }) (fun t => t.res == 3) := by decide +kernel

/-- V-BP-8: the check is on each coordinate. -/
theorem test_rd2_off_surface : holdsNext (exec (.rd2 160 0) State.reset) (fun t => t.phase == .halted) := by
  decide +kernel

/-- V-BP-15, the reads. -/
theorem test_rd1_packing :
    holdsNext (exec (.rd1 10 2) { State.reset with mask := [(7, 0xDF)] }) (fun t => t.res == 0) ∧
      holdsNext (exec (.rd1 11 2) { State.reset with mask := [(7, 0xDF)] }) (fun t => t.res == 1) := by decide +kernel

/-- V-BP-17. -/
theorem test_rd1_off_mask : holdsNext (exec (.rd1 24 23) State.reset) (fun t => t.phase == .halted) := by
  decide +kernel

/-- V-BP-13 and V-BP-15. -/
theorem test_wr1_one_bit :
    holdsNext (exec (.wr1 0 1 true) { State.reset with mask := [(3, 0x5A)] }) (fun t => t.mask.read 3 == 0xDA) ∧
      holdsNext (exec (.wr1 10 2 false) { State.reset with mask := [(7, 0xFF)] }) (fun t => t.mask.read 7 == 0xDF) := by
  decide +kernel

/-- V-BP-17: a coordinate whose offset is inside the buffer but which is off the mask. -/
theorem test_wr1_off_mask :
    holdsNext (exec (.wr1 24 0 true) State.reset) (fun t => t.phase == .halted && t.mask == []) := by decide +kernel

/-! Scale3x: V-S3X-18 and V-S3X-B7. -/

theorem test_s3x_four_values :
    holdsNext (exec .s3x (withNeighbours ⟨1, 2, 0, 2, 1, 3, 3, 3, 0⟩ ⟨true, true, true, true⟩))
      (fun t => t.out == ⟨2, 2, 1, 2, 1, 3, 1, 3, 3⟩) := by decide +kernel

theorem test_s3x_top_edge :
    holdsNext (exec .s3x (withNeighbours ⟨0, 0, 0, 1, 0, 0, 0, 1, 0⟩ ⟨true, true, false, true⟩))
      (fun t => t.out == ⟨0, 0, 0, 1, 0, 0, 1, 0, 0⟩) := by decide +kernel

/-! GlyphPrescaler. -/

/-- The surface after TEXT in program P1. -/
def p1Surface : Memory :=
  [(0, 0x01), (40, 0x04), (80, 0x10), (120, 0x40), (121, 0x01), (160, 0x40), (161, 0x01), (201, 0x04), (241, 0x10),
    (281, 0x40)]

/-- V-GE-4: GATHER 7, 7 loads a, b, d, e and leaves the absent latches. -/
theorem test_gather_corner :
    holdsNext (exec (.gather 7 7) { State.reset with surf := p1Surface, nb := ⟨3, 3, 3, 3, 3, 3, 3, 3, 3⟩ })
      (fun t => t.edge == ⟨true, false, true, false⟩ && t.nb == ⟨1, 0, 3, 0, 1, 3, 3, 3, 3⟩) := by decide +kernel

/-- V-GE-6: the grid is 8 by 8 though the surface is larger. -/
theorem test_gather_off_grid : holdsNext (exec (.gather 8 0) State.reset) (fun t => t.phase == .halted) := by
  decide +kernel

/-- V-GE-9. -/
theorem test_emit_last_block :
    holdsNext (exec (.emit 7 7) { State.reset with out := ⟨0, 0, 1, 0, 1, 1, 1, 1, 1⟩ })
      (fun t => t.mask == [(65, 0x01), (68, 0x03), (71, 0x07)]) := by decide +kernel

/-- V-GE-8: every PixelValue but the background is a 1. -/
theorem test_emit_tobit :
    holdsNext (exec (.emit 0 0) { State.reset with out := ⟨2, 2, 1, 2, 1, 3, 1, 3, 3⟩ })
      (fun t => t.mask == [(0, 0xE0), (3, 0xE0), (6, 0xE0)]) := by decide +kernel

/-- P1: START after reset: the mask's bytes of rows 0 to 3 and 23, the surface, the requests. -/
theorem test_start_p1 :
    holdsNext (exec .start State.reset) (fun t =>
      t.phase == .running && t.surf == p1Surface &&
        t.requests == [.setpal 0 0x000000, .setdc 0x0002, .text 0 0] &&
        [0, 1, 3, 6, 9, 69, 70, 71].map t.mask.read == [0xE0, 0x00, 0xD0, 0x90, 0x7C, 0x00, 0x00, 0x07]) := by
  decide +kernel

/-- V-FLT-2. -/
theorem test_start_twice :
    holdsNext (exec .start { running with clock := 8 }) (fun t => t.phase == .halted && t.clock == 8) := by
  decide +kernel

/-! AnimationEngine. -/

/-- V-PAL, CLOCK = -15: flooring division. -/
theorem test_palupd_negative_clock :
    holdsNext (exec .palupd { running with clock := -15 })
      (fun t => t.requests == [.setpal 2 0xC00005, .setpal 3 0xC00006, .setpal 1 0xC00000]) := by decide +kernel

/-- V-PAL, CLOCK = 24: the colours differ from those at CLOCK = 0 (C1). -/
theorem test_palupd_24 :
    holdsNext (exec .palupd { running with clock := 24 })
      (fun t => t.pal == ⟨0, 0xC00003, 0xC00004, 0xC00005⟩) := by decide +kernel

/-- V-STR, CLOCK = -15: one row reaches the surface; P4's last lines. -/
theorem test_stripes_negative_clock :
    holdsNext (exec .stripes { running with clock := -15 })
      (fun t => t.surf.read 0 == 0x55 && t.surf.read 39 == 0x55 && t.surf.read 40 == 0 && t.dc == 2 &&
        t.requests.take 2 == [.setdc 3, .hline 0 (-15) 160]) := by decide +kernel

/-- V-PRIM-8: the blit cuts 0 into three pixels and leaves the fourth. -/
theorem test_composite_cuts :
    holdsNext (exec .composite { running with mask := [(0, 0xE0)], surf := [(2737, 0xAA)] })
      (fun t => t.surf == [(2737, 0x80)] && t.requests == [.setdc 0x0010, .blit1 68 68 24 24]) := by decide +kernel

/-- V-ADV: the step that wraps and loses its excess, and the same with a clock of 9 bits (D8). -/
theorem test_advance_wraps :
    holdsNext (exec .advance { running with clock := 157 }) (fun t => t.clock == -15) ∧
      holdsNext (exec .advance { running with cfg := { Config.atReset with clockBits := 9 }, clock := 157 })
        (fun t => t.clock == -15) := by decide +kernel

/-- V-ADV: a negative clock. -/
theorem test_advance_negative :
    holdsNext (exec .advance { running with clock := -3 }) (fun t => t.clock == 1) := by
  decide +kernel

/-- V-FLT-1. -/
theorem test_update_before_start :
    holdsNext (exec .update State.reset) (fun t => t.phase == .halted && t.requests == [] && t.clock == 0) := by
  decide +kernel

/-! The primitives: V-PRIM. -/

theorem test_setpal_entry :
    holdsNext (exec (.setpal 3 0xFFFFFF) State.reset) (fun t => t.pal == ⟨0, 0, 0, 0xFFFFFF⟩) := by decide +kernel

theorem test_setdc_value : holdsNext (exec (.setdc 0x0003) { running with dc := 0x0010 }) (fun t => t.dc == 3) := by
  decide +kernel

/-- V-PRIM-10's rule on the diagonal glyph of P1. -/
theorem test_text_foreground :
    holdsNext (exec (.text 0 0) { State.reset with dc := 0x0002 }) (fun t => t.surf == p1Surface) := by decide +kernel

/-- V-PRIM-6 and V-PRIM-7: no wrap to another row. -/
theorem test_hline_clips :
    holdsNext (exec (.hline (-2) 0 4) { State.reset with dc := 0x0002 }) (fun t => t.surf == [(0, 0x05)]) ∧
      holdsNext (exec (.hline 158 0 4) { State.reset with dc := 0x0002 }) (fun t => t.surf == [(39, 0x50)]) := by
  decide +kernel

/-- V-DC, 0x0021: mask bit 0 draws 0, mask bit 1 draws 1. -/
theorem test_blit1_two_colours :
    holdsNext (exec (.blit1 0 0 4 1) { State.reset with dc := 0x0021, mask := [(0, 0x60)], surf := [(0, 0xFF)] })
      (fun t => t.surf == [(0, 0x14)]) := by decide +kernel

/-- U7. -/
theorem test_blit1_too_large : isRefused (exec (.blit1 (-1) (-1) 65535 255) State.reset) .blitBeyondMask := by
  decide +kernel

/-! The command port: V-FLT. -/

/-- V-FLT-3 and V-FLT-6, through `step`. -/
theorem test_illegal_commands :
    holdsNext (step { State.reset with inputs := [.command 0x0000000000000000] }) (fun t => t.phase == .halted) ∧
      holdsNext (step { running with inputs := [.command 0x4100000000000002] })
        (fun t => t.phase == .halted && t.dc == 0) := by decide +kernel

/-- R123, R153: START is not run off the command port; a class U operation is, on its own (R191). -/
theorem test_issue_takes_no_command :
    isRefused (step { State.reset with inputs := [.issue 0x0100000000000000] }) .issuedCommand ∧
      isRefused (step { running with inputs := [.issue 0x0200000000000000] }) .issuedCommand ∧
      holdsNext (step { State.reset with inputs := [.issue 0x1000000000000000] }) (fun t => t.phase == .unstarted) := by
  decide +kernel

/-- V-FLT-9. -/
theorem test_reset_leaves_halted :
    holdsNext (step { haltedBlock with clock := 9, inputs := [.reset] })
      (fun t => t.phase == .unstarted && t.clock == 0) := by decide +kernel

/-! A state and operands that meet the hypotheses of each statement that has some, at boundary values. -/

/-- A state in the middle of a run: RUNNING, the clock at its lowest value, a mask and a surface that hold something. -/
def midRun : State :=
  { running with clock := -15, mask := [(0, 0xE0), (71, 0x07)], surf := [(0, 0x55), (6399, 0xC0)] }

/-- START in progress, at the GATHER of the last source pixel. -/
def lastGather : State := { State.reset with seq := .sGather, x := 7, y := 7 }

/-- START in progress, at the EMIT of the last source pixel. -/
def lastEmit : State := { State.reset with seq := .sEmit, x := 7, y := 7 }

/-- UPDATE in progress, at COMPOSITE. -/
def atComposite : State := { midRun with seq := .uComposite, requests := [.hline 0 (-15) 160] }

/-- The state after reset with host events waiting. -/
def withInputs (s : State) (es : List HostEvent) : State := { s with inputs := es }

theorem witness_DecodeOfEncodeIsTheOperation :
    (Instr.blit1 (-32768) 32767 65535 255).WellFormed ∧ (Instr.rd2 65535 0).WellFormed :=
  ⟨(Instr.wellFormed_iff _).mp (by decide), (Instr.wellFormed_iff _).mp (by decide)⟩

theorem witness_EncodeOfDecodeIsTheWord : decode 0x4300FFFFFFFFFFFF = .ok (.hline (-1) (-1) 65535) := by
  decide +kernel

theorem witness_DecoderAgreesWithOpcodeTable :
    decode 0x4300FFFFFFFFFFFF = .ok (.hline (-1) (-1) 65535) ∧ decode 0x4004000000000000 = .error .unusedBitSet := by
  decide +kernel

theorem witness_StepRunsDecodedCommand :
    let s := withInputs State.reset [.command 0x0100000000000000]
    s.cfg.Ok ∧ s.BetweenHooks ∧ s.inputs = .command 0x0100000000000000 :: [] ∧
      decode 0x0100000000000000 = .ok .start ∧ Instr.start.opClass = .command := by decide +kernel

theorem witness_StepRunsIssuedOperation :
    let s := withInputs midRun [.issue 0x1900000000000000]
    s.cfg.Ok ∧ s.seq = .idle ∧ s.phase ≠ .halted ∧ s.inputs = .issue 0x1900000000000000 :: [] ∧
      decode 0x1900000000000000 = .ok .s3x ∧ Instr.s3x.opClass ≠ .command ∧
      decode 0x0100000000000000 = .ok .start ∧ Instr.start.opClass = .command := by decide +kernel

theorem witness_StepRunsSequencerPosition :
    lastGather.cfg.Ok ∧ lastGather.phase ≠ .halted ∧ seqOperation lastGather = some (.gather 7 7) := by decide +kernel

theorem witness_PlacedWordRunsNext :
    State.reset.cfg.Ok ∧ State.reset.phase ≠ .halted ∧ 0x4418001800440044 < 2 ^ 64 ∧
      decodeTableWord 64 0x4418001800440044 = some (.blit1 68 68 24 24) ∧
      (Instr.blit1 68 68 24 24).opClass ≠ .command ∧
      decodeTableWord 64 0x0200000000000000 = some .update ∧ Instr.update.opClass = .command := by decide +kernel

/-- One witness for each of the four breaches. -/
theorem witness_CommandPortHaltsOnBreach :
    (withInputs State.reset [.command 0]).cfg.Ok ∧ (withInputs State.reset [.command 0]).BetweenHooks ∧
      decode 0x0000000000000000 = .error .unassignedOpcode ∧
      decode 0x1900000000000000 = .ok .s3x ∧ Instr.s3x.opClass ≠ .command ∧
      decode 0x0100000000000000 = .ok .start ∧ running.phase ≠ .unstarted ∧ running.BetweenHooks ∧
      decode 0x0200000000000000 = .ok .update ∧ State.reset.phase ≠ .running := by decide +kernel

theorem witness_HookOutOfPhaseHalts :
    running.phase ≠ .unstarted ∧ haltedBlock.phase ≠ .unstarted ∧ State.reset.phase ≠ .running ∧
      haltedBlock.phase ≠ .running := by decide

theorem witness_HaltedBlockIsInert :
    haltedBlock.cfg.Ok ∧ haltedBlock.phase = .halted ∧
      (withInputs haltedBlock [.command 0x0200000000000000]).inputs = .command 0x0200000000000000 :: [] ∧
      (withInputs haltedBlock [.issue 0x1900000000000000]).inputs = .issue 0x1900000000000000 :: [] := by
  decide +kernel

theorem witness_ResetRestartsTheBlock :
    let s := withInputs { midRun with phase := .halted, seq := .uComposite } [.reset]
    s.cfg.Ok ∧ s.BetweenHooks ∧ s.inputs = .reset :: [] := by decide +kernel

theorem witness_BlockWaitsForACommand : midRun.cfg.Ok ∧ midRun.BetweenHooks ∧ midRun.inputs = [] := by decide +kernel

/-- The tallest screen whose last row fits its field, and one taller by a row: R8 admits both; NCC = 4 it refuses. -/
def screenOf (h : Nat) : Config := { Config.atReset with screenW := h, screenH := h }

theorem witness_BadParametersAreRefused :
    ¬ ({ Config.atReset with ncc := 4 } : Config).Ok ∧ (screenOf 32753).Ok ∧ (screenOf 32754).Ok ∧
      (screenOf 32753).FitsFields ∧ ¬ (screenOf 32754).FitsFields := by decide +kernel

/-- The first and the last byte of the surface; the last slot. -/
theorem witness_HostWritesOnlyItsOwn :
    midRun.cfg.Ok ∧ midRun.BetweenHooks ∧ midRun.surf.wf ∧ 0 < midRun.cfg.surfBytes ∧ 6399 < midRun.cfg.surfBytes ∧
      (withInputs midRun [.writeSurf 6399 0xFF]).inputs = .writeSurf 6399 0xFF :: [] ∧
      (withInputs midRun [.writePal 3 0xFFFFFF]).inputs = .writePal 3 0xFFFFFF :: [] ∧
      (withInputs midRun [.writeDc 0xFFFF]).inputs = .writeDc 0xFFFF :: [] := by decide +kernel

/-- The last pixel and the first coordinates off the surface. -/
theorem witness_Rd2ReadsPixelOrHalts :
    (159 < midRun.cfg.screenW ∧ 159 < midRun.cfg.screenH) ∧ ¬ (160 < midRun.cfg.screenW ∧ 0 < midRun.cfg.screenH) := by
  decide

theorem witness_Rd1ReadsMaskBitOrHalts :
    (23 < midRun.cfg.maskW ∧ 23 < midRun.cfg.maskH) ∧ ¬ (24 < midRun.cfg.maskW ∧ 23 < midRun.cfg.maskH) := by decide

theorem witness_Wr1SetsOneBitOrHalts :
    midRun.mask.wf ∧ (23 < midRun.cfg.maskW ∧ 23 < midRun.cfg.maskH) ∧
      ¬ (0 < midRun.cfg.maskW ∧ 24 < midRun.cfg.maskH) := by decide

/-- The last pixel of the mask and, as the other one, the first. -/
theorem witness_MaskWriteLaws :
    midRun.mask.wf ∧ 23 < midRun.cfg.maskW ∧ 23 < midRun.cfg.maskH ∧
      (0 < midRun.cfg.maskW ∧ 0 < midRun.cfg.maskH ∧ ¬ (0 = 23 ∧ 0 = 23)) := by decide

theorem witness_OffGridCoordinateHalts :
    midRun.cfg.screenW ≤ 160 ∧ midRun.cfg.maskH ≤ 24 ∧ midRun.cfg.srcW ≤ 8 ∧ midRun.cfg.srcH ≤ 8 := by decide

/-- The last pixel, another one, and a pixel off the surface. -/
theorem witness_SurfSetThenRead :
    midRun.surf.wf ∧ 159 < midRun.cfg.screenW ∧ 159 < midRun.cfg.screenH ∧
      ¬ ((0 : Int) ≤ -1 ∧ (-1 : Int) < midRun.cfg.screenW ∧ (0 : Int) ≤ 0 ∧ (0 : Int) < midRun.cfg.screenH) := by decide

/-- The made-up values of neighbourhood V-S3X-B7: a, b, c absent and given 4, 5, 6. -/
def madeUp : Letter → Nat
  | .a => 4 | .b => 5 | .c => 6 | .d => 1 | .e => 0 | .f => 0 | .g => 0 | .h => 1 | .i => 0

theorem witness_S3xEqualsMadeUpValueForm :
    let s := withNeighbours ⟨0, 0, 0, 1, 0, 0, 0, 1, 0⟩ ⟨true, true, false, true⟩
    (∀ u, pres s.edge u = true → madeUp u = (s.nb.get u).toNat) ∧ (∀ u, pres s.edge u = false → 4 ≤ madeUp u) ∧
      (∀ u w, pres s.edge u = false → pres s.edge w = false → madeUp u = madeUp w → u = w) := by
  refine ⟨fun u => ?_, fun u => ?_, fun u w => ?_⟩
  · cases u <;> decide
  · cases u <;> decide
  · cases u <;> cases w <;> decide

/-- V-S3X-3 for the first corner law; the others are its rotations, V-S3X-5, 7 and 9; a flat corner, V-S3X-B11. -/
theorem witness_S3xPreservesEdgesAndFlatRegions :
    let all : EdgeFlags := ⟨true, true, true, true⟩
    let q := fun nb u v => guardedEq nb all u v
    (q ⟨0, 1, 0, 1, 0, 0, 0, 0, 0⟩ .d .b = true ∧ q ⟨0, 1, 0, 1, 0, 0, 0, 0, 0⟩ .b .f = false ∧
        q ⟨0, 1, 0, 1, 0, 0, 0, 0, 0⟩ .d .h = false) ∧
      (q ⟨0, 1, 0, 0, 0, 1, 0, 0, 0⟩ .b .f = true ∧ q ⟨0, 1, 0, 0, 0, 1, 0, 0, 0⟩ .b .d = false ∧
        q ⟨0, 1, 0, 0, 0, 1, 0, 0, 0⟩ .f .h = false) ∧
      (q ⟨0, 0, 0, 1, 0, 0, 0, 1, 0⟩ .h .d = true ∧ q ⟨0, 0, 0, 1, 0, 0, 0, 1, 0⟩ .h .f = false ∧
        q ⟨0, 0, 0, 1, 0, 0, 0, 1, 0⟩ .d .b = false) ∧
      (q ⟨0, 0, 0, 0, 0, 1, 0, 1, 0⟩ .f .h = true ∧ q ⟨0, 0, 0, 0, 0, 1, 0, 1, 0⟩ .f .b = false ∧
        q ⟨0, 0, 0, 0, 0, 1, 0, 1, 0⟩ .h .d = false) ∧
      ∀ u ∈ [Letter.b, .d, .f, .h], pres ⟨false, true, false, true⟩ u = true →
        Neighbourhood.get ⟨3, 3, 3, 3, 0, 0, 3, 0, 0⟩ u = 0 := by decide

/-- The renaming that exchanges 0 and 3, 1 and 2. -/
theorem witness_S3xCommutesWithRenaming :
    (∀ a b : PixelValue, ~~~a = ~~~b → a = b) ∧
      ∀ u ∈ [Letter.a, .b, .c, .d, .e, .f, .g, .h, .i],
        Neighbourhood.get ⟨2, 1, 3, 1, 2, 0, 0, 0, 3⟩ u = ~~~Neighbourhood.get ⟨1, 2, 0, 2, 1, 3, 3, 3, 0⟩ u := by decide

/-- The first and the last source pixel, and at the first a neighbour on the grid and one off it. -/
theorem witness_GatherLoadsPresentNeighbours :
    midRun.cfg.Ok ∧ 0 < midRun.cfg.srcW ∧ 7 < midRun.cfg.srcW ∧ 0 < midRun.cfg.srcH ∧ 7 < midRun.cfg.srcH ∧
      (0 : Int) + 1 < midRun.cfg.srcW ∧ ¬ (0 : Int) ≤ 0 + -1 := by
  decide +kernel

theorem witness_EmitWritesItsBlock :
    midRun.mask.wf ∧ 0 < midRun.cfg.srcW ∧ 7 < midRun.cfg.srcW ∧ 0 < midRun.cfg.srcH ∧ 7 < midRun.cfg.srcH ∧
      23 < midRun.cfg.maskW := by decide +kernel

theorem witness_StartFillsMaskFromSurface :
    let s : State := { midRun with phase := .unstarted }
    s.cfg.Ok ∧ s.MemoryOk ∧ s.phase = .unstarted ∧ 23 < s.cfg.maskW ∧ 23 < s.cfg.maskH := by decide +kernel

theorem witness_StartShowsLabelOnCleanSurface :
    State.reset.cfg.Ok ∧ State.reset.MemoryOk ∧ State.reset.phase = .unstarted ∧ State.reset.SurfaceClean ∧
      State.reset.cfg.textDc = 0x0002 ∧ State.reset.cfg.bgIndex = 0 := by decide +kernel

theorem witness_StartRunsThroughSequencer :
    let s : State := { State.reset with seq := .sPal0, cmdOpen := true }
    s.cfg.Ok ∧ s.cfg.srcW ≤ 65536 ∧ s.phase = .unstarted ∧ s.seq = .sPal0 := by decide +kernel

/-- The first and the last stripe of the window at the lowest clock. -/
theorem witness_PalupdRotatesPalette :
    midRun.cfg.Ok ∧ midRun.clock / (midRun.cfg.stripeHeight : Int) ≤ -2 ∧
      (0 : Int) < midRun.clock / (midRun.cfg.stripeHeight : Int) + 3 := by decide +kernel

/-- Both periods from the lowest clock: 24 and 168. -/
theorem witness_PalettePeriods :
    midRun.cfg.Ok ∧
      ({ midRun with clock := 9 } : State).clock = midRun.clock + midRun.cfg.stripeHeight * 3 ∧
      ({ midRun with clock := 153 } : State).clock =
        midRun.clock + midRun.cfg.stripeHeight * Nat.lcm 3 midRun.cfg.cts := by decide +kernel

/-- The one row of the window on the screen at the lowest clock, and the first row below it. -/
theorem witness_StripesFillTheWindow :
    midRun.cfg.Ok ∧ midRun.MemoryOk ∧ 159 < midRun.cfg.screenW ∧
      inWindow midRun.cfg midRun.clock (0 : Nat) ∧ ¬ inWindow midRun.cfg midRun.clock (1 : Nat) := by
  decide +kernel

theorem witness_RowColourIsFixed :
    midRun.cfg.Ok ∧ midRun.MemoryOk ∧ 159 < midRun.cfg.screenW ∧ 0 < midRun.cfg.screenH ∧
      inWindow midRun.cfg midRun.clock (0 : Nat) := by decide +kernel

/-- A display pixel on a set mask pixel, one on a clear one, one off the mask. -/
theorem witness_CompositeCutsTheLabelOut :
    midRun.surf.wf ∧ midRun.cfg.compositeDc = 0x0010 ∧ onSetMaskPixel midRun.cfg midRun.mask 91 91 ∧
      ¬ onSetMaskPixel midRun.cfg midRun.mask 71 68 ∧ ¬ onSetMaskPixel midRun.cfg midRun.mask 67 68 := by
  decide +kernel

/-- Both outcomes of the comparison, at its boundary. -/
theorem witness_AdvanceStepsTheClock :
    midRun.cfg.Ok ∧ midRun.cfg.ClockFits ∧ midRun.cfg.ClockHolds 156 ∧ midRun.cfg.ClockHolds 155 ∧ (156 : Int) + midRun.cfg.speed ≥ midRun.cfg.screenH ∧
      ¬ ((155 : Int) + midRun.cfg.speed ≥ midRun.cfg.screenH) := by decide +kernel

theorem witness_UpdateIsItsFourSteps : midRun.phase = .running := by decide

theorem witness_UpdateDrawsOneFrame :
    midRun.cfg.Ok ∧ midRun.cfg.ClockFits ∧ midRun.cfg.ClockHolds midRun.clock ∧ midRun.MemoryOk ∧
      midRun.phase = .running ∧ midRun.cfg.compositeDc = 0x0010 ∧
      onSetMaskPixel midRun.cfg midRun.mask 68 68 ∧ inWindow midRun.cfg midRun.clock (0 : Nat) := by
  decide +kernel

theorem witness_UpdateRequestSequence : midRun.cfg.Ok ∧ midRun.phase = .running := by decide +kernel

theorem witness_UpdateDependsOnClockAlone :
    let s' : State := { midRun with mask := [], surf := [], pal := ⟨1, 2, 3, 4⟩, dc := 0xFFFF }
    midRun.phase = .running ∧ s'.phase = .running ∧ s'.cfg = midRun.cfg ∧ s'.clock = midRun.clock := by decide +kernel

/-- RUNNING, with `k` UPDATE commands waiting. -/
def commanded (k : Nat) : State := withInputs running (List.replicate k (.command 0x0200000000000000) ++ [])

/-- The last command of the first pass, and the first two of the second. -/
theorem witness_ClockSequence :
    ∀ k ∈ [39, 40, 41], (commanded k).cfg.Ok ∧ 9 ≤ (commanded k).cfg.clockBits ∧ (commanded k).cfg.screenH = 160 ∧
      (commanded k).cfg.speed = 4 ∧ (commanded k).cfg.windowHeight = 16 ∧ (commanded k).phase = .running ∧
      (commanded k).seq = .idle ∧ (commanded k).clock = 0 ∧
      (commanded k).inputs = List.replicate k (.command 0x0200000000000000) ++ [] := by
  decide +kernel

theorem witness_UpdateRunsThroughSequencer :
    let s : State := { midRun with seq := .uPalupd, cmdOpen := true }
    s.cfg.Ok ∧ s.phase = .running ∧ s.seq = .uPalupd := by decide +kernel

/-- Fields 0, 1, 4, 5 and 15. -/
theorem witness_DcmapOfAField :
    dcmap 0xF540 0 = .transparent ∧ dcmap 0x0001 0 = .slot 0 ∧ dcmap 0xF540 1 = .slot 3 ∧
      dcmap 0xF540 2 = .hostDefined ∧ dcmap 0xF540 3 = .hostDefined := by decide +kernel

theorem witness_TextDrawsForeground :
    midRun.surf.wf ∧ midRun.cfg.Ok ∧ 0 < midRun.cfg.n ∧
      midRun.cfg.fontBit (midRun.cfg.labelAt 0) 7 7 = true ∧ midRun.cfg.fontBit (midRun.cfg.labelAt 0) 7 0 = false := by
  decide +kernel

/-- The last column of a run, and the columns on both sides of it. -/
theorem witness_HlineDrawsARun :
    midRun.surf.wf ∧ ((-2 : Int) ≤ (1 : Nat) ∧ ((1 : Nat) : Int) < -2 + (4 : Nat)) ∧
      ¬ (((2 : Nat) : Int) < -2 + (4 : Nat)) := by decide +kernel

/-- The whole mask, and a strip of one row. -/
theorem witness_Blit1CompositesTheMask :
    midRun.surf.wf ∧ 24 * 24 ≤ 8 * midRun.cfg.maskBytes ∧ 576 * 1 ≤ 8 * midRun.cfg.maskBytes := by decide +kernel

theorem witness_OversizedBlitIsRefused : 8 * midRun.cfg.maskBytes < 577 * 1 := by decide

theorem witness_StepKeepsTheInvariant :
    lastGather.Inv ∧ holdsNext (step lastGather) (fun t => t.seq == .sS3x) = true := by decide +kernel

theorem witness_HookInProgressNeverHalts :
    lastEmit.Inv ∧ ¬ lastEmit.BetweenHooks := by decide +kernel

theorem witness_MaskIsReadOnlyAfterStart :
    let s := withInputs midRun [.command 0x0100000000000000]
    s.Inv ∧ s.phase = .running ∧ s.inputs.head? = some (.command 0x0100000000000000) ∧
      holdsNext (step s) (fun t => t.phase == .halted) := by decide +kernel

/-- The step that ends START. -/
theorem witness_PhaseMovesOnlyAsListed :
    holdsNext (step lastEmit) (fun t => t.phase == .running) ∧
      holdsNext (step (withInputs haltedBlock [.reset])) (fun t => t.phase == .unstarted) := by decide +kernel

theorem witness_ConstantsAreNeverWritten :
    holdsNext (step (withInputs haltedBlock [.reset])) (fun t => t.cfg == Config.atReset) := by decide +kernel

theorem witness_EachRegisterHasItsWriters :
    holdsNext (exec (.rd2 160 0) midRun) (fun t => t.phase != midRun.phase) ∧
      holdsNext (exec .composite midRun) (fun t => t.requests != midRun.requests && t.draws != midRun.draws) ∧
      holdsNext (exec .advance midRun) (fun t => t.clock != midRun.clock) ∧
      holdsNext (exec (.gather 7 7) midRun) (fun t => t.edge != midRun.edge) := by decide +kernel

theorem witness_EveryRequestSpellsAnOperation :
    atComposite.Inv ∧ (∀ i ∈ atComposite.requests, i.wellFormed = true ∧ i.opClass = .primitive) ∧
      holdsNext (step atComposite) (fun t => t.requests.length == 3) = true := by
  decide +kernel

theorem witness_MaskSizeIsExact : Config.atReset.Ok := by decide +kernel

end Sys2Proof.Tests
end

section
/-! SUPPORT. Which operations can be refused, and why (R177, U7). -/

namespace Sys2Proof.Machine

/-- The operation has a meaning: it is done or it halts the block. -/
def Result.HasMeaning (r : Result) : Prop := ∀ why, r ≠ .refused why

theorem Result.hasMeaning_done (s : State) : (Result.done s).HasMeaning := nofun

theorem halt_hasMeaning (why : HaltCause) (s : State) : (halt why s).HasMeaning := nofun

theorem Result.HasMeaning.andThen {r : Result} {f : State → Result} (hr : r.HasMeaning)
    (hf : ∀ s, (f s).HasMeaning) : (r.andThen f).HasMeaning := by
  cases r with
  | done s => exact hf s
  | halted why s => exact nofun
  | refused why => exact absurd rfl (hr why)

theorem Result.outcome_eq_refused_iff {r : Result} {why : Refusal} : r.outcome = .refused why ↔ r = .refused why := by
  cases r <;> simp

theorem Result.HasMeaning.outcome_ne_refused {r : Result} (hr : r.HasMeaning) (why : Refusal) :
    r.outcome ≠ .refused why := fun h => hr why (Result.outcome_eq_refused_iff.mp h)

theorem runAll_hasMeaning {α : Type} {f : α → State → Result} (hf : ∀ a s, (f a s).HasMeaning) (as : List α)
    (s : State) : (runAll f as s).HasMeaning := by
  induction as generalizing s with
  | nil => exact Result.hasMeaning_done s
  | cons a as ih => exact (hf a s).andThen ih

theorem rd2_hasMeaning (x y : Nat) (s : State) : (rd2 x y s).HasMeaning := by
  obtain ⟨_, _, h⟩ | ⟨_, h⟩ := rd2_cases x y s
  · rw [h]; exact Result.hasMeaning_done _
  · rw [h]; exact halt_hasMeaning _ _

theorem rd1_hasMeaning (x y : Nat) (s : State) : (rd1 x y s).HasMeaning := by
  by_cases h : x < s.cfg.maskW ∧ y < s.cfg.maskH
  · rw [rd1_of_range h.1 h.2]; exact Result.hasMeaning_done _
  · rw [rd1_off_range h]; exact halt_hasMeaning _ _

theorem wr1_hasMeaning (x y : Nat) (b : Bool) (s : State) : (wr1 x y b s).HasMeaning := by
  obtain ⟨_, _, h⟩ | ⟨_, h⟩ := wr1_cases x y b s
  · rw [h]; exact Result.hasMeaning_done _
  · rw [h]; exact halt_hasMeaning _ _

theorem gatherOne_hasMeaning (x y : Nat) (u : Letter) (s : State) : (gatherOne x y u s).HasMeaning := by
  unfold gatherOne
  split
  · exact (rd2_hasMeaning _ _ s).andThen fun _ => Result.hasMeaning_done _
  · exact Result.hasMeaning_done s

theorem gather_hasMeaning (x y : Nat) (s : State) : (gather x y s).HasMeaning := by
  unfold gather
  split
  · exact runAll_hasMeaning (gatherOne_hasMeaning x y) _ _
  · exact halt_hasMeaning _ s

theorem emit_hasMeaning (x y : Nat) (s : State) : (emit x y s).HasMeaning := by
  unfold emit
  split
  · exact runAll_hasMeaning (fun _ _ => wr1_hasMeaning _ _ _ _) _ s
  · exact halt_hasMeaning _ s

theorem scanPixel_hasMeaning (p : Nat × Nat) (s : State) : (scanPixel p s).HasMeaning :=
  (gather_hasMeaning _ _ _).andThen fun _ => emit_hasMeaning _ _ _

theorem start_hasMeaning (s : State) : (start s).HasMeaning := by
  unfold start
  split
  · exact (runAll_hasMeaning scanPixel_hasMeaning _ _).andThen fun _ => Result.hasMeaning_done _
  · exact halt_hasMeaning _ s

/-- COMPOSITE's bitmap is the mask itself, which never reaches beyond the mask (R146, U7). -/
theorem composite_hasMeaning (s : State) : (composite s).HasMeaning := by
  rw [composite_eq]; exact Result.hasMeaning_done _

theorem update_hasMeaning (s : State) : (update s).HasMeaning := by
  by_cases h : s.phase = .running
  · rw [update_running h]
    exact (composite_hasMeaning _).andThen fun _ => Result.hasMeaning_done _
  · rw [update_not_running h]; exact halt_hasMeaning _ s

theorem blit1_eq_refused_iff {x y : Int} {w h : Nat} {s : State} {r : Refusal} :
    blit1 x y w h s = .refused r ↔ 8 * s.cfg.maskBytes < w * h ∧ r = .blitBeyondMask := by
  by_cases hw : w * h ≤ 8 * s.cfg.maskBytes
  · simp [blit1_of_le hw, hw]
  · simp [blit1_of_gt hw, not_le.mp hw, eq_comm]

/-- Everything `exec` refuses: a BLIT1 that reaches beyond the mask (R177, U7, log 9). -/
theorem exec_refused_cases {i : Instr} {s : State} {r : Refusal} (h : exec i s = .refused r) :
    r = .blitBeyondMask ∧ ∃ x y w h, i = .blit1 x y w h ∧ 8 * s.cfg.maskBytes < w * h := by
  cases i with
  | start => exact absurd h ((start_hasMeaning s).outcome_ne_refused r)
  | update => exact absurd h ((update_hasMeaning s).outcome_ne_refused r)
  | rd2 x y => exact absurd h ((rd2_hasMeaning x y s).outcome_ne_refused r)
  | rd1 x y => exact absurd h ((rd1_hasMeaning x y s).outcome_ne_refused r)
  | wr1 x y bit => exact absurd h ((wr1_hasMeaning x y bit s).outcome_ne_refused r)
  | gather x y => exact absurd h ((gather_hasMeaning x y s).outcome_ne_refused r)
  | emit x y => exact absurd h ((emit_hasMeaning x y s).outcome_ne_refused r)
  | composite => exact absurd h ((composite_hasMeaning s).outcome_ne_refused r)
  | blit1 x y w h' =>
    obtain ⟨hw, hr⟩ := blit1_eq_refused_iff.mp (Result.outcome_eq_refused_iff.mp h)
    exact ⟨hr, x, y, w, h', rfl, hw⟩
  | _ => exact nomatch h

theorem retire_eq_refused_iff {src : OpSource} {o : Host.Outcome State Fault Refusal} {r : Refusal} :
    retire src o = .refused r ↔ o = .refused r := by
  cases o <;> simp [retire]

/-- Everything a host event is refused for (log 10, log 11). -/
theorem takeEvent_refuse_cases {e : HostEvent} {s : State} {r : Refusal} (h : takeEvent e s = .refuse r) :
    r = .issuedCommand ∨ r = .issuedWordSpellsNothing ∨ r = .hostWriteOutsideSurface := by
  cases e with
  | command w =>
    simp only [takeEvent, takeCommand] at h
    split at h
    · split at h <;> cases h
    · cases h
  | issue w =>
    simp only [takeEvent, takeIssue] at h
    split at h
    · cases h
    · split at h
      · split at h
        · cases h; exact .inl rfl
        · cases h
      · cases h
        exact .inr (.inl rfl)
  | writeSurf k v =>
    simp only [takeEvent] at h
    split at h
    · cases h
    · cases h; exact .inr (.inr rfl)
  | reset => cases h
  | writePal slot rgb => cases h
  | writeDc value => cases h

/-- Everything a step with admitted parameters is refused for. -/
theorem step_refused_cases {s : State} {r : Refusal} (hok : s.cfg.Ok) (h : step s = .refused r) :
    r = .blitBeyondMask ∨ r = .issuedCommand ∨ r = .issuedWordSpellsNothing ∨ r = .hostWriteOutsideSurface := by
  cases hop : hookOperation s with
  | some i =>
    have hf : fetch s = .operation .sequencer i s := by rw [fetch_of_ok hok, hop]
    simp only [step, hf, retire_eq_refused_iff] at h
    exact .inl (exec_refused_cases h).1
  | none =>
    have hb : s.BetweenHooks := hookOperation_eq_none.mp hop
    cases hin : s.inputs with
    | nil => rw [step_idle hok hb hin] at h; cases h
    | cons e rest =>
      rw [step_event hok hb hin] at h
      split at h
      · exact .inl (exec_refused_cases (retire_eq_refused_iff.mp h)).1
      · cases h
      · cases h
      · rename_i r' he
        cases h
        exact .inr (takeEvent_refuse_cases he)

/-- Settles O15: the fetch tests the constants first, and nothing after that test refuses them. -/
theorem badParametersAreRefused : Obligations.BadParametersAreRefused := by
  intro s
  constructor
  · intro h hok
    rcases step_refused_cases hok h with h | h | h | h <;> cases h
  · exact step_of_bad_parameters

end Sys2Proof.Machine
end

section
/-! SUPPORT. The size of the mask (R9). -/

namespace Sys2Proof

/-- `24N * 24 = 576N` bits (R9). -/
theorem Config.maskW_mul_maskH_of_ok {c : Config} (h : c.Ok) : c.maskW * c.maskH = 576 * c.n := by
  obtain ⟨-, -, -, -, hw, hh, -⟩ := Config.derived_of_ok h
  rw [hw, hh]; omega

/-- `72N` bytes: the rounding up of R7 never rounds (R9). -/
theorem Config.maskBytes_of_ok {c : Config} (h : c.Ok) : c.maskBytes = 72 * c.n := by
  unfold Config.maskBytes
  rw [Config.maskW_mul_maskH_of_ok h]; omega

/-- Settles O60: both sizes are multiples of N, and `576 = 8 * 72`. -/
theorem maskSizeIsExact : Obligations.MaskSizeIsExact := by
  intro c h
  have hbits := Config.maskW_mul_maskH_of_ok h
  have hbytes := Config.maskBytes_of_ok h
  exact ⟨hbits, hbytes, by omega⟩

end Sys2Proof
end

section
/-! SUPPORT. What each operation may write (R21 to R34, R178): one frame for every operation, and the two statements
about writers. -/

namespace Sys2Proof.Machine

/-- `s` with the pieces of state that the rule of `i` lets it write taken from `u`; a halt writes PHASE (R193). -/
def withWrites (i : Instr) (s u : State) : State :=
  match i with
  | .start =>
    { s with phase := u.phase, seq := u.seq, mask := u.mask, surf := u.surf, x := u.x, y := u.y, nb := u.nb,
             edge := u.edge, out := u.out, res := u.res, pal := u.pal, dc := u.dc, requests := u.requests,
             draws := u.draws }
  | .update =>
    { s with clock := u.clock, phase := u.phase, seq := u.seq, surf := u.surf, pal := u.pal, dc := u.dc,
             requests := u.requests, draws := u.draws }
  | .rd2 _ _ | .rd1 _ _ => { s with phase := u.phase, res := u.res }
  | .wr1 _ _ _ | .emit _ _ => { s with phase := u.phase, mask := u.mask }
  | .gather _ _ => { s with phase := u.phase, nb := u.nb, edge := u.edge, res := u.res }
  | .s3x => { s with out := u.out }
  | .palupd | .setpal _ _ => { s with pal := u.pal, requests := u.requests }
  | .stripes | .composite => { s with surf := u.surf, dc := u.dc, requests := u.requests, draws := u.draws }
  | .advance => { s with clock := u.clock }
  | .setdc _ => { s with dc := u.dc, requests := u.requests }
  | .text _ _ | .hline _ _ _ | .blit1 _ _ _ _ =>
    { s with surf := u.surf, requests := u.requests, draws := u.draws }

/-- Everything RD1 can do. -/
theorem rd1_cases (x y : Nat) (s : State) :
    (∃ v, rd1 x y s = .done (s.setRes v)) ∨ rd1 x y s = halt .bpRange s := by
  by_cases h : x < s.cfg.maskW ∧ y < s.cfg.maskH
  · exact .inl ⟨_, rd1_of_range h.1 h.2⟩
  · exact .inr (rd1_off_range h)

variable {i : Instr} {s t : State}

/-- Every operation leaves alone what its rule does not let it write, whether it completes or halts. -/
theorem exec_frame (h : exec i s = .next t) : t = withWrites i s t := by
  cases i with
  | start => exact start_frame h
  | update =>
    change (update s).outcome = .next t at h
    by_cases hr : s.phase = .running
    · obtain ⟨p, m, n, e⟩ := update_frame hr
      rw [e] at h; cases h; rfl
    · rw [update_not_running hr] at h; cases h; rfl
  | rd2 x y =>
    change (rd2 x y s).outcome = .next t at h
    obtain ⟨-, -, e⟩ | ⟨-, e⟩ := rd2_cases x y s <;> rw [e] at h <;> cases h <;> rfl
  | rd1 x y =>
    change (rd1 x y s).outcome = .next t at h
    obtain ⟨v, e⟩ | e := rd1_cases x y s <;> rw [e] at h <;> cases h <;> rfl
  | wr1 x y bit =>
    change (wr1 x y bit s).outcome = .next t at h
    obtain ⟨-, -, e⟩ | ⟨-, e⟩ := wr1_cases x y bit s <;> rw [e] at h <;> cases h <;> rfl
  | gather x y => exact gather_frame h
  | emit x y => exact emit_frame h
  | palupd =>
    cases h
    obtain ⟨p, e⟩ := palupd_frame s
    rw [e]; rfl
  | stripes =>
    cases h
    obtain ⟨m, d, n, e⟩ := stripes_frame s
    rw [e]; rfl
  | composite =>
    change (composite s).outcome = .next t at h
    rw [composite_eq] at h; cases h; rfl
  | blit1 x y w h' =>
    change (blit1 x y w h' s).outcome = .next t at h
    by_cases hw : w * h' ≤ 8 * s.cfg.maskBytes
    · rw [blit1_of_le hw] at h; cases h; rfl
    · rw [blit1_of_gt hw] at h; cases h
  | s3x | advance | setpal _ _ | setdc _ | text _ _ | hline _ _ _ => cases h; rfl

/-- Settles O58: each piece of state is the old one in the frame of every operation that is not among its writers. -/
theorem eachRegisterHasItsWriters : Obligations.EachRegisterHasItsWriters := by
  intro i s t h
  obtain ⟨u, rfl⟩ : ∃ u, t = withWrites i s u := ⟨t, exec_frame h⟩
  cases i <;> simp [withWrites, Instr.opClass]

/-- No operation writes a constant (R34). -/
theorem exec_cfg (h : exec i s = .next t) : t.cfg = s.cfg := (eachRegisterHasItsWriters i s t h).1

/-- Outside the two hooks SEQ and the loop counters stay (R24, R26). -/
theorem exec_sequencer_registers (h : exec i s = .next t) (hi : i.opClass ≠ .command) :
    t.seq = s.seq ∧ t.x = s.x ∧ t.y = s.y := by
  rw [exec_frame h]
  cases i with
  | start | update => exact absurd rfl hi
  | _ => exact ⟨rfl, rfl, rfl⟩

/-! What follows an operation. -/

/-- Everything that can follow an operation: nothing after a halt or an issued one, the command's completion, or the
sequencer's move. -/
theorem afterOperation_cases (src : OpSource) (s : State) :
    afterOperation src s = s ∨ afterOperation src s = completeCommand s ∨
      (src = .sequencer ∧ s.phase ≠ .halted ∧ afterOperation src s = seqAdvance s) := by
  unfold afterOperation
  split
  · exact .inl rfl
  · rename_i hp
    cases src with
    | sequencer => exact .inr (.inr ⟨rfl, hp, rfl⟩)
    | commandPort => exact .inr (.inl rfl)
    | issued => exact .inl rfl

/-- Everything the loop of START does after an EMIT (R123, R124). -/
theorem afterEmit_cases (s : State) :
    (s.x.toNat + 1 < s.cfg.srcW ∧
      afterEmit s = (s.setCounters (s.x.toNat + 1) s.y.toNat).setSeq .sGather) ∨
    (¬ s.x.toNat + 1 < s.cfg.srcW ∧ s.y.toNat + 1 < s.cfg.srcH ∧
      afterEmit s = (s.setCounters 0 (s.y.toNat + 1)).setSeq .sGather) ∨
    (¬ s.x.toNat + 1 < s.cfg.srcW ∧ ¬ s.y.toNat + 1 < s.cfg.srcH ∧
      afterEmit s = completeCommand ((s.setPhase .running).setSeq .idle)) := by
  unfold afterEmit
  by_cases hx : s.x.toNat + 1 < s.cfg.srcW
  · exact .inl ⟨hx, if_pos hx⟩
  · rw [if_neg hx]
    by_cases hy : s.y.toNat + 1 < s.cfg.srcH
    · exact .inr (.inl ⟨hx, hy, if_pos hy⟩)
    · exact .inr (.inr ⟨hx, hy, if_neg hy⟩)

/-- `q` is a position of no hook, or of no loop, that `p` was not a position of. -/
abbrev Seq.Continues (p q : Seq) : Prop :=
  (q.inStart = true → p.inStart = true) ∧ (q.inUpdate = true → p.inUpdate = true) ∧
    (q.inScan = true → p.inScan = true)

/-- Everything the sequencer's move can do: the loop of START turns or is entered, or SEQ moves on inside its hook, or
to IDLE with the transaction complete (R24). -/
theorem seqAdvance_cases (s : State) :
    (s.seq = .sEmit ∧ seqAdvance s = afterEmit s) ∨
    (s.seq = .sText ∧ seqAdvance s = (s.setCounters 0 0).setSeq .sGather) ∨
    (∃ q b, s.seq.Continues q ∧ seqAdvance s = (s.setSeq q).setCmdOpen b) := by
  cases hs : s.seq with
  | sEmit => exact .inl ⟨rfl, by simp only [seqAdvance, hs]⟩
  | sText => exact .inr (.inl ⟨rfl, by simp only [seqAdvance, hs]⟩)
  | idle =>
    have e : seqAdvance s = s := by simp only [seqAdvance, hs]
    exact .inr (.inr ⟨s.seq, s.cmdOpen, by rw [hs]; decide, e⟩)
  | _ =>
    refine .inr (.inr ⟨(seqAdvance s).seq, (seqAdvance s).cmdOpen, ?_, ?_⟩)
    · simp only [seqAdvance, hs, completeCommand, State.setCmdOpen_seq, State.setSeq_seq]; decide
    · simp only [seqAdvance, hs]; rfl

theorem seqAdvance_cfg (s : State) : (seqAdvance s).cfg = s.cfg := by
  obtain ⟨-, e⟩ | ⟨-, e⟩ | ⟨q, b, -, e⟩ := seqAdvance_cases s <;> rw [e]
  · obtain ⟨-, e⟩ | ⟨-, -, e⟩ | ⟨-, -, e⟩ := afterEmit_cases s <;> rw [e] <;> rfl
  · rfl
  · rfl

theorem afterOperation_cfg (src : OpSource) (s : State) : (afterOperation src s).cfg = s.cfg := by
  obtain e | e | ⟨-, -, e⟩ := afterOperation_cases src s <;> rw [e]
  · rfl
  · exact seqAdvance_cfg s

/-! What a host event asks for. -/

variable {e : HostEvent}

/-- The operations that host events bring: a hook from the command port, or one of class U or P issued on its own
(R71, R191). -/
theorem takeEvent_operation_cases {src : OpSource} {s' : State} (h : takeEvent e s = .operation src i s') :
    (∃ w, e = .command w ∧ decode w = .ok i ∧ i.opClass = .command ∧ src = .commandPort ∧
      s' = s.setCmdOpen true) ∨
    (s.phase ≠ .halted ∧ i.opClass ≠ .command ∧ src = .issued ∧ s' = s) := by
  cases e with
  | command w =>
    simp only [takeEvent, takeCommand] at h
    split at h
    · rename_i hw
      split at h
      · rename_i hc; cases h; exact .inl ⟨w, rfl, hw, hc, rfl, rfl⟩
      · cases h
    · cases h
  | issue w =>
    simp only [takeEvent, takeIssue] at h
    split at h
    · cases h
    · rename_i hp
      split at h
      · split at h
        · cases h
        · rename_i hc; cases h; exact .inr ⟨hp, hc, rfl, rfl⟩
      · cases h
  | writeSurf k v => simp only [takeEvent] at h; split at h <;> cases h
  | reset | writePal _ _ | writeDc _ => cases h

/-- The host events that give the block no operation: reset, a word issued in HALTED, and the host's writes to its own
state (R181, R194, R220). -/
theorem takeEvent_silent_cases (h : takeEvent e s = .silent t) :
    (e = .reset ∧ t = resetBlock s) ∨ t = s ∨
      (∃ k v, k < s.cfg.surfBytes ∧ t = s.setSurf (s.surf.write k v)) ∨ (∃ p, t = s.setPal p) ∨
      ∃ v, t = s.setDc v := by
  cases e with
  | command w =>
    simp only [takeEvent, takeCommand] at h
    split at h
    · split at h <;> cases h
    · cases h
  | reset => cases h; exact .inl ⟨rfl, rfl⟩
  | issue w =>
    simp only [takeEvent, takeIssue] at h
    split at h
    · cases h; exact .inr (.inl rfl)
    · split at h
      · split at h <;> cases h
      · cases h
  | writeSurf k v =>
    simp only [takeEvent] at h
    split at h
    · rename_i hk; cases h; exact .inr (.inr (.inl ⟨k, v, hk, rfl⟩))
    · cases h
  | writePal slot rgb => cases h; exact .inr (.inr (.inr (.inl ⟨_, rfl⟩)))
  | writeDc value => cases h; exact .inr (.inr (.inr (.inr ⟨value, rfl⟩)))

/-- Only a word on the command port is illegal there (R192). -/
theorem takeEvent_illegal {why : HaltCause} {s' : State} (h : takeEvent e s = .illegal why s') :
    s' = s.setCmdOpen true := by
  cases e with
  | command w =>
    simp only [takeEvent, takeCommand] at h
    split at h
    · split at h <;> cases h; rfl
    · cases h; rfl
  | issue w =>
    simp only [takeEvent, takeIssue] at h
    split at h
    · cases h
    · split at h
      · split at h <;> cases h
      · cases h
  | writeSurf k v => simp only [takeEvent] at h; split at h <;> cases h
  | reset | writePal _ _ | writeDc _ => cases h

/-- Settles O57: no operation, no move of the sequencer and no host event writes the constants. -/
theorem constantsAreNeverWritten : Obligations.ConstantsAreNeverWritten := by
  intro s t h
  obtain ⟨-, ⟨i, a, -, -, hx, rfl⟩ | ⟨-, -, rfl⟩ | ⟨-, e, rest, -, hev⟩⟩ := step_cases h
  · rw [afterOperation_cfg, exec_cfg hx]
  · rfl
  · obtain ⟨src, i, s', a, hop, hx, rfl⟩ | hsilent | ⟨why, s', hill, rfl⟩ := hev
    · rw [afterOperation_cfg, exec_cfg hx]
      obtain ⟨w, -, -, -, -, rfl⟩ | ⟨-, -, -, rfl⟩ := takeEvent_operation_cases hop <;> rfl
    · obtain ⟨-, rfl⟩ | rfl | ⟨k, v, -, rfl⟩ | ⟨p, rfl⟩ | ⟨v, rfl⟩ := takeEvent_silent_cases hsilent <;> rfl
    · rw [takeEvent_illegal hill]; rfl

end Sys2Proof.Machine
end

section
/-! SUPPORT. How PHASE moves (R22, R194, R199). -/

namespace Sys2Proof.Machine

/-- What follows an operation decides the outcome of a sequence that is not refused. -/
theorem Result.andThen_outcome_next {r : Result} {f : State → Result} {t : State}
    (h : (r.andThen f).outcome = .next t) :
    (∃ a, r = .done a ∧ (f a).outcome = .next t) ∨ ∃ why, r = .halted why t := by
  cases r with
  | done a => exact .inl ⟨a, rfl, h⟩
  | halted why a => cases h; exact .inr ⟨why, rfl⟩
  | refused why => cases h

/-- PHASE is as it was, or the block has halted: all that an operation other than START does to it. -/
def PhaseKeptOrHalted (s t : State) : Prop := t.phase = s.phase ∨ t.phase = .halted

theorem PhaseKeptOrHalted.trans {a b c : State} (h1 : PhaseKeptOrHalted a b) (h2 : PhaseKeptOrHalted b c) :
    PhaseKeptOrHalted a c := by
  obtain h2 | h2 := h2
  · obtain h1 | h1 := h1
    · exact .inl (h2.trans h1)
    · exact .inr (h2.trans h1)
  · exact .inr h2

theorem PhaseKeptOrHalted.refl (s : State) : PhaseKeptOrHalted s s := .inl rfl

theorem phase_of_halt {why : HaltCause} {s t : State} (h : (halt why s).outcome = .next t) :
    PhaseKeptOrHalted s t := by cases h; exact .inr rfl

variable {x y : Nat} {i : Instr} {s t : State}

theorem rd2_phase (h : (rd2 x y s).outcome = .next t) : PhaseKeptOrHalted s t := by
  obtain ⟨-, -, e⟩ | ⟨-, e⟩ := rd2_cases x y s <;> rw [e] at h
  · cases h; exact .inl rfl
  · exact phase_of_halt h

theorem rd1_phase (h : (rd1 x y s).outcome = .next t) : PhaseKeptOrHalted s t := by
  obtain ⟨v, e⟩ | e := rd1_cases x y s <;> rw [e] at h
  · cases h; exact .inl rfl
  · exact phase_of_halt h

theorem wr1_phase {b : Bool} (h : (wr1 x y b s).outcome = .next t) : PhaseKeptOrHalted s t := by
  obtain ⟨-, -, e⟩ | ⟨-, e⟩ := wr1_cases x y b s <;> rw [e] at h
  · cases h; exact .inl rfl
  · exact phase_of_halt h

theorem gatherOne_phase {u : Letter} (h : (gatherOne x y u s).outcome = .next t) : PhaseKeptOrHalted s t := by
  unfold gatherOne at h
  split at h
  · obtain ⟨a, hr, ha⟩ | ⟨why, hr⟩ := Result.andThen_outcome_next h
    · have hread : PhaseKeptOrHalted s a := rd2_phase (by rw [hr]; rfl)
      cases ha
      exact hread
    · exact rd2_phase (by rw [hr]; rfl)
  · cases h; exact .refl s

theorem gather_phase (h : (gather x y s).outcome = .next t) : PhaseKeptOrHalted s t := by
  unfold gather at h
  split at h
  · exact runAll_related (R := PhaseKeptOrHalted) (s := s.setEdge (edgeFlags s.cfg x y)) .refl (fun _ _ _ => .trans)
      (fun _ _ _ => gatherOne_phase) h
  · exact phase_of_halt h

theorem emit_phase (h : (emit x y s).outcome = .next t) : PhaseKeptOrHalted s t := by
  unfold emit at h
  split at h
  · exact runAll_related (R := PhaseKeptOrHalted) .refl (fun _ _ _ => .trans) (fun _ _ _ => wr1_phase) h
  · exact phase_of_halt h

theorem scanPixel_phase {p : Nat × Nat} (h : (scanPixel p s).outcome = .next t) : PhaseKeptOrHalted s t := by
  obtain ⟨a, hr, ha⟩ | ⟨why, hr⟩ := Result.andThen_outcome_next h
  · have hgather : PhaseKeptOrHalted s a :=
      gather_phase (s := (s.setCounters p.1 p.2).setSeq .sGather) (by rw [hr]; rfl)
    exact hgather.trans (emit_phase (s := (s3x (a.setSeq .sS3x)).setSeq .sEmit) ha)
  · exact gather_phase (s := (s.setCounters p.1 p.2).setSeq .sGather) (by rw [hr]; rfl)

/-- START completes from UNSTARTED to RUNNING, or the block has halted (R123, R193). -/
theorem start_phase (h : (start s).outcome = .next t) :
    PhaseKeptOrHalted s t ∨ (s.phase = .unstarted ∧ t.phase = .running ∧ t.seq = .idle) := by
  unfold start at h
  split at h
  · rename_i hp
    obtain ⟨a, -, ha⟩ | ⟨why, hr⟩ := Result.andThen_outcome_next h
    · cases ha; exact .inr ⟨hp, rfl, rfl⟩
    · have hscan : PhaseKeptOrHalted (startPrimitives s) t :=
        runAll_related (R := PhaseKeptOrHalted) .refl (fun _ _ _ => .trans) (fun _ _ _ => scanPixel_phase)
          (by rw [hr]; rfl)
      rw [startPrimitives_eq] at hscan
      exact .inl hscan
  · exact .inl (phase_of_halt h)

theorem update_phase (h : (update s).outcome = .next t) : PhaseKeptOrHalted s t := by
  by_cases hr : s.phase = .running
  · obtain ⟨p, m, n, e⟩ := update_frame hr
    rw [e] at h; cases h; exact .inl rfl
  · rw [update_not_running hr] at h; exact phase_of_halt h

/-- How an operation moves PHASE. -/
theorem exec_phase (h : exec i s = .next t) :
    PhaseKeptOrHalted s t ∨ (i = .start ∧ s.phase = .unstarted ∧ t.phase = .running ∧ t.seq = .idle) := by
  cases i with
  | start =>
    obtain hkept | hrun := start_phase h
    · exact .inl hkept
    · exact .inr ⟨rfl, hrun⟩
  | update => exact .inl (update_phase h)
  | rd2 x y => exact .inl (rd2_phase h)
  | rd1 x y => exact .inl (rd1_phase h)
  | wr1 x y bit => exact .inl (wr1_phase h)
  | gather x y => exact .inl (gather_phase h)
  | emit x y => exact .inl (emit_phase h)
  | _ => rw [exec_frame h]; exact .inl (.inl rfl)

/-- How the sequencer's move changes PHASE: the last EMIT completes START (R123). -/
theorem seqAdvance_phase (s : State) :
    (seqAdvance s).phase = s.phase ∨
      (s.seq = .sEmit ∧ (seqAdvance s).phase = .running ∧ (seqAdvance s).seq = .idle) := by
  obtain ⟨hs, e⟩ | ⟨-, e⟩ | ⟨q, b, -, e⟩ := seqAdvance_cases s <;> rw [e]
  · obtain ⟨-, e⟩ | ⟨-, -, e⟩ | ⟨-, -, e⟩ := afterEmit_cases s <;> rw [e]
    · exact .inl rfl
    · exact .inl rfl
    · exact .inr ⟨hs, rfl, rfl⟩
  · exact .inl rfl
  · exact .inl rfl

/-- A hook's position is an operation of class U or P, never a hook (R24, R71). -/
theorem seqOperation_opClass (h : seqOperation s = some i) : i.opClass ≠ .command := by
  unfold seqOperation at h
  split at h <;> cases h <;> simp [Instr.opClass]

/-- PHASE after a step inside a hook. -/
theorem hookStep_phase {a : State} (hi : seqOperation s = some i) (hp : s.phase ≠ .halted)
    (hx : exec i s = .next a) :
    (afterOperation .sequencer a).phase = s.phase ∨ (afterOperation .sequencer a).phase = .halted ∨
      (s.phase = .unstarted ∧ (afterOperation .sequencer a).phase = .running ∧
        (afterOperation .sequencer a).seq = .idle ∧ s.seq = .sEmit) := by
  have hclass := seqOperation_opClass hi
  obtain ⟨hseq, -, -⟩ := exec_sequencer_registers hx hclass
  have hkept : PhaseKeptOrHalted s a := by
    obtain hkept | ⟨rfl, -⟩ := exec_phase hx
    · exact hkept
    · exact absurd rfl hclass
  obtain e | e | ⟨-, hrun, e⟩ := afterOperation_cases .sequencer a <;> rw [e]
  · exact hkept.imp_right .inl
  · exact hkept.imp_right .inl
  · have ha : a.phase = s.phase := hkept.resolve_right hrun
    obtain hadv | ⟨hemit, hrunning, hidle⟩ := seqAdvance_phase a
    · exact .inl (hadv.trans ha)
    · cases hs : s.phase with
      | unstarted => exact .inr (.inr ⟨rfl, hrunning, hidle, hseq.symm.trans hemit⟩)
      | running => exact .inl hrunning
      | halted => exact absurd hs hp

/-- An operation that a host event brings is followed by no move of the sequencer. -/
theorem afterOperation_of_event {src : OpSource} (h : src ≠ .sequencer) (a : State) :
    (afterOperation src a).phase = a.phase ∧ (afterOperation src a).seq = a.seq := by
  obtain e | e | ⟨hs, -, -⟩ := afterOperation_cases src a
  · rw [e]; exact ⟨rfl, rfl⟩
  · rw [e]; exact ⟨rfl, rfl⟩
  · exact absurd hs h

/-- Settles O56: PHASE moves as the operation moves it, and besides that by the last EMIT of START in progress, by a
word that the command port does not take, and by reset. -/
theorem phaseMovesOnlyAsListed : Obligations.PhaseMovesOnlyAsListed := by
  intro s t h
  obtain ⟨-, ⟨i, a, hi, hp, hx, rfl⟩ | ⟨-, -, rfl⟩ | ⟨hb, e, rest, hin, hev⟩⟩ := step_cases h
  · obtain hkept | hhalt | ⟨hun, hrun, hidle, hemit⟩ := hookStep_phase hi hp hx
    · exact .inl hkept
    · exact .inr (.inl hhalt)
    · exact .inr (.inr (.inl ⟨hun, hrun, hidle, .inl hemit⟩))
  · exact .inl rfl
  · obtain ⟨src, i, s', a, hop, hx, rfl⟩ | hsilent | ⟨why, s', -, rfl⟩ := hev
    · obtain ⟨w, rfl, hw, -, rfl, rfl⟩ | ⟨-, hclass, rfl, rfl⟩ := takeEvent_operation_cases hop
      · obtain ⟨hphase, hseq⟩ := afterOperation_of_event (src := .commandPort) nofun a
        rw [hphase, hseq, hin]
        obtain hkept | ⟨rfl, hun, hrun, hidle⟩ := exec_phase hx
        · exact hkept.imp_right .inl
        · exact .inr (.inr (.inl ⟨hun, hrun, hidle, .inr ⟨w, hw, rfl⟩⟩))
      · obtain ⟨hphase, -⟩ := afterOperation_of_event (src := .issued) nofun a
        rw [hphase]
        obtain hkept | ⟨rfl, -⟩ := exec_phase hx
        · exact hkept.imp_right .inl
        · exact absurd rfl hclass
    · obtain ⟨rfl, rfl⟩ | rfl | ⟨k, v, -, rfl⟩ | ⟨p, rfl⟩ | ⟨v, rfl⟩ := takeEvent_silent_cases hsilent
      · exact .inr (.inr (.inr ⟨hb, by rw [hin]; rfl, rfl⟩))
      all_goals exact .inl rfl
    · exact .inr (.inl rfl)

end Sys2Proof.Machine
end

section
/-! SUPPORT. Single steps and single operations of the block: the sequencer's position, the reset values, ADVANCE's
clock, GATHER's neighbourhood (R24, R37, R120, R150). -/

namespace Sys2Proof.Machine

/-- Settles O7: a step inside a hook retires the operation of SEQ's position from the sequencer. -/
theorem stepRunsSequencerPosition : Obligations.StepRunsSequencerPosition := by
  intro s i hok hp hi
  rw [step_in_hook hok hp hi]
  cases exec i s with
  | next t => rfl
  | fault r => rfl
  | refused r => rfl

/-- Settles O13. -/
theorem resetValuesOfTheSpec : Obligations.ResetValuesOfTheSpec := ⟨rfl, rfl, rfl⟩

/-- Settles O38: the new clock is the sum or the wrap value in CLOCK_BITS bits, exact when the register is wide
enough. -/
theorem advanceStepsTheClock : Obligations.AdvanceStepsTheClock := by
  refine ⟨by decide, fun s => ⟨advancedClock s.cfg s.clock, rfl, ?_, ?_⟩⟩
  · unfold advancedClock Config.storedClock
    rw [show 1 - (s.cfg.windowHeight : Int) = -(s.cfg.windowHeight : Int) + 1 by omega]
  · intro hok hfits hholds
    exact advancedClock_eq (Config.bounds_of_ok hok).2.1 hfits hholds

/-! GATHER. -/

/-- The step `(dx, dy)` to each neighbour (R16, R120). -/
def neighbourStep : Letter → Int × Int
  | .a => (-1, -1) | .b => (0, -1) | .c => (1, -1)
  | .d => (-1, 0)  | .e => (0, 0)  | .f => (1, 0)
  | .g => (-1, 1)  | .h => (0, 1)  | .i => (1, 1)

/-- The position `(x+dx, y+dy)` of neighbour `u` lies on the source grid (R102). -/
abbrev OnSourceGrid (c : Config) (x y : Nat) (u : Letter) : Prop :=
  (0 ≤ x + (neighbourStep u).1 ∧ x + (neighbourStep u).1 < c.srcW) ∧
    0 ≤ y + (neighbourStep u).2 ∧ y + (neighbourStep u).2 < c.srcH

variable {c : Config} {x y : Nat}

/-- By the flags that GATHER sets, a neighbour is present exactly when it lies on the source grid (R28, R102). -/
theorem pres_edgeFlags_iff (hx : x < c.srcW) (hy : y < c.srcH) (u : Letter) :
    pres (edgeFlags c x y) u = true ↔ OnSourceGrid c x y u := by
  cases u <;> simp [pres, edgeFlags, OnSourceGrid, neighbourStep] <;> omega

/-- Where the model reads a neighbour on the source grid is its position (R120). -/
theorem neighbourAt_eq {u : Letter} (h : OnSourceGrid c x y u) :
    neighbourAt u x y = ((x + (neighbourStep u).1).toNat, (y + (neighbourStep u).2).toNat) := by
  obtain ⟨⟨hx, -⟩, hy, -⟩ := h
  cases u <;> simp only [neighbourStep] at hx hy <;> simp only [neighbourAt, neighbourStep, Prod.mk.injEq] <;> omega

/-- The latches after GATHER, in the positions of the source grid (R120). -/
theorem gatherLatches_get_position (hx : x < c.srcW) (hy : y < c.srcH) (m : Memory) (nb : Neighbourhood)
    (r : BitVec 2) (u : Letter) :
    (gatherLatches c m (edgeFlags c x y) x y gatherOrder (nb, r)).1.get u =
      if OnSourceGrid c x y u then
        surfPixel c m (x + (neighbourStep u).1).toNat (y + (neighbourStep u).2).toNat
      else nb.get u := by
  rw [gatherLatches_get]
  by_cases hu : OnSourceGrid c x y u
  · rw [if_pos ((pres_edgeFlags_iff hx hy u).mpr hu), if_pos hu, neighbourAt_eq hu]
  · rw [if_neg (fun h => hu ((pres_edgeFlags_iff hx hy u).mp h)), if_neg hu]

/-- The last neighbour in GATHER's order that is present, is present: the centre always is (R102). -/
theorem pres_lastPresent (e : EdgeFlags) : pres e (lastPresent e) = true := by
  unfold lastPresent
  split
  · assumption
  · split
    · assumption
    · split
      · assumption
      · rfl

/-- RES after GATHER is the latch of the last neighbour read (R120). -/
theorem gatherLatches_res_eq_get (m : Memory) (e : EdgeFlags) (nb : Neighbourhood) (r : BitVec 2) :
    (gatherLatches c m e x y gatherOrder (nb, r)).2 =
      (gatherLatches c m e x y gatherOrder (nb, r)).1.get (lastPresent e) := by
  rw [gatherLatches_res, gatherLatches_get, if_pos (pres_lastPresent e)]

/-- Settles O28: the flags are those of the source grid, and the latches follow them. -/
theorem gatherLoadsPresentNeighbours : Obligations.GatherLoadsPresentNeighbours := by
  intro x y s hok hx hy
  obtain ⟨hW, hH⟩ := Config.src_le_screen_of_ok hok
  have hg := congrArg Result.outcome (gather_of_range hx hy hW hH)
  refine ⟨_, hg, rfl, rfl, ?_, rfl, ?_, ?_, gatherLatches_res_eq_get _ _ _ _⟩
  · exact decide_eq_decide.mpr (by omega)
  · exact decide_eq_decide.mpr (by omega)
  · intro u dx dy hmem
    obtain ⟨rfl, rfl⟩ : dx = (neighbourStep u).1 ∧ dy = (neighbourStep u).2 := by
      cases u <;> simpa [neighbourStep] using hmem
    exact ⟨pres_edgeFlags_iff hx hy u, gatherLatches_get_position hx hy s.surf s.nb s.res u⟩

end Sys2Proof.Machine
end

section
/-! SUPPORT. The invariant of the machine: every operation, every move of the sequencer and every host event keeps it
(R22, R24, R50, R56, R152). -/

namespace Sys2Proof.Machine

variable {i : Instr} {s t : State}

/-! The memories (R50, R56). -/

/-- Drawing keeps the surface in its buffer. -/
theorem draw_memoryOk (h : s.MemoryOk) (dots : List Dot) : (s.draw dots).MemoryOk := by
  obtain ⟨hmwf, hmin, hswf, hsin⟩ := h
  exact ⟨hmwf, hmin, drawDots_wf hswf dots, drawDots_within hsin dots⟩

theorem composite_memoryOk (h : s.MemoryOk) (hx : composite s = .done t) : t.MemoryOk := by
  obtain ⟨hmwf, hmin, hswf, hsin⟩ := h
  rw [composite_eq] at hx
  cases hx
  exact ⟨hmwf, hmin, drawDots_wf hswf _, drawDots_within hsin _⟩

theorem palupd_memoryOk (h : s.MemoryOk) : (palupd s).MemoryOk := by
  obtain ⟨p, e⟩ := palupd_frame s
  rw [e]; exact h

theorem palupd_cfg (s : State) : (palupd s).cfg = s.cfg := exec_cfg (i := .palupd) (t := palupd s) rfl

theorem stripes_memoryOk (hok : s.cfg.Ok) (h : s.MemoryOk) : (stripes s).MemoryOk := by
  obtain ⟨hmwf, hmin, hswf, hsin⟩ := h
  obtain ⟨hsame, hwf, hin, -⟩ := stripes_spec hok.1.1 hswf hsin
  rw [hsame]
  exact ⟨hmwf, hmin, hwf, hin⟩

theorem update_memoryOk (hok : s.cfg.Ok) (h : s.MemoryOk) (hx : (update s).outcome = .next t) : t.MemoryOk := by
  by_cases hr : s.phase = .running
  · rw [update_running hr] at hx
    obtain ⟨a, ha, hta⟩ | ⟨why, hhalt⟩ := Result.andThen_outcome_next hx
    · have hpal : (palupd (s.setSeq .uPalupd)).MemoryOk := palupd_memoryOk h
      have hstr : (stripes ((palupd (s.setSeq .uPalupd)).setSeq .uStripes)).MemoryOk :=
        stripes_memoryOk (by rw [State.setSeq_cfg, palupd_cfg]; exact hok) hpal
      have hcomp : a.MemoryOk := composite_memoryOk (s := State.setSeq _ .uComposite) hstr ha
      cases hta
      exact hcomp
    · rw [composite_eq] at hhalt; cases hhalt
  · rw [update_not_running hr] at hx; cases hx; exact h

theorem wr1_memoryOk {x y : Nat} {b : Bool} (h : s.MemoryOk) (hx : (wr1 x y b s).outcome = .next t) :
    t.MemoryOk := by
  obtain ⟨hmwf, hmin, hsurf⟩ := h
  obtain ⟨hxW, hyH, e⟩ | ⟨-, e⟩ := wr1_cases x y b s <;> rw [e] at hx <;> cases hx
  · exact ⟨maskPut_wf hmwf x y b, maskPut_within hmin hxW hyH b, hsurf⟩
  · exact ⟨hmwf, hmin, hsurf⟩

theorem emit_memoryOk {x y : Nat} (h : s.MemoryOk) (hx : (emit x y s).outcome = .next t) : t.MemoryOk := by
  unfold emit at hx
  split at hx
  · exact runAll_related (R := fun a b => a.MemoryOk → b.MemoryOk) (fun _ => id) (fun _ _ _ hab hbc ha => hbc (hab ha))
      (fun _ _ _ hturn ha => wr1_memoryOk ha hturn) hx h
  · cases hx; exact h

/-- START from UNSTARTED is done: its loop visits the source grid only (R123, R126). -/
theorem start_done (hok : s.cfg.Ok) (h : s.MemoryOk) (hp : s.phase = .unstarted) :
    ∃ a : State, start s = .done ((a.setPhase .running).setSeq .idle) ∧ a.MemoryOk := by
  obtain ⟨hmwf, hmin, hswf, hsin⟩ := h
  obtain ⟨hW, hH⟩ := Config.src_le_screen_of_ok hok
  have hscan := runAll_scanPixel (ps := scanOrder s.cfg) (s := startPrimitives s)
  rw [startPrimitives_eq] at hscan
  obtain ⟨a, ha, hsame, hwf, hin, -⟩ := hscan (fun p hp => mem_scanOrder.mp hp) hW hH hmwf hmin
  refine ⟨a, ?_, ?_⟩
  · unfold start
    rw [if_pos hp, startPrimitives_eq, ha]
    rfl
  · rw [hsame]
    exact ⟨hwf, hin, drawDots_wf hswf _, drawDots_within hsin _⟩

/-- Every operation keeps both memories canonical and inside their buffers. -/
theorem exec_memoryOk (hok : s.cfg.Ok) (h : s.MemoryOk) (hx : exec i s = .next t) : t.MemoryOk := by
  cases i with
  | start =>
    change (start s).outcome = .next t at hx
    by_cases hp : s.phase = .unstarted
    · obtain ⟨a, e, ha⟩ := start_done hok h hp
      rw [e] at hx; cases hx; exact ha
    · rw [start, if_neg hp] at hx; cases hx; exact h
  | update => exact update_memoryOk hok h hx
  | wr1 x y bit => exact wr1_memoryOk h hx
  | emit x y => exact emit_memoryOk h hx
  | stripes => cases hx; exact stripes_memoryOk hok h
  | composite =>
    obtain ⟨a, ha⟩ : ∃ a, composite s = .done a := ⟨_, composite_eq s⟩
    change (composite s).outcome = .next t at hx
    rw [ha] at hx; cases hx; exact composite_memoryOk h ha
  | text x y => cases hx; exact draw_memoryOk (s := s.request _) h _
  | hline x y len => cases hx; exact draw_memoryOk (s := s.request _) h _
  | blit1 x y w h' =>
    change (blit1 x y w h' s).outcome = .next t at hx
    unfold blit1 at hx
    split at hx <;> cases hx
    exact draw_memoryOk (s := s.request _) h _
  | rd2 _ _ | rd1 _ _ | gather _ _ | s3x | palupd | advance | setpal _ _ | setdc _ =>
    rw [exec_frame hx]; exact h

/-! The clock (R152). -/

/-- A clock in the window of R152 is one that its register holds. -/
theorem clockHolds_of_clockOk (hf : s.cfg.FitsFields) (h : s.ClockOk) : s.cfg.ClockHolds s.clock :=
  Config.clockHolds_of_between hf.2.2.1 hf.2.2.2 h.1 h.2

/-- ADVANCE's clock is in the window of R152. -/
theorem advancedClock_clockOk (hok : s.cfg.Ok) (hf : s.cfg.FitsFields) (h : s.ClockOk) :
    (s.setClock (advancedClock s.cfg s.clock)).ClockOk := by
  obtain ⟨-, hwh, -⟩ := Config.derived_of_ok hok
  obtain ⟨hsh, hspeed, -, -, -, hscreen, -⟩ := Config.bounds_of_ok hok
  have hclock := advancedClock_eq hspeed hf.2.2 (clockHolds_of_clockOk hf h)
  obtain ⟨hlow, hhigh⟩ := h
  unfold State.ClockOk
  rw [State.setClock_clock, State.setClock_cfg, hclock]
  split <;> omega

/-- Every operation keeps the clock in its window. -/
theorem exec_clockOk (hok : s.cfg.Ok) (hf : s.cfg.FitsFields) (h : s.ClockOk) (hx : exec i s = .next t) :
    t.ClockOk := by
  cases i with
  | advance => cases hx; exact advancedClock_clockOk hok hf h
  | update =>
    change (update s).outcome = .next t at hx
    by_cases hr : s.phase = .running
    · obtain ⟨p, m, n, e⟩ := update_frame hr
      rw [e] at hx; cases hx; exact advancedClock_clockOk hok hf h
    · rw [update_not_running hr] at hx; cases hx; exact h
  | _ => rw [exec_frame hx]; exact h

/-! The sequencer (R22, R24, R26). -/

/-- In IDLE no hook is in progress. -/
theorem sequencerOk_of_idle (h : s.seq = .idle) : s.SequencerOk := by
  unfold State.SequencerOk; rw [h]; exact ⟨nofun, nofun, nofun⟩

/-- SEQ and the counters stay and the phase is kept, or the block halts: the hook in progress stays a legal one. -/
theorem sequencerOk_of_kept (h : s.SequencerOk) (hcfg : t.cfg = s.cfg) (hseq : t.seq = s.seq) (hx : t.x = s.x)
    (hy : t.y = s.y) (hphase : PhaseKeptOrHalted s t) : t.SequencerOk := by
  obtain ⟨hstart, hupdate, hscan⟩ := h
  unfold State.SequencerOk
  rw [hcfg, hseq, hx, hy]
  obtain e | e := hphase <;> rw [e]
  · exact ⟨hstart, hupdate, hscan⟩
  · exact ⟨fun _ => .inr rfl, fun _ => .inr rfl, hscan⟩

/-- Every operation leaves a hook in progress that is legal, or none. -/
theorem exec_sequencerOk (hok : s.cfg.Ok) (hmem : s.MemoryOk) (h : s.SequencerOk) (hx : exec i s = .next t) :
    t.SequencerOk := by
  by_cases hi : i.opClass = .command
  · cases i with
    | start =>
      change (start s).outcome = .next t at hx
      by_cases hp : s.phase = .unstarted
      · obtain ⟨a, e, -⟩ := start_done hok hmem hp
        rw [e] at hx; cases hx; exact sequencerOk_of_idle rfl
      · rw [start, if_neg hp] at hx; cases hx
        exact sequencerOk_of_kept h rfl rfl rfl rfl (.inr rfl)
    | update =>
      change (update s).outcome = .next t at hx
      by_cases hr : s.phase = .running
      · obtain ⟨p, m, n, e⟩ := update_frame hr
        rw [e] at hx; cases hx; exact sequencerOk_of_idle rfl
      · rw [update_not_running hr] at hx; cases hx
        exact sequencerOk_of_kept h rfl rfl rfl rfl (.inr rfl)
    | _ => exact absurd hi (by simp [Instr.opClass])
  · obtain ⟨hseq, hxx, hyy⟩ := exec_sequencer_registers hx hi
    refine sequencerOk_of_kept h (exec_cfg hx) hseq hxx hyy ?_
    obtain hkept | ⟨rfl, -⟩ := exec_phase hx
    · exact hkept
    · exact absurd rfl hi

/-- The counters that the sequencer sets lie on the source grid when the numbers set do: 16 bits only lower them. -/
theorem setCounters_toNat_le (s : State) (x y : Nat) :
    (s.setCounters x y).x.toNat ≤ x ∧ (s.setCounters x y).y.toNat ≤ y := by
  simp only [State.setCounters, BitVec.toNat_ofNat]
  exact ⟨Nat.mod_le _ _, Nat.mod_le _ _⟩

/-- START's loop at a pixel of the source grid is a legal hook in progress. -/
theorem scanPosition_sequencerOk {x y : Nat} (hp : s.phase = .unstarted ∨ s.phase = .halted) (hx : x < s.cfg.srcW)
    (hy : y < s.cfg.srcH) : ((s.setCounters x y).setSeq .sGather).SequencerOk := by
  obtain ⟨hxle, hyle⟩ := setCounters_toNat_le s x y
  exact ⟨fun _ => hp, nofun, fun _ => ⟨lt_of_le_of_lt hxle hx, lt_of_le_of_lt hyle hy⟩⟩

/-- The sequencer's move keeps the hook in progress legal, its counters on the source grid. -/
theorem seqAdvance_sequencerOk (hok : s.cfg.Ok) (h : s.SequencerOk) : (seqAdvance s).SequencerOk := by
  obtain ⟨hstart, hupdate, hscan⟩ := h
  obtain ⟨hs, e⟩ | ⟨hs, e⟩ | ⟨q, b, ⟨hqs, hqu, hqc⟩, e⟩ := seqAdvance_cases s <;> rw [e]
  · rw [hs] at hstart hscan
    obtain ⟨-, hy⟩ := hscan rfl
    obtain ⟨hx', e⟩ | ⟨-, hy', e⟩ | ⟨-, -, e⟩ := afterEmit_cases s <;> rw [e]
    · exact scanPosition_sequencerOk (hstart rfl) hx' hy
    · exact scanPosition_sequencerOk (hstart rfl) (by omega) hy'
    · exact sequencerOk_of_idle rfl
  · rw [hs] at hstart
    obtain ⟨-, -, hW, hH, -⟩ := Config.derived_of_ok hok
    obtain ⟨-, -, -, hn, -⟩ := Config.bounds_of_ok hok
    exact scanPosition_sequencerOk (hstart rfl) (by omega) (by omega)
  · exact ⟨fun hq => hstart (hqs hq), fun hq => hupdate (hqu hq), fun hq => hscan (hqc hq)⟩

/-! The invariant. -/

/-- Every operation keeps the invariant. -/
theorem exec_inv (h : s.Inv) (hx : exec i s = .next t) : t.Inv := by
  obtain ⟨hok, hfits, hmem, hclock, hseq⟩ := h
  refine ⟨?_, ?_, exec_memoryOk hok hmem hx, exec_clockOk hok hfits hclock hx, exec_sequencerOk hok hmem hseq hx⟩
  · rw [exec_cfg hx]; exact hok
  · rw [exec_cfg hx]; exact hfits

/-- The sequencer's move writes neither memory nor the clock. -/
theorem seqAdvance_memories_clock (s : State) :
    (seqAdvance s).mask = s.mask ∧ (seqAdvance s).surf = s.surf ∧ (seqAdvance s).clock = s.clock := by
  obtain ⟨-, e⟩ | ⟨-, e⟩ | ⟨q, b, -, e⟩ := seqAdvance_cases s <;> rw [e]
  · obtain ⟨-, e⟩ | ⟨-, -, e⟩ | ⟨-, -, e⟩ := afterEmit_cases s <;> rw [e] <;> exact ⟨rfl, rfl, rfl⟩
  · exact ⟨rfl, rfl, rfl⟩
  · exact ⟨rfl, rfl, rfl⟩

theorem seqAdvance_inv (h : s.Inv) : (seqAdvance s).Inv := by
  obtain ⟨hok, hfits, hmem, hclock, hseq⟩ := h
  obtain ⟨hmask, hsurf, hclk⟩ := seqAdvance_memories_clock s
  refine ⟨?_, ?_, ?_, ?_, seqAdvance_sequencerOk hok hseq⟩
  · rw [seqAdvance_cfg]; exact hok
  · rw [seqAdvance_cfg]; exact hfits
  · rw [State.MemoryOk, hmask, hsurf, seqAdvance_cfg]; exact hmem
  · rw [State.ClockOk, hclk, seqAdvance_cfg]; exact hclock

theorem afterOperation_inv (h : s.Inv) (src : OpSource) : (afterOperation src s).Inv := by
  obtain e | e | ⟨-, -, e⟩ := afterOperation_cases src s <;> rw [e]
  · exact h
  · exact h
  · exact seqAdvance_inv h

theorem setPhase_halted_inv (h : s.Inv) : (s.setPhase .halted).Inv := by
  obtain ⟨hok, hfits, hmem, hclock, hseq⟩ := h
  exact ⟨hok, hfits, hmem, hclock, sequencerOk_of_kept hseq rfl rfl rfl rfl (.inr rfl)⟩

/-- Reset puts the clock at 0, which is in the window, and empties the mask (R220, log 16). -/
theorem resetBlock_inv (h : s.Inv) : (resetBlock s).Inv := by
  obtain ⟨hok, hfits, ⟨-, -, hswf, hsin⟩, -, -⟩ := h
  obtain ⟨-, hwh, -⟩ := Config.derived_of_ok hok
  obtain ⟨hsh, -, -, -, -, hscreen, -⟩ := Config.bounds_of_ok hok
  refine ⟨hok, hfits, ⟨⟨.nil, nofun⟩, nofun, hswf, hsin⟩, ?_, sequencerOk_of_idle rfl⟩
  change 1 - (s.cfg.windowHeight : Int) ≤ 0 ∧ (0 : Int) ≤ (s.cfg.screenH : Int) - 1
  omega

/-- What the host does to its own state, or reset, keeps the invariant (R181, R220). -/
theorem takeEvent_silent_inv {e : HostEvent} (h : s.Inv) (he : takeEvent e s = .silent t) : t.Inv := by
  obtain ⟨-, rfl⟩ | rfl | ⟨k, v, hk, rfl⟩ | ⟨p, rfl⟩ | ⟨v, rfl⟩ := takeEvent_silent_cases he
  · exact resetBlock_inv h
  · exact h
  · obtain ⟨hok, hfits, ⟨hmwf, hmin, hswf, hsin⟩, hclock, hseq⟩ := h
    exact ⟨hok, hfits, ⟨hmwf, hmin, Memory.wf_write hswf k v, Memory.within_write hsin hk v⟩, hclock, hseq⟩
  · exact h
  · exact h

/-- Settles O52: a step is an operation and what follows it, or a wait, or a host event; each keeps the invariant, and
so does taking the event off the queue. -/
theorem stepKeepsTheInvariant : Obligations.StepKeepsTheInvariant := by
  intro s t h hstep
  obtain ⟨-, ⟨i, a, -, -, hx, rfl⟩ | ⟨-, -, rfl⟩ | ⟨-, e, rest, -, hev⟩⟩ := step_cases hstep
  · exact afterOperation_inv (exec_inv h hx) _
  · exact h
  · have htaken : (s.setInputs rest).Inv := h
    obtain ⟨src, i, s', a, hop, hx, rfl⟩ | hsilent | ⟨why, s', hill, rfl⟩ := hev
    · have hs' : s'.Inv := by
        obtain ⟨w, -, -, -, -, rfl⟩ | ⟨-, -, -, rfl⟩ := takeEvent_operation_cases hop <;> exact htaken
      exact afterOperation_inv (exec_inv hs' hx) src
    · exact takeEvent_silent_inv htaken hsilent
    · have hs' : s'.Inv := by rw [takeEvent_illegal hill]; exact htaken
      exact setPhase_halted_inv hs'

/-- Settles O53: both memories are empty, the clock is 0 and no hook is in progress. -/
theorem resetMeetsTheInvariant : Obligations.ResetMeetsTheInvariant :=
  ⟨by decide, by decide, ⟨⟨.nil, nofun⟩, nofun, ⟨.nil, nofun⟩, nofun⟩, by decide, sequencerOk_of_idle rfl⟩

end Sys2Proof.Machine
end

section
/-! SUPPORT. The two forms of a hook: the sequencer, one position a step, ends where the operation ends (R24, R123,
R124, R153, log 12). -/

namespace Sys2Proof.Machine

/-! Runs. -/

variable {s a : State} {i : Instr}

/-- The first step of a run. -/
theorem run_succ (h : step s = .next a) (k : Nat) :
    Host.Core.run Sys2Proof.core (k + 1) s = Host.Core.run Sys2Proof.core k a := by
  have h' : Sys2Proof.core.step s = .next a := h
  simp only [Host.Core.run, h']

/-- A run in two parts. -/
theorem run_add {j : Nat} (h : Host.Core.run Sys2Proof.core j s = .next a) (k : Nat) :
    Host.Core.run Sys2Proof.core (j + k) s = Host.Core.run Sys2Proof.core k a := by
  induction j generalizing s with
  | zero => cases h; rw [Nat.zero_add]
  | succ j ih =>
    simp only [Host.Core.run] at h
    split at h
    · rename_i b hs
      rw [Nat.succ_add, run_succ hs, ih h]
    · cases h
    · cases h

/-! One position. -/

/-- The block performs the position of its hook: the parameters are admitted and it has not halted. -/
abbrev State.Live (s : State) : Prop := s.cfg.Ok ∧ s.phase ≠ .halted

/-- The constants, PHASE and SEQ, which say what the next step of a hook does, are the same. -/
structure SameHook (s t : State) : Prop where
  cfg : t.cfg = s.cfg
  phase : t.phase = s.phase
  seq : t.seq = s.seq

theorem State.Live.setSeq (h : s.Live) (q : Seq) : (s.setSeq q).Live := h

theorem SameHook.live (h : SameHook s a) (hs : s.Live) : a.Live := by
  rw [State.Live, h.cfg, h.phase]; exact hs

/-- A step at a position of a hook whose operation is done (R24). -/
theorem step_position (hs : s.Live) (hi : seqOperation s = some i) (hx : exec i s = .next a) (h : SameHook s a) :
    step s = .next (seqAdvance a) := by
  obtain ⟨hok, hp⟩ := hs
  rw [stepRunsSequencerPosition s i hok hp hi, hx]
  exact congrArg Host.Outcome.next (if_neg (h.live ⟨hok, hp⟩).2)

theorem State.setSeq_of_eq {q : Seq} (h : s.seq = q) : s.setSeq q = s := by rw [← h]; rfl

/-! UPDATE. -/

theorem palupd_sameHook (s : State) : SameHook s (palupd s) := by
  obtain ⟨p, e⟩ := palupd_frame s
  rw [e]; exact ⟨rfl, rfl, rfl⟩

theorem stripes_sameHook (s : State) : SameHook s (stripes s) := by
  obtain ⟨m, d, n, e⟩ := stripes_frame s
  rw [e]; exact ⟨rfl, rfl, rfl⟩

theorem composite_sameHook (s : State) : ∃ a, composite s = .done a ∧ SameHook s a :=
  ⟨_, composite_eq s, ⟨rfl, rfl, rfl⟩⟩

theorem step_at_uPalupd (hs : s.Live) (hq : s.seq = .uPalupd) : step s = .next ((palupd s).setSeq .uStripes) := by
  have hsame := palupd_sameHook s
  rw [step_position hs (by rw [seqOperation, hq]) rfl hsame, seqAdvance, hsame.seq, hq]

theorem step_at_uStripes (hs : s.Live) (hq : s.seq = .uStripes) :
    step s = .next ((stripes s).setSeq .uComposite) := by
  have hsame := stripes_sameHook s
  rw [step_position hs (by rw [seqOperation, hq]) rfl hsame, seqAdvance, hsame.seq, hq]

theorem step_at_uComposite (hs : s.Live) (hq : s.seq = .uComposite) (ha : composite s = .done a)
    (hsame : SameHook s a) : step s = .next (a.setSeq .uAdvance) := by
  rw [step_position hs (i := .composite) (by rw [seqOperation, hq]) (congrArg Result.outcome ha) hsame, seqAdvance,
    hsame.seq, hq]

theorem step_at_uAdvance (hs : s.Live) (hq : s.seq = .uAdvance) :
    step s = .next (completeCommand ((advance s).setSeq .idle)) := by
  have hsame : SameHook s (advance s) := ⟨rfl, rfl, rfl⟩
  rw [step_position hs (i := .advance) (by rw [seqOperation, hq]) rfl hsame, seqAdvance, hsame.seq, hq]

/-- Settles O44: the states between the four steps are those between the four operations of UPDATE. -/
theorem updateRunsThroughSequencer : Obligations.UpdateRunsThroughSequencer := by
  intro s hok hp hs
  have hupdate := congrArg Result.outcome (update_running hp)
  rw [State.setSeq_of_eq hs] at hupdate
  have hlive : s.Live := ⟨hok, by rw [hp]; nofun⟩
  have hlive1 := ((palupd_sameHook s).live hlive).setSeq .uStripes
  have hlive2 := ((stripes_sameHook _).live hlive1).setSeq .uComposite
  obtain ⟨a, ha, hsame⟩ := composite_sameHook ((stripes ((palupd s).setSeq .uStripes)).setSeq .uComposite)
  have hlive3 := (hsame.live hlive2).setSeq .uAdvance
  rw [ha] at hupdate
  refine ⟨_, hupdate, ?_⟩
  rw [run_succ (step_at_uPalupd hlive hs), run_succ (step_at_uStripes hlive1 rfl),
    run_succ (step_at_uComposite hlive2 rfl ha hsame), run_succ (step_at_uAdvance hlive3 rfl)]
  rfl

/-! START. -/

/-- The source pixels that START's loop still visits when it is at `(x, y)`: the rest of row `y`, then the rows below
(R124). -/
def scanRest (c : Config) (x y : Nat) : List (Nat × Nat) :=
  ((List.range' x (c.srcW - x)).map fun x => (x, y)) ++
    (List.range' (y + 1) (c.srcH - (y + 1))).flatMap fun y => (List.range c.srcW).map fun x => (x, y)

/-- From the first source pixel on, the loop visits them all, in START's order. -/
theorem scanRest_zero {c : Config} (h : 0 < c.srcH) : scanRest c 0 0 = scanOrder c := by
  obtain ⟨k, hk⟩ := Nat.exists_eq_add_of_lt h
  rw [scanRest, scanOrder, hk]
  simp [List.range_eq_range', List.range'_succ]

/-- The pixel at hand and what follows it, in the three cases of the sequencer's loop (`afterEmit_cases`). -/
theorem scanRest_cases {c : Config} {x y : Nat} (hx : x < c.srcW) (hy : y < c.srcH) :
    (x + 1 < c.srcW ∧ scanRest c x y = (x, y) :: scanRest c (x + 1) y) ∨
    (¬ x + 1 < c.srcW ∧ y + 1 < c.srcH ∧ scanRest c x y = (x, y) :: scanRest c 0 (y + 1)) ∨
    (¬ x + 1 < c.srcW ∧ ¬ y + 1 < c.srcH ∧ scanRest c x y = [(x, y)]) := by
  have hrow : List.range' x (c.srcW - x) = x :: List.range' (x + 1) (c.srcW - (x + 1)) := by
    rw [show c.srcW - x = (c.srcW - (x + 1)) + 1 by omega, List.range'_succ]
  by_cases hx1 : x + 1 < c.srcW
  · exact .inl ⟨hx1, by simp [scanRest, hrow]⟩
  · have hend : c.srcW - (x + 1) = 0 := by omega
    by_cases hy1 : y + 1 < c.srcH
    · refine .inr (.inl ⟨hx1, hy1, ?_⟩)
      have hrows : c.srcH - (y + 1) = (c.srcH - (y + 1 + 1)) + 1 := by omega
      simp [scanRest, hrow, hend, hrows, List.range'_succ, List.range_eq_range']
    · refine .inr (.inr ⟨hx1, hy1, ?_⟩)
      have hrows : c.srcH - (y + 1) = 0 := by omega
      simp [scanRest, hrow, hend, hrows]

theorem length_scanOrder (c : Config) : (scanOrder c).length = c.srcW * c.srcH := by
  simp [scanOrder, List.length_flatMap, Nat.mul_comm]

/-- GATHER on the source grid, done (R120, R126). -/
theorem gather_done {x y : Nat} (hok : s.cfg.Ok) (hx : x < s.cfg.srcW) (hy : y < s.cfg.srcH) :
    ∃ a, gather x y s = .done a ∧ SameHook s a ∧ a.x = s.x ∧ a.y = s.y := by
  obtain ⟨hW, hH⟩ := Config.src_le_screen_of_ok hok
  exact ⟨_, gather_of_range hx hy hW hH, ⟨rfl, rfl, rfl⟩, rfl, rfl⟩

theorem step_at_sGather (hs : s.Live) (hq : s.seq = .sGather) (ha : gather s.x.toNat s.y.toNat s = .done a)
    (hsame : SameHook s a) : step s = .next (a.setSeq .sS3x) := by
  rw [step_position hs (i := .gather _ _) (by rw [seqOperation, hq]) (congrArg Result.outcome ha) hsame, seqAdvance,
    hsame.seq, hq]

theorem s3x_sameHook (s : State) : SameHook s (s3x s) := ⟨rfl, rfl, rfl⟩

theorem step_at_sS3x (hs : s.Live) (hq : s.seq = .sS3x) : step s = .next ((s3x s).setSeq .sEmit) := by
  have hsame := s3x_sameHook s
  rw [step_position hs (i := .s3x) (by rw [seqOperation, hq]) rfl hsame, seqAdvance, hsame.seq, hq]

theorem step_at_sEmit (hs : s.Live) (hq : s.seq = .sEmit) (ha : emit s.x.toNat s.y.toNat s = .done a)
    (hsame : SameHook s a) : step s = .next (afterEmit a) := by
  rw [step_position hs (i := .emit _ _) (by rw [seqOperation, hq]) (congrArg Result.outcome ha) hsame, seqAdvance,
    hsame.seq, hq]

/-- EMIT on the source grid, done (R121, R126). -/
theorem emit_done {x y : Nat} (hx : x < s.cfg.srcW) (hy : y < s.cfg.srcH) :
    ∃ a, emit x y s = .done a ∧ SameHook s a ∧ a.x = s.x ∧ a.y = s.y :=
  ⟨_, emit_of_range hx hy, ⟨rfl, rfl, rfl⟩, rfl, rfl⟩

/-- One turn of the loop: the three steps from GATHER end, but for the sequencer's move, where START's turn ends. -/
theorem scanTurn_runs {x y : Nat} (hs : s.Live) (hx : x < s.cfg.srcW) (hy : y < s.cfg.srcH) (hx16 : x < 65536)
    (hy16 : y < 65536) :
    ∃ e, scanPixel (x, y) s = .done e ∧ e.cfg = s.cfg ∧ e.phase = s.phase ∧ e.x.toNat = x ∧ e.y.toNat = y ∧
      Host.Core.run Sys2Proof.core 3 ((s.setCounters x y).setSeq .sGather) = .next (afterEmit e) := by
  have hxx : ((s.setCounters x y).setSeq .sGather).x.toNat = x := Nat.mod_eq_of_lt hx16
  have hyy : ((s.setCounters x y).setSeq .sGather).y.toNat = y := Nat.mod_eq_of_lt hy16
  unfold scanPixel
  generalize hv : (s.setCounters x y).setSeq .sGather = v at hxx hyy
  have hvhook : v.Live ∧ v.seq = .sGather ∧ v.cfg = s.cfg ∧ v.phase = s.phase := by
    subst hv; exact ⟨hs, rfl, rfl, rfl⟩
  obtain ⟨hlive, hq, hcfg, hphase⟩ := hvhook
  rw [← hcfg] at hx hy
  obtain ⟨g, hg, hsame, hgx, hgy⟩ := gather_done hlive.1 hx hy
  have hlive1 := (hsame.live hlive).setSeq .sS3x
  have hlive2 := ((s3x_sameHook _).live hlive1).setSeq .sEmit
  rw [← hsame.cfg] at hx hy
  obtain ⟨e, he, hsame', hex, hey⟩ := emit_done (s := (s3x (g.setSeq .sS3x)).setSeq .sEmit) hx hy
  have hemit : emit g.x.toNat g.y.toNat ((s3x (g.setSeq .sS3x)).setSeq .sEmit) = .done e := by
    rw [hgx, hgy, hxx, hyy]; exact he
  refine ⟨e, ?_, ?_, ?_, ?_, ?_, ?_⟩
  · rw [hg]; exact he
  · exact hsame'.cfg.trans (hsame.cfg.trans hcfg)
  · exact hsame'.phase.trans (hsame.phase.trans hphase)
  · rw [hex]; exact (congrArg BitVec.toNat hgx).trans hxx
  · rw [hey]; exact (congrArg BitVec.toNat hgy).trans hyy
  · rw [run_succ (step_at_sGather hlive hq (by rw [hxx, hyy]; exact hg) hsame), run_succ (step_at_sS3x hlive1 rfl),
      run_succ (step_at_sEmit hlive2 rfl hemit hsame')]
    rfl

/-- The sequencer's loop goes on at the next pixel that START visits, or completes the hook when there is none. -/
theorem afterEmit_scanRest (hx : s.x.toNat < s.cfg.srcW) (hy : s.y.toNat < s.cfg.srcH) :
    (∃ x y, x < s.cfg.srcW ∧ y < s.cfg.srcH ∧
      scanRest s.cfg s.x.toNat s.y.toNat = (s.x.toNat, s.y.toNat) :: scanRest s.cfg x y ∧
      afterEmit s = (s.setCounters x y).setSeq .sGather) ∨
    (scanRest s.cfg s.x.toNat s.y.toNat = [(s.x.toNat, s.y.toNat)] ∧
      afterEmit s = completeCommand ((s.setPhase .running).setSeq .idle)) := by
  unfold afterEmit
  obtain ⟨hx1, h⟩ | ⟨hx1, hy1, h⟩ | ⟨hx1, hy1, h⟩ := scanRest_cases hx hy
  · exact .inl ⟨_, _, hx1, hy, h, if_pos hx1⟩
  · exact .inl ⟨_, _, by omega, hy1, h, by rw [if_neg hx1, if_pos hy1]⟩
  · exact .inr ⟨h, by rw [if_neg hx1, if_neg hy1]⟩

/-- The loop from source pixel `(x, y)` on: three steps a pixel end where START's loop over the same pixels ends, and
then the hook completes (R123, R124). -/
theorem scan_runs {ps : List (Nat × Nat)} {x y : Nat} (hps : scanRest s.cfg x y = ps) (hs : s.Live)
    (hx : x < s.cfg.srcW) (hy : y < s.cfg.srcH) (hW : s.cfg.srcW ≤ 65536) (hH : s.cfg.srcH ≤ 65536) :
    ∃ e, runAll scanPixel ps s = .done e ∧
      Host.Core.run Sys2Proof.core (3 * ps.length) ((s.setCounters x y).setSeq .sGather) =
        .next (completeCommand ((e.setPhase .running).setSeq .idle)) := by
  induction ps generalizing s x y with
  | nil => obtain ⟨-, h⟩ | ⟨-, -, h⟩ | ⟨-, -, h⟩ := scanRest_cases hx hy <;> rw [h] at hps <;> cases hps
  | cons p ps ih =>
    obtain ⟨a, ha, hcfg, hphase, hax, hay, hrun⟩ := scanTurn_runs hs hx hy (by omega) (by omega)
    have halive : a.Live := by rw [State.Live, hcfg, hphase]; exact hs
    rw [← hcfg] at hps hx hy hW hH
    have hloop := afterEmit_scanRest (by rw [hax]; exact hx) (by rw [hay]; exact hy)
    rw [hax, hay, hps] at hloop
    obtain ⟨x', y', hx', hy', hnext, hadv⟩ | ⟨hnext, hadv⟩ := hloop <;> cases hnext
    · obtain ⟨e, he, hrest⟩ := ih rfl halive hx' hy' hW hH
      refine ⟨e, by rw [runAll_cons, ha]; exact he, ?_⟩
      rw [List.length_cons, Nat.mul_succ, Nat.add_comm, run_add hrun, hadv, hrest]
    · exact ⟨a, by rw [runAll_cons, ha]; rfl, by rw [← hadv]; exact hrun⟩

theorem setpal_sameHook (slot : BitVec 2) (rgb : Colour) (s : State) : SameHook s (setpal slot rgb s) :=
  ⟨rfl, rfl, rfl⟩

theorem setdc_sameHook (value : DrawColour) (s : State) : SameHook s (setdc value s) := ⟨rfl, rfl, rfl⟩

theorem step_at_sPal0 (hs : s.Live) (hq : s.seq = .sPal0) :
    step s = .next ((setpal 0 s.cfg.bgColor s).setSeq .sDc) := by
  have hsame := setpal_sameHook 0 s.cfg.bgColor s
  rw [step_position hs (i := .setpal _ _) (by rw [seqOperation, hq]) rfl hsame, seqAdvance, hsame.seq, hq]

theorem step_at_sDc (hs : s.Live) (hq : s.seq = .sDc) : step s = .next ((setdc s.cfg.textDc s).setSeq .sText) := by
  have hsame := setdc_sameHook s.cfg.textDc s
  rw [step_position hs (i := .setdc _) (by rw [seqOperation, hq]) rfl hsame, seqAdvance, hsame.seq, hq]

theorem step_at_sText (hs : s.Live) (hq : s.seq = .sText) :
    step s = .next (((text 0 0 s).setCounters 0 0).setSeq .sGather) := by
  have hsame : SameHook s (text 0 0 s) := ⟨rfl, rfl, rfl⟩
  rw [step_position hs (i := .text _ _) (by rw [seqOperation, hq]) rfl hsame, seqAdvance, hsame.seq, hq]

/-- The first three steps of START are its three primitives, and lead to the first source pixel (R123). -/
theorem startPrimitives_runs (hs : s.Live) (hq : s.seq = .sPal0) :
    Host.Core.run Sys2Proof.core 3 s = .next (((startPrimitives s).setCounters 0 0).setSeq .sGather) := by
  have hlive1 := ((setpal_sameHook 0 s.cfg.bgColor s).live hs).setSeq .sDc
  have hlive2 := ((setdc_sameHook s.cfg.textDc _).live hlive1).setSeq .sText
  rw [startPrimitives, State.setSeq_of_eq hq]
  exact (run_succ (step_at_sPal0 hs hq) 2).trans
    ((run_succ (step_at_sDc hlive1 rfl) 1).trans (run_succ (step_at_sText hlive2 rfl) 0))

/-- Settles O32: three steps for the primitives, three for each of the `SRC_W*SRC_H` source pixels. -/
theorem startRunsThroughSequencer : Obligations.StartRunsThroughSequencer := by
  intro s hok hW hp hs
  have hlive : s.Live := ⟨hok, by rw [hp]; nofun⟩
  have hsrc : 0 < s.cfg.srcW ∧ s.cfg.srcH = 8 := by
    obtain ⟨-, -, hw, hh, -⟩ := Config.derived_of_ok hok
    obtain ⟨-, -, -, hn, -⟩ := Config.bounds_of_ok hok
    omega
  obtain ⟨hw0, hh8⟩ := hsrc
  have hcfg : (startPrimitives s).cfg = s.cfg := by rw [startPrimitives_eq]
  have hlive' : (startPrimitives s).Live := by rw [startPrimitives_eq]; exact hlive
  have horder : scanRest (startPrimitives s).cfg 0 0 = scanOrder s.cfg := by
    rw [hcfg]; exact scanRest_zero (by omega)
  obtain ⟨e, he, hrun⟩ := scan_runs horder hlive' (by rw [hcfg]; omega) (by rw [hcfg]; omega)
    (by rw [hcfg]; exact hW) (by rw [hcfg]; omega)
  refine ⟨(e.setPhase .running).setSeq .idle, ?_, ?_⟩
  · change (start s).outcome = _
    rw [start, if_pos hp, he]
    rfl
  · rw [← length_scanOrder, run_add (startPrimitives_runs hlive hs), hrun]
    rfl

end Sys2Proof.Machine
end

section
/-! SUPPORT. The mask after START: in RUNNING only WR1 and EMIT could write it, and no hook of that phase performs them
(R62, R230). -/

namespace Sys2Proof.Machine

variable {i : Instr} {s t : State}

/-- From RUNNING, START is a breach of the protocol and halts (R123, R192). -/
theorem start_running (h : s.phase = .running) : start s = halt .protocol s := if_neg (by rw [h]; nofun)

/-- In RUNNING the writers of the mask are WR1 and EMIT alone (R23). -/
theorem exec_mask_running (hp : s.phase = .running) (hx : exec i s = .next t) :
    t.mask = s.mask ∨ (∃ x y b, i = .wr1 x y b) ∨ ∃ x y, i = .emit x y := by
  by_cases hmask : t.mask = s.mask
  · exact .inl hmask
  · obtain ⟨-, -, -, -, hwriters, -⟩ := eachRegisterHasItsWriters i s t hx
    obtain rfl | hwriter := hwriters hmask
    · change (start s).outcome = .next t at hx
      rw [start_running hp] at hx
      cases hx
      exact .inl rfl
    · exact .inr hwriter

/-- Neither hook is a writer of the mask in RUNNING (R62). -/
theorem exec_command_mask_running (hp : s.phase = .running) (hc : i.opClass = .command) (hx : exec i s = .next t) :
    t.mask = s.mask := by
  obtain h | ⟨x, y, b, rfl⟩ | ⟨x, y, rfl⟩ := exec_mask_running hp hx
  · exact h
  · cases hc
  · cases hc

/-- EMIT is the only writer of the mask among the sequencer's positions (R24). -/
theorem seqOperation_mask_writer (hi : seqOperation s = some i)
    (hw : (∃ x y b, i = .wr1 x y b) ∨ ∃ x y, i = .emit x y) : s.seq = .sEmit := by
  cases hs : s.seq with
  | sEmit => rfl
  | idle => rw [seqOperation, hs] at hi; cases hi
  | _ =>
    rw [seqOperation, hs] at hi
    cases hi
    obtain ⟨x, y, b, h⟩ | ⟨x, y, h⟩ := hw <;> cases h

/-- A hook in progress in RUNNING is UPDATE, none of whose positions writes the mask (R62, R153). -/
theorem hookOperation_mask_running (hseq : s.SequencerOk) (hp : s.phase = .running) (hi : seqOperation s = some i)
    (hx : exec i s = .next t) : t.mask = s.mask := by
  obtain h | hw := exec_mask_running hp hx
  · exact h
  · obtain ⟨hstart, -, -⟩ := hseq
    rw [seqOperation_mask_writer hi hw, hp] at hstart
    obtain h | h := hstart rfl <;> cases h

/-- What follows an operation never writes the mask. -/
theorem afterOperation_mask (src : OpSource) (s : State) : (afterOperation src s).mask = s.mask := by
  obtain e | e | ⟨-, -, e⟩ := afterOperation_cases src s <;> rw [e]
  · rfl
  · exact (seqAdvance_memories_clock s).1

/-- An event that is not an issued word brings a hook, on the command port (R70, R71). -/
theorem takeEvent_operation_command {e : HostEvent} {src : OpSource} {s' : State} (he : ∀ w, e ≠ .issue w)
    (h : takeEvent e s = .operation src i s') : i.opClass = .command ∧ s' = s.setCmdOpen true := by
  cases e with
  | command w =>
    simp only [takeEvent, takeCommand] at h
    split at h
    · split at h
      · rename_i hc; cases h; exact ⟨hc, rfl⟩
      · cases h
    · cases h
  | issue w => exact absurd rfl (he w)
  | writeSurf k v => simp only [takeEvent] at h; split at h <;> cases h
  | reset | writePal _ _ | writeDc _ => cases h

/-- Of the events that give the block no operation, only reset writes the mask (R181, R220). -/
theorem takeEvent_silent_mask {e : HostEvent} (he : e ≠ .reset) (h : takeEvent e s = .silent t) :
    t.mask = s.mask := by
  obtain ⟨hr, -⟩ | rfl | ⟨k, v, -, rfl⟩ | ⟨p, rfl⟩ | ⟨v, rfl⟩ := takeEvent_silent_cases h
  · exact absurd hr he
  all_goals rfl

/-- Settles O55: in RUNNING a hook in progress is UPDATE, a command is UPDATE or a halt, and of the other host events
only reset and an issued word reach the mask. -/
theorem maskIsReadOnlyAfterStart : Obligations.MaskIsReadOnlyAfterStart := by
  intro s t hinv hp hreset hissue hstep
  obtain ⟨-, -, -, -, hseq⟩ := hinv
  obtain ⟨-, ⟨i, a, hi, -, hx, rfl⟩ | ⟨-, -, rfl⟩ | ⟨-, e, rest, hin, hev⟩⟩ := step_cases hstep
  · rw [afterOperation_mask, hookOperation_mask_running hseq hp hi hx]
  · rfl
  · rw [hin, List.head?_cons] at hreset hissue
    have he : ∀ w, e ≠ .issue w := fun w h => hissue w (congrArg some h)
    obtain ⟨src, i, s', a, hop, hx, rfl⟩ | hsilent | ⟨why, s', hill, rfl⟩ := hev
    · obtain ⟨hc, rfl⟩ := takeEvent_operation_command he hop
      rw [afterOperation_mask]
      exact exec_command_mask_running (s := (s.setInputs rest).setCmdOpen true) hp hc hx
    · exact takeEvent_silent_mask (s := s.setInputs rest) (fun h => hreset (congrArg some h)) hsilent
    · rw [takeEvent_illegal hill]; rfl

end Sys2Proof.Machine
end

section
/-! SUPPORT. A hook in progress: every position's operation is done (R63, R126). -/

namespace Sys2Proof.Machine

variable {i : Instr} {s : State}

/-- The operation at a legal position of a hook is done, and leaves the hook where it is: the loop's counters lie on the
source grid, and COMPOSITE's bitmap is the mask (R126, R146). -/
theorem position_done (hok : s.cfg.Ok) (hseq : s.SequencerOk) (hi : seqOperation s = some i) :
    ∃ a, exec i s = .next a ∧ SameHook s a := by
  obtain ⟨-, -, hscan⟩ := hseq
  unfold seqOperation at hi
  cases hs : s.seq <;> rw [hs] at hi <;> cases hi
  case sGather =>
    rw [hs] at hscan
    obtain ⟨hx, hy⟩ := hscan rfl
    obtain ⟨a, ha, hsame, -⟩ := gather_done hok hx hy
    exact ⟨a, congrArg Result.outcome ha, hsame⟩
  case sEmit =>
    rw [hs] at hscan
    obtain ⟨hx, hy⟩ := hscan rfl
    obtain ⟨a, ha, hsame, -⟩ := emit_done hx hy
    exact ⟨a, congrArg Result.outcome ha, hsame⟩
  case uPalupd => exact ⟨_, rfl, palupd_sameHook s⟩
  case uStripes => exact ⟨_, rfl, stripes_sameHook s⟩
  case uComposite =>
    obtain ⟨a, ha, hsame⟩ := composite_sameHook s
    exact ⟨a, congrArg Result.outcome ha, hsame⟩
  all_goals exact ⟨_, rfl, rfl, rfl, rfl⟩

/-- Settles O54: the position's operation is done, and the sequencer's move keeps PHASE or completes START. -/
theorem hookInProgressNeverHalts : Obligations.HookInProgressNeverHalts := by
  intro s hinv hb
  obtain ⟨hok, -, -, -, hseq⟩ := hinv
  have hp : s.phase ≠ .halted := fun h => hb (.inr h)
  obtain ⟨i, hi⟩ := Option.ne_none_iff_exists'.mp (mt hookOperation_eq_none.mp hb)
  rw [hookOperation, if_neg hp] at hi
  obtain ⟨a, hx, hsame⟩ := position_done hok hseq hi
  refine ⟨_, step_position ⟨hok, hp⟩ hi hx hsame, ?_⟩
  obtain h | ⟨-, h, -⟩ := seqAdvance_phase a
  · rw [h, hsame.phase]; exact hp
  · rw [h]; nofun

end Sys2Proof.Machine
end

section
/-! SUPPORT. A run of UPDATE commands with the default numbers, and the clock after each (R150, R151, R153). -/

namespace Sys2Proof.Machine

variable {c : Config} {s : State}

/-- The numbers of R151: the default screen height, speed and window height, and a clock of 9 bits or more (D8). -/
structure DefaultClock (c : Config) : Prop where
  bits : 9 ≤ c.clockBits
  screenH : c.screenH = 160
  speed : c.speed = 4
  windowHeight : c.windowHeight = 16

/-- Nine bits hold every value from -256 to 255 (R21, D8). -/
theorem DefaultClock.holds (h : DefaultClock c) {v : Int} (hlow : -256 ≤ v) (hhigh : v < 256) : c.ClockHolds v := by
  have hpow : (2 : Int) ^ 9 ≤ 2 ^ c.clockBits := pow_le_pow_right₀ (by decide) h.bits
  exact ⟨by omega, by omega⟩

theorem DefaultClock.fits (h : DefaultClock c) : c.ClockFits := by
  unfold Config.ClockFits
  rw [h.windowHeight, h.screenH]
  exact ⟨h.holds (by decide) (by decide), h.holds (by decide) (by decide)⟩

/-- ADVANCE with the default numbers (R150). -/
theorem DefaultClock.advancedClock_eq (h : DefaultClock c) {v : Int} (hlow : -15 ≤ v) (hhigh : v < 160) :
    advancedClock c v = if 160 ≤ v + 4 then -15 else v + 4 := by
  rw [Machine.advancedClock_eq (by rw [h.speed]; decide) h.fits (h.holds (by omega) (by omega)), h.screenH, h.speed,
    h.windowHeight]
  rfl

/-- The clock after `k` UPDATE commands from CLOCK = 0: forty values on the way up from 0, then passes of forty-four
values from -15 (R151, C2). -/
def clockAfter (k : Nat) : Int := if k < 40 then 4 * (k : Int) else -15 + 4 * (((k : Int) - 40) % 44)

/-- The clock stays in the window of R152. -/
theorem clockAfter_bounds (k : Nat) : -15 ≤ clockAfter k ∧ clockAfter k < 160 := by
  unfold clockAfter; split <;> omega

/-- The next clock: four more, or back to -15 where that would leave the screen. -/
theorem clockAfter_succ (k : Nat) :
    clockAfter (k + 1) = if 160 ≤ clockAfter k + 4 then -15 else clockAfter k + 4 := by
  unfold clockAfter; split_ifs <;> omega

/-- ADVANCE takes the sequence of R151 to its next value. -/
theorem DefaultClock.advancedClock_clockAfter (h : DefaultClock c) (k : Nat) :
    advancedClock c (clockAfter k) = clockAfter (k + 1) := by
  obtain ⟨hlow, hhigh⟩ := clockAfter_bounds k
  rw [h.advancedClock_eq hlow hhigh, clockAfter_succ]

/-- A hook's word on the command port is that hook, with the transaction open (R70, R75). -/
theorem takeEvent_hook {w : Word} {i : Instr} (hw : decode w = .ok i) (hc : i.opClass = .command) :
    takeEvent (.command w) s = .operation .commandPort i (s.setCmdOpen true) := by
  simp only [takeEvent, takeCommand, hw, if_pos hc]

theorem decode_updateWord : decode 0x0200000000000000 = .ok .update := by decide

/-- `t` is `s` between two frames of a run of UPDATE commands: RUNNING and IDLE, the constants and the mask those of
`s`. -/
structure BetweenFrames (s t : State) : Prop where
  cfg : t.cfg = s.cfg
  phase : t.phase = .running
  seq : t.seq = .idle
  mask : t.mask = s.mask

/-- The step that takes an UPDATE command between frames draws one frame and advances the clock (R63, R153). -/
theorem step_update_command {u : State} {rest : List HostEvent} (hok : s.cfg.Ok) (h : BetweenFrames u s)
    (hin : s.inputs = .command 0x0200000000000000 :: rest) :
    ∃ t, step s = .next t ∧ BetweenFrames u t ∧ t.inputs = rest ∧ t.clock = advancedClock s.cfg s.clock := by
  obtain ⟨p, m, n, hupdate⟩ := update_frame (s := (s.setInputs rest).setCmdOpen true) h.phase
  have hexec := congrArg Result.outcome hupdate
  rw [step_event hok (.inl h.seq) hin, takeEvent_hook decode_updateWord rfl]
  change ∃ t, retire .commandPort (update _).outcome = .next t ∧ _
  rw [hexec]
  exact ⟨_, congrArg Host.Outcome.next (if_neg (by simp [h.phase])), ⟨h.cfg, h.phase, rfl, h.mask⟩, rfl, rfl⟩

/-- Settles O43, by induction on the number of commands: the last command of a run advances the clock once more. -/
theorem clockSequence : Obligations.ClockSequence := by
  intro s k rest hok hbits hscreen hspeed hwindow hp hseq hclock hin
  have hdefault : DefaultClock s.cfg := ⟨hbits, hscreen, hspeed, hwindow⟩
  have hrun : ∃ t, Host.Core.run Sys2Proof.core k s = .next t ∧ BetweenFrames s t ∧ t.inputs = rest ∧
      t.clock = clockAfter k := by
    induction k generalizing rest with
    | zero => exact ⟨s, rfl, ⟨rfl, hp, hseq, rfl⟩, hin, hclock⟩
    | succ k ih =>
      rw [List.replicate_succ', List.append_assoc] at hin
      obtain ⟨t, hrun, hframes, htin, htclock⟩ := ih _ hin
      obtain ⟨t', hstep, hframes', hin', hclock'⟩ := step_update_command (hframes.cfg ▸ hok) hframes htin
      refine ⟨t', (run_add hrun 1).trans (run_succ hstep 0), hframes', hin', ?_⟩
      rw [hclock', hframes.cfg, htclock, hdefault.advancedClock_clockAfter]
  obtain ⟨t, hrun, hframes, htin, htclock⟩ := hrun
  exact ⟨t, hrun, hframes.phase, hframes.seq, htin, hframes.mask, htclock⟩

end Sys2Proof.Machine
end

section
/-! SUPPORT. The words of the operations. For each operation: its format, the fields that format leaves zero, its operands
read back from a word, its row of the opcode table; then what the decoder answers, said once, and from it that the
encoder and the table agree with the decoder (R72 to R75, R79). -/

namespace Sys2Proof

open Laws.EncodesItsOpcode (opcode)

/-! Fields and formats. -/

/-- A field whose bits from `m` up are 0 is its low `m` bits, widened. -/
theorem setWidth_extractLsb'_of_and_eq_zero {m n : Nat} {v mask : BitVec n} (h : v &&& mask = 0)
    (hmask : ∀ i < n, m ≤ i → mask.getLsbD i = true) : (v.extractLsb' 0 m).setWidth n = v := by
  apply BitVec.eq_of_getLsbD_eq
  intro i hi
  have hbit := congrArg (BitVec.getLsbD · i) h
  by_cases him : i < m
  · simp [hi, him]
  · simpa [him, hmask i hi (not_lt.mp him)] using hbit

/-- The low `m` bits, widened, have no bit from `m` up. -/
theorem setWidth_and_eq_zero {m n : Nat} (v : BitVec m) {mask : BitVec n}
    (hmask : ∀ i < m, mask.getLsbD i = false) : v.setWidth n &&& mask = 0 := by
  apply BitVec.eq_of_getLsbD_eq
  intro i hi
  by_cases him : i < m
  · simp [hmask i him]
  · simp [BitVec.getLsbD_of_ge v i (not_lt.mp him)]

/-- What a format asks of the fields below `OP` (R73, first table). -/
def Format.Admits (f : Format) (d : BitVec 8) (c b a : BitVec 16) : Prop :=
  match f with
  | .z => d = 0 ∧ c = 0 ∧ b = 0 ∧ a = 0
  | .xy | .sxy => d = 0 ∧ c = 0
  | .xyb => d &&& 0xFE = 0 ∧ c = 0
  | .pal => d &&& 0xFC = 0 ∧ c = 0 ∧ b &&& 0xFF00 = 0
  | .v => d = 0 ∧ c = 0 ∧ b = 0
  | .sxyl => d = 0
  | .sxywh => True

/-- The bits that a format leaves unused, field by field. -/
theorem packWord_and_unusedBits (f : Format) (op d : BitVec 8) (c b a : BitVec 16) :
    packWord op d c b a &&& f.unusedBits = 0 ↔ f.Admits d c b a := by
  have hd : d &&& 255#8 = d := BitVec.and_allOnes
  have hc : ∀ v : BitVec 16, v &&& 65535#16 = v := fun _ => BitVec.and_allOnes
  rw [packWord_and_eq_zero]
  cases f <;> simp [Format.unusedBits, Format.Admits, opField, dField, cField, bField, aField, hd, hc]

theorem and_unusedBits_iff (f : Format) (w : Word) :
    w &&& f.unusedBits = 0 ↔ f.Admits (dField w) (cField w) (bField w) (aField w) := by
  rw [← packWord_and_unusedBits f (opField w), packWord_fields]

/-! One operation and a word. -/

/-- The format of each operation (R73, opcode map). -/
def Instr.format : Instr → Format
  | .start | .update | .s3x | .palupd | .stripes | .composite | .advance => .z
  | .rd2 _ _ | .rd1 _ _ | .gather _ _ | .emit _ _ => .xy
  | .wr1 _ _ _ => .xyb
  | .setpal _ _ => .pal
  | .setdc _ => .v
  | .text _ _ => .sxy
  | .hline _ _ _ => .sxyl
  | .blit1 _ _ _ _ => .sxywh

/-- The operation of the same mnemonic with its operands read from the fields of `w` (R73, R74). -/
def Instr.readFrom (i : Instr) (w : Word) : Instr :=
  match i with
  | .rd2 _ _ => .rd2 (aField w).toNat (bField w).toNat
  | .rd1 _ _ => .rd1 (aField w).toNat (bField w).toNat
  | .wr1 _ _ _ => .wr1 (aField w).toNat (bField w).toNat ((dField w).getLsbD 0)
  | .gather _ _ => .gather (aField w).toNat (bField w).toNat
  | .emit _ _ => .emit (aField w).toNat (bField w).toNat
  | .setpal _ _ => .setpal ((dField w).extractLsb' 0 2) (rgbField w)
  | .setdc _ => .setdc (aField w)
  | .text _ _ => .text (signedField (aField w)) (signedField (bField w))
  | .hline _ _ _ => .hline (signedField (aField w)) (signedField (bField w)) (cField w).toNat
  | .blit1 _ _ _ _ => .blit1 (signedField (aField w)) (signedField (bField w)) (cField w).toNat (dField w).toNat
  | i => i

/-! The decoder. -/

/-- A word with the opcode of `i` is checked against the format of `i` and read as `i` is (R73). -/
theorem decode_of_opField {w : Word} {i : Instr} (h : opField w = opcode i) :
    decode w = checkedAs i.format w (i.readFrom w) := by
  cases i <;> rw [decode, h] <;> rfl

/-- What the decoder reads has the opcode of the word (R73). -/
theorem opField_of_decode {w : Word} {i : Instr} (h : decode w = .ok i) : opField w = opcode i := by
  unfold decode at h
  split at h
  case h_18 => cases h
  all_goals
    rename_i hop
    obtain ⟨-, rfl⟩ := checkedAs_eq_ok.mp h
    exact BitVec.eq_of_toNat_eq hop

/-- Everything the decoder accepts (R73, R75). -/
theorem decode_eq_ok_iff {w : Word} {i : Instr} :
    decode w = .ok i ↔ opField w = opcode i ∧ w &&& i.format.unusedBits = 0 ∧ i.readFrom w = i := by
  constructor
  · intro h
    have hop := opField_of_decode h
    rw [decode_of_opField hop] at h
    exact ⟨hop, checkedAs_eq_ok.mp h⟩
  · rintro ⟨hop, hread⟩
    rw [decode_of_opField hop]
    exact checkedAs_eq_ok.mpr hread

/-! The encoder. -/

theorem opField_encode (i : Instr) : opField (encode i) = opcode i := by
  cases i <;> exact opField_packWord _ _ _ _ _

/-- The encoder leaves the unused bits 0 (R73). -/
theorem encode_and_unusedBits (i : Instr) : encode i &&& i.format.unusedBits = 0 := by
  cases i with
  | wr1 x y bit => cases bit <;> exact (packWord_and_unusedBits _ _ _ _ _ _).mpr ⟨rfl, rfl⟩
  | setpal slot rgb =>
    exact (packWord_and_unusedBits _ _ _ _ _ _).mpr
      ⟨setWidth_and_eq_zero slot (by decide), rfl, setWidth_and_eq_zero _ (by decide)⟩
  | setdc _ => exact (packWord_and_unusedBits _ _ _ _ _ _).mpr ⟨rfl, rfl, rfl⟩
  | hline _ _ _ => exact (packWord_and_unusedBits _ _ _ _ _ _).mpr rfl
  | blit1 _ _ _ _ => exact (packWord_and_unusedBits _ _ _ _ _ _).mpr trivial
  | start | update | s3x | palupd | stripes | composite | advance =>
    exact (packWord_and_unusedBits _ _ _ _ _ _).mpr ⟨rfl, rfl, rfl, rfl⟩
  | _ => exact (packWord_and_unusedBits _ _ _ _ _ _).mpr ⟨rfl, rfl⟩

/-- The three bytes of a colour, split over the fields B and A (R74). -/
theorem rgbField_packWord (op d : BitVec 8) (c : BitVec 16) (rgb : Colour) :
    rgbField (packWord op d c ((rgb.extractLsb' 16 8).setWidth 16) (rgb.extractLsb' 0 16)) = rgb := by
  rw [rgbField, bField_packWord, aField_packWord, BitVec.extractLsb'_setWidth_of_le (by decide),
    BitVec.extractLsb'_eq_self]
  exact BitVec.extractLsb'_append_extractLsb' (w := 8) (len := 16)

/-- A well-formed operation reads its own operands back from its word (R74). -/
theorem readFrom_encode {i : Instr} (h : i.WellFormed) : i.readFrom (encode i) = i := by
  cases i with
  | rd2 x y | rd1 x y | gather x y | emit x y =>
    obtain ⟨hx, hy⟩ := h
    simp [Instr.readFrom, encode, packXY, Nat.mod_eq_of_lt hx, Nat.mod_eq_of_lt hy]
  | wr1 x y bit =>
    obtain ⟨hx, hy⟩ := h
    cases bit <;> simp [Instr.readFrom, encode, Nat.mod_eq_of_lt hx, Nat.mod_eq_of_lt hy]
  | setpal slot rgb => simp [Instr.readFrom, encode, rgbField_packWord, BitVec.extractLsb'_setWidth_of_le]
  | setdc value => simp [Instr.readFrom, encode]
  | text x y =>
    obtain ⟨hx, hy⟩ := h
    simp [Instr.readFrom, encode, signedField_ofInt hx, signedField_ofInt hy]
  | hline x y len =>
    obtain ⟨hx, hy, hlen⟩ := h
    simp [Instr.readFrom, encode, signedField_ofInt hx, signedField_ofInt hy, Nat.mod_eq_of_lt hlen]
  | blit1 x y w h' =>
    obtain ⟨hx, hy, hw, hh⟩ := h
    simp [Instr.readFrom, encode, signedField_ofInt hx, signedField_ofInt hy, Nat.mod_eq_of_lt hw,
      Nat.mod_eq_of_lt hh]
  | start | update | s3x | palupd | stripes | composite | advance => rfl

/-- Settles O1: the word of an operation has its opcode, no unused bit, and its operands. -/
theorem decodeOfEncodeIsTheOperation : Obligations.DecodeOfEncodeIsTheOperation := fun i h =>
  decode_eq_ok_iff.mpr ⟨opField_encode i, encode_and_unusedBits i, readFrom_encode h⟩

/-- Operands read from fields fit those fields (R74). -/
theorem readFrom_wellFormed (i : Instr) (w : Word) : (i.readFrom w).WellFormed := by
  have hU (v : BitVec 16) : fitsU16 v.toNat := v.isLt
  cases i with
  | rd2 x y | rd1 x y | wr1 x y bit | gather x y | emit x y => exact ⟨hU _, hU _⟩
  | text x y => exact ⟨fitsS16_signedField _, fitsS16_signedField _⟩
  | hline x y len => exact ⟨fitsS16_signedField _, fitsS16_signedField _, hU _⟩
  | blit1 x y w' h => exact ⟨fitsS16_signedField _, fitsS16_signedField _, hU _, (dField w).isLt⟩
  | _ => trivial

/-- A colour is its two fields (R74). -/
theorem extractLsb'_rgbField (w : Word) :
    (rgbField w).extractLsb' 16 8 = (bField w).extractLsb' 0 8 ∧ (rgbField w).extractLsb' 0 16 = aField w :=
  ⟨BitVec.extractLsb'_append_eq_left, BitVec.extractLsb'_append_eq_right⟩

/-- The field D of WR1 holds nothing but its bit 0 (R73). -/
theorem ite_getLsbD_zero {d : BitVec 8} (h : d &&& 0xFE = 0) : (if d.getLsbD 0 then 1 else 0) = d := by
  revert d; decide +kernel

/-- Operands read from a word of the same opcode and format have that word (R73, R74). -/
theorem encode_readFrom {i : Instr} {w : Word} (hop : opField w = opcode i) (hunused : w &&& i.format.unusedBits = 0) :
    encode (i.readFrom w) = w := by
  rw [and_unusedBits_iff] at hunused
  conv_rhs => rw [← packWord_fields w, hop]
  cases i with
  | start | update | s3x | palupd | stripes | composite | advance =>
    obtain ⟨hd, hc, hb, ha⟩ := hunused
    rw [hd, hc, hb, ha]; rfl
  | rd2 x y | rd1 x y | gather x y | emit x y =>
    obtain ⟨hd, hc⟩ := hunused
    simp [Instr.readFrom, encode, packXY, opcode, hd, hc]
  | wr1 x y bit =>
    obtain ⟨hd, hc⟩ := hunused
    simp only [Instr.readFrom, encode, ite_getLsbD_zero hd, hc, BitVec.ofNat_toNat, BitVec.setWidth_eq]
    rfl
  | setpal slot rgb =>
    obtain ⟨hd, hc, hb⟩ := hunused
    obtain ⟨hhigh, hlow⟩ := extractLsb'_rgbField w
    rw [Instr.readFrom, encode, hhigh, hlow, setWidth_extractLsb'_of_and_eq_zero hd (by decide), hc,
      setWidth_extractLsb'_of_and_eq_zero hb (by decide)]
    rfl
  | setdc value =>
    obtain ⟨hd, hc, hb⟩ := hunused
    rw [hd, hc, hb]; rfl
  | text x y =>
    obtain ⟨hd, hc⟩ := hunused
    simp [Instr.readFrom, encode, opcode, ofInt_signedField, hd, hc]
  | hline x y len =>
    have hd : dField w = 0 := hunused
    simp [Instr.readFrom, encode, opcode, ofInt_signedField, hd]
  | blit1 x y w' h => simp [Instr.readFrom, encode, opcode, ofInt_signedField]

/-- Settles O2: what a word decodes to is what its own fields say, so encoding it packs those fields again. -/
theorem encodeOfDecodeIsTheWord : Obligations.EncodeOfDecodeIsTheWord := by
  intro w i h
  obtain ⟨hop, hunused, hread⟩ := decode_eq_ok_iff.mp h
  rw [← hread]
  exact ⟨readFrom_wellFormed i w, encode_readFrom hop hunused⟩

/-! The opcode table. -/

/-- The row of an operation: it fixes the opcode and every bit that the format leaves unused (R73). -/
def Instr.row (i : Instr) : OpRow :=
  ⟨i.mnemonic, i.format, packZ (opcode i),
    packWord 0xFF (dField i.format.unusedBits) (cField i.format.unusedBits) (bField i.format.unusedBits)
      (aField i.format.unusedBits)⟩

/-- One operation a row of the table, in its order. -/
def tableOperations : List Instr :=
  [.start, .update, .rd2 0 0, .rd1 0 0, .wr1 0 0 false, .gather 0 0, .s3x, .emit 0 0, .palupd, .stripes, .composite,
    .advance, .setpal 0 0, .setdc 0, .text 0 0, .hline 0 0 0, .blit1 0 0 0 0]

theorem opTable_eq_rows : opTable = tableOperations.map Instr.row := by decide

theorem row_mem_opTable (i : Instr) : i.row ∈ opTable := by
  rw [opTable_eq_rows]
  refine List.mem_map.mpr ⟨i.readFrom 0, ?_, ?_⟩
  · cases i <;> simp [tableOperations, Instr.readFrom, aField, bField, cField, dField, rgbField, signedField]
  · cases i <;> rfl

theorem opTable_nodup : opTable.Nodup := by decide

/-- No two rows of the table have one opcode (R73). -/
theorem opTable_opcode_inj : ∀ r ∈ opTable, ∀ r' ∈ opTable, opField r.fixed = opField r'.fixed → r = r' := by decide

/-- A row spells the words of its opcode with no unused bit set (R73). -/
theorem row_spells_iff {i : Instr} {w : Word} :
    i.row.spells w = true ↔ opField w = opcode i ∧ w &&& i.format.unusedBits = 0 := by
  have hop : opField w &&& 0xFF = opField w := BitVec.and_allOnes
  rw [and_unusedBits_iff, ← packWord_and_unusedBits i.format (opField w), packWord_and_eq_zero]
  conv_lhs => rw [← packWord_fields w]
  simp only [OpRow.spells, Instr.row, packZ, packWord_and, beq_iff_eq, packWord_inj, hop]
  cases i.format <;> simp [Format.unusedBits, opField]

/-- A word that a row spells decodes, to an operation of that row (R73, R75). -/
theorem decode_of_row_spells {i : Instr} {w : Word} (h : i.row.spells w = true) : decode w = .ok (i.readFrom w) := by
  obtain ⟨hop, hunused⟩ := row_spells_iff.mp h
  rw [decode_of_opField hop]
  exact checkedAs_eq_ok.mpr ⟨hunused, rfl⟩

/-- The rows are those of the operations. -/
theorem exists_row_eq {r : OpRow} (hr : r ∈ opTable) : ∃ i : Instr, i.row = r := by
  rw [opTable_eq_rows] at hr
  obtain ⟨i, -, hi⟩ := List.mem_map.mp hr
  exact ⟨i, hi⟩

/-- A word is spelled by one row at most (R73). -/
theorem filter_spells_eq {i : Instr} {w : Word} (h : i.row.spells w = true) :
    opTable.filter (fun r => r.spells w) = [i.row] := by
  have honly : ∀ r ∈ opTable, r.spells w = (r == i.row) := by
    intro r hr
    by_cases hri : r = i.row
    · rw [hri, h, BEq.rfl]
    · rw [beq_false_of_ne hri, Bool.eq_false_iff]
      intro hspells
      obtain ⟨j, rfl⟩ := exists_row_eq hr
      obtain ⟨hj, -⟩ := row_spells_iff.mp hspells
      obtain ⟨hi, -⟩ := row_spells_iff.mp h
      refine hri (opTable_opcode_inj _ hr _ (row_mem_opTable i) ?_)
      simp only [Instr.row, packZ, opField_packWord]
      exact hj.symm.trans hi
  rw [List.filter_congr honly, List.filter_beq, List.count_eq_one_of_mem opTable_nodup (row_mem_opTable i)]
  rfl

/-- Settles O3: the rows that spell a word are those of its opcode whose unused bits are 0 in it, at most one. -/
theorem decoderAgreesWithOpcodeTable : Obligations.DecoderAgreesWithOpcodeTable := by
  intro w
  constructor
  · intro i h
    obtain ⟨hop, hunused, -⟩ := decode_eq_ok_iff.mp h
    rw [filter_spells_eq (row_spells_iff.mpr ⟨hop, hunused⟩)]
    rfl
  · intro e h
    rw [List.filter_eq_nil_iff]
    intro r hr hspells
    obtain ⟨i, rfl⟩ := exists_row_eq hr
    rw [decode_of_row_spells hspells] at h
    cases h

/-- Settles O4: each of the seventeen words is evaluated. -/
theorem workedEncodingsDecode : Obligations.WorkedEncodingsDecode := by
  unfold Obligations.WorkedEncodingsDecode
  decide

end Sys2Proof
end

section
/-! SUPPORT. The command port and the words placed on it: which operation a step runs, and the breaches that halt the
block (R70, R71, R75, R192, R193). -/

namespace Sys2Proof.Machine

variable {i : Instr} {s : State} {w : Word} {rest : List HostEvent}

/-- Between hooks a hook's word on the command port is run from there, with the transaction open (R70). -/
theorem step_command_hook (hok : s.cfg.Ok) (hb : s.BetweenHooks) (hin : s.inputs = .command w :: rest)
    (hw : decode w = .ok i) (hc : i.opClass = .command) :
    step s = retire .commandPort (exec i ((s.setInputs rest).setCmdOpen true)) := by
  rw [step_event hok hb hin, takeEvent_hook hw hc]

/-- Settles O5: a command is retired from the command port. -/
theorem stepRunsDecodedCommand : Obligations.StepRunsDecodedCommand := by
  intro s w i rest hok hb hin hw hc
  rw [step_command_hook hok hb hin hw hc]
  change retire .commandPort (exec i { s with inputs := rest, cmdOpen := true }) = _
  cases exec i { s with inputs := rest, cmdOpen := true } with
  | next t => rfl
  | fault r => rfl
  | refused r => rfl

/-! Placed words (log 11). -/

theorem decodeTableWord_eq_some {nbits n : Nat} :
    decodeTableWord nbits n = some i ↔ decode (BitVec.ofNat 64 (n % 2 ^ nbits)) = .ok i := by
  unfold decodeTableWord
  split <;> simp [*]

/-- A hook's word is placed on the command port (R71). -/
theorem eventOfWord_hook (hw : decode w = .ok i) (hc : i.opClass = .command) : eventOfWord w = .command w := by
  simp only [eventOfWord, hw, if_pos hc]

/-- A word of class U or P is issued on its own (R71, R191). -/
theorem eventOfWord_issued (hw : decode w = .ok i) (hc : i.opClass ≠ .command) : eventOfWord w = .issue w := by
  simp only [eventOfWord, hw, if_neg hc]

/-- An issued word of class U or P is its operation, unless the block has halted (R191, R194). -/
theorem takeEvent_issued (hp : s.phase ≠ .halted) (hw : decode w = .ok i) (hc : i.opClass ≠ .command) :
    takeEvent (.issue w) s = .operation .issued i s := by
  simp only [takeEvent, takeIssue, if_neg hp, hw, if_neg hc]

/-- Between hooks an issued word of class U or P is its operation and nothing more (R191). -/
theorem step_issued (hok : s.cfg.Ok) (hb : s.BetweenHooks) (hp : s.phase ≠ .halted)
    (hin : s.inputs = .issue w :: rest) (hw : decode w = .ok i) (hc : i.opClass ≠ .command) :
    step s = exec i (s.setInputs rest) := by
  rw [step_event hok hb hin, takeEvent_issued (s := s.setInputs rest) hp hw hc]
  exact retire_issued _

/-- Settles O8: the placed word is the oldest event of a state between hooks, on the port of its class. -/
theorem placedWordRunsNext : Obligations.PlacedWordRunsNext := by
  intro s n i hok hp _ hdec
  have hw := decodeTableWord_eq_some.mp hdec
  have hb : (s.withFetchWord 64 n).BetweenHooks := .inl rfl
  constructor
  · intro hc
    exact step_issued hok hb hp (congrArg (· :: s.inputs) (eventOfWord_issued hw hc)) hw hc
  · intro hc
    exact stepRunsDecodedCommand _ _ i s.inputs hok hb (congrArg (· :: s.inputs) (eventOfWord_hook hw hc)) hw hc

/-! Breaches. -/

/-- A command word that is no hook's is illegal (R75, R192). -/
theorem takeEvent_command_illegal (h : ∀ i, decode w = .ok i → i.opClass ≠ .command) :
    takeEvent (.command w) s = .illegal .illegalCmd (s.setCmdOpen true) := by
  simp only [takeEvent, takeCommand]
  split
  · rename_i i hw
    rw [if_neg (h i hw)]
  · rfl

/-- START out of phase UNSTARTED changes PHASE alone (R123, R192). -/
theorem exec_start_halts (h : s.phase ≠ .unstarted) : exec .start s = .next (s.setPhase .halted) :=
  congrArg Result.outcome (if_neg h)

/-- UPDATE out of phase RUNNING changes PHASE alone (R153, R192). -/
theorem exec_update_halts (h : s.phase ≠ .running) : exec .update s = .next (s.setPhase .halted) :=
  congrArg Result.outcome (update_not_running h)

/-- A hook that halts leaves its transaction open (R193). -/
theorem retire_halted {src : OpSource} {t : State} (h : t.phase = .halted) : retire src (.next t) = .next t :=
  congrArg Host.Outcome.next (if_pos h)

/-- Settles O9: the breach is found by the port, or by the hook itself before it does anything; the halt of either
changes PHASE alone. -/
theorem commandPortHaltsOnBreach : Obligations.CommandPortHaltsOnBreach := by
  intro s w rest hok hb hin hbreach
  obtain hillegal | ⟨hw, hp⟩ | ⟨hw, hp⟩ := hbreach
  · rw [step_event hok hb hin, takeEvent_command_illegal hillegal]
    rfl
  · rw [step_command_hook hok hb hin hw rfl, exec_start_halts (s := (s.setInputs rest).setCmdOpen true) hp]
    exact retire_halted rfl
  · rw [step_command_hook hok hb hin hw rfl, exec_update_halts (s := (s.setInputs rest).setCmdOpen true) hp]
    exact retire_halted rfl

end Sys2Proof.Machine
end

section
/-! SUPPORT. The primitive port: every operation presents words only (R71, R75, R141). -/

namespace Sys2Proof.Machine

variable {i : Instr} {s t : State}

/-! What the block presents. -/

theorem presentable_setpal (slot : BitVec 2) (rgb : Colour) : Presentable (.setpal slot rgb) := ⟨trivial, rfl⟩

theorem presentable_setdc (v : DrawColour) : Presentable (.setdc v) := ⟨trivial, rfl⟩

theorem presentable_textOrigin : Presentable (.text 0 0) := by
  unfold Presentable Instr.WellFormed; decide

/-- Every row of the window, at every clock of the invariant, fits the fields of HLINE (R141, R152). -/
theorem presentable_stripeRequests (h : s.Inv) {k : Nat} (hk : k < s.cfg.windowHeight) :
    ∀ r ∈ stripeRequests s.cfg (s.clock + (k : Int)), Presentable r := by
  obtain ⟨hok, ⟨hrows, -, -⟩, -, ⟨hlow, hhigh⟩, -⟩ := h
  obtain ⟨-, -, -, -, -, hscreen, hsquare⟩ := Config.bounds_of_ok hok
  intro r hr
  obtain rfl | rfl : r = .setdc _ ∨ r = .hline 0 _ _ := by simpa [stripeRequests] using hr
  · exact presentable_setdc _
  · exact ⟨⟨by decide, ⟨by omega, by omega⟩, by omega⟩, rfl⟩

/-- The mask at the centre of the display fits the fields of BLIT1 (R141, R146). -/
theorem presentable_compositeBlit (hok : s.cfg.Ok) (hf : s.cfg.FitsFields) :
    Presentable (.blit1 (compositeX s.cfg) (compositeY s.cfg) s.cfg.maskW s.cfg.maskH) := by
  obtain ⟨hrows, hwidth, -⟩ := hf
  obtain ⟨-, -, -, -, hw, hh, -⟩ := Config.derived_of_ok hok
  obtain ⟨-, -, -, -, -, -, hsquare⟩ := Config.bounds_of_ok hok
  rw [Presentable, Instr.WellFormed, compositeX, compositeY, hw, hh]
  exact ⟨⟨⟨by omega, by omega⟩, ⟨by omega, by omega⟩, by omega, by decide⟩, rfl⟩

/-! What an operation adds to the transcript. -/

/-- From `s` to `t` the transcript grew by words of the primitive port only. -/
def PresentsWords (s t : State) : Prop :=
  ∃ rs, t.requests = s.requests ++ rs ∧ ∀ r ∈ rs, Presentable r

theorem PresentsWords.of_eq (h : t.requests = s.requests) : PresentsWords s t :=
  ⟨[], by rw [h, List.append_nil], nofun⟩

/-- What START presents (R123): nothing out of phase, and its three primitives otherwise. -/
theorem start_presentsWords (h : (start s).outcome = .next t) : PresentsWords s t := by
  unfold start at h
  split at h
  · have hscan : t.requests = (startPrimitives s).requests := by
      obtain ⟨a, hr, ha⟩ | ⟨why, hr⟩ := Result.andThen_outcome_next h
      · cases ha
        have hsame : SameButTurn (startPrimitives s) a := scan_frame (congrArg Result.outcome hr)
        rw [hsame]; rfl
      · have hsame : SameButTurn (startPrimitives s) t := scan_frame (congrArg Result.outcome hr)
        rw [hsame]
    rw [startPrimitives_eq] at hscan
    refine ⟨_, hscan, ?_⟩
    simp only [List.forall_mem_cons]
    exact ⟨presentable_setpal _ _, presentable_setdc _, presentable_textOrigin, nofun⟩
  · cases h; exact .of_eq rfl

theorem presentable_palupdRequests (s : State) :
    ∀ r ∈ (List.range s.cfg.ncc).map fun i =>
      Instr.setpal (paletteSlot s.cfg s.clock i) (paletteColour s.cfg s.clock i), Presentable r :=
  List.forall_mem_map.mpr fun _ _ => presentable_setpal _ _

theorem presentable_stripesRequests (h : s.Inv) :
    ∀ r ∈ (List.range s.cfg.windowHeight).flatMap fun (i : Nat) => stripeRequests s.cfg (s.clock + (i : Int)),
      Presentable r :=
  List.forall_mem_flatMap.mpr fun _ hk => presentable_stripeRequests h (List.mem_range.mp hk)

theorem presentable_compositeRequests (h : s.Inv) :
    ∀ r ∈ [Instr.setdc s.cfg.compositeDc,
      .blit1 (compositeX s.cfg) (compositeY s.cfg) s.cfg.maskW s.cfg.maskH], Presentable r := by
  obtain ⟨hok, hfits, -⟩ := h
  simp only [List.forall_mem_cons]
  exact ⟨presentable_setdc _, presentable_compositeBlit hok hfits, nofun⟩

/-- What UPDATE presents (R154): nothing out of phase, and otherwise what its first three steps do. -/
theorem update_presentsWords (hinv : s.Inv) (h : (update s).outcome = .next t) : PresentsWords s t := by
  by_cases hr : s.phase = .running
  · obtain ⟨p, m, n, e⟩ := update_frame hr
    rw [e] at h
    cases h
    refine ⟨_, rfl, ?_⟩
    simp only [List.forall_mem_append]
    exact ⟨⟨presentable_palupdRequests s, presentable_stripesRequests hinv⟩, presentable_compositeRequests hinv⟩
  · rw [update_not_running hr] at h
    cases h
    exact .of_eq rfl

/-- Every well-formed operation presents words only (R71, R75). -/
theorem exec_presentsWords (hinv : s.Inv) (hi : i.WellFormed) (h : exec i s = .next t) : PresentsWords s t := by
  cases i with
  | start => exact start_presentsWords h
  | update => exact update_presentsWords hinv h
  | palupd =>
    cases h
    obtain ⟨p, e⟩ := palupd_frame s
    exact ⟨_, congrArg State.requests e, presentable_palupdRequests s⟩
  | stripes =>
    cases h
    obtain ⟨m, d, n, e⟩ := stripes_frame s
    exact ⟨_, congrArg State.requests e, presentable_stripesRequests hinv⟩
  | composite =>
    change (composite s).outcome = .next t at h
    rw [composite_eq] at h
    cases h
    exact ⟨_, rfl, presentable_compositeRequests hinv⟩
  | blit1 x y w h' =>
    change (blit1 x y w h' s).outcome = .next t at h
    unfold blit1 at h
    split at h <;> cases h
    exact ⟨_, rfl, List.forall_mem_singleton.mpr ⟨hi, rfl⟩⟩
  | setpal _ _ | setdc _ | text _ _ | hline _ _ _ =>
    cases h
    exact ⟨_, rfl, List.forall_mem_singleton.mpr ⟨hi, rfl⟩⟩
  | rd2 _ _ | rd1 _ _ | wr1 _ _ _ | gather _ _ | s3x | emit _ _ | advance =>
    exact .of_eq (by rw [exec_frame h]; rfl)

/-! The step. -/

/-- The operation of a hook's position is well-formed: a pixel's coordinates are the counters (R24, R26). -/
theorem seqOperation_wellFormed (h : seqOperation s = some i) : i.WellFormed := by
  unfold seqOperation at h
  split at h <;> cases h
  case h_4 => exact presentable_textOrigin.1
  case h_5 => exact ⟨s.x.isLt, s.y.isLt⟩
  case h_7 => exact ⟨s.x.isLt, s.y.isLt⟩
  all_goals trivial

/-- The operation that a host event brings is what a word decodes to (R70, R191). -/
theorem takeEvent_operation_decodes {e : HostEvent} {src : OpSource} {s' : State}
    (h : takeEvent e s = .operation src i s') : ∃ w, decode w = .ok i := by
  cases e with
  | command w =>
    simp only [takeEvent, takeCommand] at h
    split at h
    · rename_i hw
      split at h <;> cases h
      exact ⟨w, hw⟩
    · cases h
  | issue w =>
    simp only [takeEvent, takeIssue] at h
    split at h
    · cases h
    · split at h
      · rename_i hw
        split at h <;> cases h
        exact ⟨w, hw⟩
      · cases h
  | writeSurf k v => simp only [takeEvent] at h; split at h <;> cases h
  | reset | writePal _ _ | writeDc _ => cases h

/-- What follows an operation presents nothing. -/
theorem afterOperation_requests (src : OpSource) (s : State) : (afterOperation src s).requests = s.requests := by
  obtain e | e | ⟨-, -, e⟩ := afterOperation_cases src s <;> rw [e]
  · rfl
  · obtain ⟨-, e⟩ | ⟨-, e⟩ | ⟨q, b, -, e⟩ := seqAdvance_cases s <;> rw [e]
    · obtain ⟨-, e⟩ | ⟨-, -, e⟩ | ⟨-, -, e⟩ := afterEmit_cases s <;> rw [e] <;> rfl
    · rfl
    · rfl

/-- Every step presents words only, from every state that meets the invariant. -/
theorem step_presentsWords (hinv : s.Inv) (h : step s = .next t) : PresentsWords s t := by
  obtain ⟨-, ⟨i, a, hi, -, hx, rfl⟩ | ⟨-, -, rfl⟩ | ⟨-, e, rest, -, hev⟩⟩ := step_cases h
  · rw [PresentsWords, afterOperation_requests]
    exact exec_presentsWords hinv (seqOperation_wellFormed hi) hx
  · exact .of_eq rfl
  · obtain ⟨src, i, s', a, hop, hx, rfl⟩ | hsilent | ⟨why, s', hill, rfl⟩ := hev
    · have htaken : s'.Inv ∧ s'.requests = s.requests := by
        obtain ⟨w, -, -, -, -, rfl⟩ | ⟨-, -, -, rfl⟩ := takeEvent_operation_cases hop <;> exact ⟨hinv, rfl⟩
      obtain ⟨hinv', hreq⟩ := htaken
      obtain ⟨w, hw⟩ := takeEvent_operation_decodes hop
      obtain ⟨hwf, -⟩ := encodeOfDecodeIsTheWord w i hw
      rw [PresentsWords, afterOperation_requests, ← hreq]
      exact exec_presentsWords hinv' hwf hx
    · obtain ⟨-, rfl⟩ | rfl | ⟨k, v, -, rfl⟩ | ⟨p, rfl⟩ | ⟨v, rfl⟩ := takeEvent_silent_cases hsilent <;>
        exact .of_eq rfl
    · rw [takeEvent_illegal hill]; exact .of_eq rfl

/-- Settles O59: a request of the next state is an old one or one that the step presents. -/
theorem everyRequestSpellsAnOperation : Obligations.EveryRequestSpellsAnOperation := by
  intro s t hinv hold hstep
  obtain ⟨rs, e, hnew⟩ := step_presentsWords hinv hstep
  rw [e]
  exact List.forall_mem_append.mpr ⟨hold, hnew⟩

end Sys2Proof.Machine
end

section
/-! SUPPORT. The BitPlane operations RD2, RD1 and WR1: their words, what each does inside its grid and off it, and the
mask bit by bit, from which the laws of mask writes follow (R51, R52, R73, R90 to R93, R191). -/

namespace Sys2Proof.Machine

open Laws.EncodesItsOpcode (opcode)

variable {c : Config} {m : Memory} {s : State} {x y x' y' : Nat}

/-! Words. -/

/-- A word of the opcode and format of `i` decodes, whatever its operands (R73). -/
theorem decode_packWord (i : Instr) {d : BitVec 8} {c b a : BitVec 16} (h : i.format.Admits d c b a) :
    decode (packWord (opcode i) d c b a) = .ok (i.readFrom (packWord (opcode i) d c b a)) := by
  rw [decode_of_opField (opField_packWord _ _ _ _ _)]
  exact checkedAs_eq_ok.mpr ⟨(packWord_and_unusedBits _ _ _ _ _ _).mpr h, rfl⟩

theorem decode_rd2Word (x y : BitVec 16) : decode (packWord 0x10 0 0 y x) = .ok (.rd2 x.toNat y.toNat) := by
  simpa [Instr.readFrom, opcode] using decode_packWord (.rd2 0 0) (d := 0) (c := 0) (b := y) (a := x) ⟨rfl, rfl⟩

theorem decode_rd1Word (x y : BitVec 16) : decode (packWord 0x11 0 0 y x) = .ok (.rd1 x.toNat y.toNat) := by
  simpa [Instr.readFrom, opcode] using decode_packWord (.rd1 0 0) (d := 0) (c := 0) (b := y) (a := x) ⟨rfl, rfl⟩

theorem decode_wr1Word (x y : BitVec 16) (bit : Bool) :
    decode (packWord 0x12 (0#7 ++ BitVec.ofBool bit) 0 y x) = .ok (.wr1 x.toNat y.toNat bit) := by
  have hd : (0#7 ++ BitVec.ofBool bit) &&& 0xFE = 0 ∧ (0#7 ++ BitVec.ofBool bit).getLsbD 0 = bit := by
    cases bit <;> decide
  obtain ⟨hunused, hbit⟩ := hd
  have h := decode_packWord (.wr1 0 0 false) (d := 0#7 ++ BitVec.ofBool bit) (c := 0) (b := y) (a := x) ⟨hunused, rfl⟩
  rwa [Instr.readFrom, aField_packWord, bField_packWord, dField_packWord, hbit] at h

/-! Inside the grid and off it. -/

theorem exec_rd2_of_range (h : x < s.cfg.screenW ∧ y < s.cfg.screenH) :
    exec (.rd2 x y) s = .next (s.setRes (surfPixel s.cfg s.surf x y)) :=
  congrArg Result.outcome (rd2_of_range h.1 h.2)

theorem exec_rd2_off_range (h : ¬ (x < s.cfg.screenW ∧ y < s.cfg.screenH)) :
    exec (.rd2 x y) s = .next (s.setPhase .halted) :=
  congrArg Result.outcome (rd2_off_range h)

/-- The bit is zero-extended to the two bits of RES (R91). -/
theorem exec_rd1_of_range (h : x < s.cfg.maskW ∧ y < s.cfg.maskH) :
    exec (.rd1 x y) s = .next (s.setRes (if maskBit s.cfg s.mask x y then 1 else 0)) := by
  have hzext (b : Bool) : (BitVec.ofBool b).setWidth 2 = if b then 1 else 0 := by cases b <;> rfl
  rw [← hzext]
  exact congrArg Result.outcome (rd1_of_range h.1 h.2)

theorem exec_rd1_off_range (h : ¬ (x < s.cfg.maskW ∧ y < s.cfg.maskH)) :
    exec (.rd1 x y) s = .next (s.setPhase .halted) :=
  congrArg Result.outcome (rd1_off_range h)

theorem exec_wr1_of_range (h : x < s.cfg.maskW ∧ y < s.cfg.maskH) (bit : Bool) :
    exec (.wr1 x y bit) s = .next (s.setMask (maskPut s.cfg s.mask x y bit)) :=
  congrArg Result.outcome (wr1_of_range h.1 h.2 bit)

theorem exec_wr1_off_range (h : ¬ (x < s.cfg.maskW ∧ y < s.cfg.maskH)) (bit : Bool) :
    exec (.wr1 x y bit) s = .next (s.setPhase .halted) :=
  congrArg Result.outcome (wr1_off_range h bit)

/-! The mask, bit by bit. -/

/-- Reading a pixel of a byte is reading one of its bits (R91). -/
theorem getPixel1_eq_getLsbD (byte : Byte) (k : Nat) : getPixel1 byte k = byte.getLsbD k := by
  rw [getPixel1, BitVec.getLsbD_ushiftRight, Nat.add_zero]

/-- Where a pixel of the mask lies (R52, R91). -/
theorem maskBit_eq_getLsbD (c : Config) (m : Memory) (x y : Nat) :
    maskBit c m x y = (m.read ((y * c.maskW + x) / 8)).getLsbD (7 - (y * c.maskW + x) % 8) :=
  getPixel1_eq_getLsbD _ _

/-- Every bit of every byte after a mask write: the pixel's own is the operand, the others are as before (R92). -/
theorem getLsbD_read_maskPut (hm : m.wf) (x y : Nat) (bit : Bool) (k : Nat) {j : Nat} (hj : j < 8) :
    ((maskPut c m x y bit).read k).getLsbD j =
      if k = byteOf1 (pixelOffset c.maskW x y) ∧ j = shiftOf1 (pixelOffset c.maskW x y) then bit
      else (m.read k).getLsbD j := by
  by_cases hk : k = byteOf1 (pixelOffset c.maskW x y)
  · subst hk
    rw [maskPut, Memory.read_write_same hm, ← getPixel1_eq_getLsbD, getPixel1_putPixel1 _ (shiftOf1_lt _) hj,
      getPixel1_eq_getLsbD]
    simp only [true_and]
  · rw [maskPut_read_other hm bit hk, if_neg fun h => hk h.1]

/-- Canonical memories with the same bits are equal. -/
theorem Memory.eq_of_getLsbD_read {m' : Memory} (hm : m.wf) (hm' : m'.wf)
    (h : ∀ k, ∀ j < 8, (m.read k).getLsbD j = (m'.read k).getLsbD j) : m = m' :=
  Memory.eq_of_read hm hm' fun k => BitVec.eq_of_getLsbD_eq fun j hj => h k j hj

/-- The last of two writes to a pixel wins (R93 (4)); with equal bits, the second changes nothing (R93 (3)). -/
theorem maskPut_maskPut_same (hm : m.wf) (x y : Nat) (b b' : Bool) :
    maskPut c (maskPut c m x y b) x y b' = maskPut c m x y b' := by
  have hb := maskPut_wf (c := c) hm x y b
  refine Memory.eq_of_getLsbD_read (maskPut_wf hb x y b') (maskPut_wf hm x y b') fun k j hj => ?_
  rw [getLsbD_read_maskPut hb x y b' k hj, getLsbD_read_maskPut hm x y b k hj, getLsbD_read_maskPut hm x y b' k hj]
  split_ifs <;> rfl

/-- Two pixels of the mask do not share a bit (R93 (6)). -/
theorem place1_inj (hx : x < c.maskW) (hx' : x' < c.maskW)
    (hbyte : byteOf1 (pixelOffset c.maskW x' y') = byteOf1 (pixelOffset c.maskW x y))
    (hshift : shiftOf1 (pixelOffset c.maskW x' y') = shiftOf1 (pixelOffset c.maskW x y)) : x' = x ∧ y' = y :=
  pixelOffset_inj hx' hx (offset_eq_of_place1 hbyte hshift)

/-- Writes to different pixels commute (R93 (5)). -/
theorem maskPut_comm (hm : m.wf) (hx : x < c.maskW) (hx' : x' < c.maskW) (hne : ¬ (x' = x ∧ y' = y)) (b b' : Bool) :
    maskPut c (maskPut c m x' y' b') x y b = maskPut c (maskPut c m x y b) x' y' b' := by
  have hb := maskPut_wf (c := c) hm x y b
  have hb' := maskPut_wf (c := c) hm x' y' b'
  refine Memory.eq_of_getLsbD_read (maskPut_wf hb' x y b) (maskPut_wf hb x' y' b') fun k j hj => ?_
  rw [getLsbD_read_maskPut hb' x y b k hj, getLsbD_read_maskPut hm x' y' b' k hj,
    getLsbD_read_maskPut hb x' y' b' k hj, getLsbD_read_maskPut hm x y b k hj]
  split_ifs with h h'
  · obtain ⟨rfl, rfl⟩ := h
    obtain ⟨hbyte, hshift⟩ := h'
    exact absurd (place1_inj hx hx' hbyte.symm hshift.symm) hne
  all_goals rfl

/-! The operations after the mask was written. -/

theorem exec_rd1_setMask (h : x < s.cfg.maskW ∧ y < s.cfg.maskH) (m : Memory) :
    exec (.rd1 x y) (s.setMask m) = .next ((s.setMask m).setRes (if maskBit s.cfg m x y then 1 else 0)) :=
  exec_rd1_of_range (s := s.setMask m) h

theorem exec_wr1_setMask (h : x < s.cfg.maskW ∧ y < s.cfg.maskH) (m : Memory) (bit : Bool) :
    exec (.wr1 x y bit) (s.setMask m) = .next (s.setMask (maskPut s.cfg m x y bit)) :=
  exec_wr1_of_range (s := s.setMask m) h bit

/-- After a write of a pixel, another write of it does what it would have done without the first (R93 (4)). -/
theorem exec_wr1_setMask_maskPut (hm : s.mask.wf) (h : x < s.cfg.maskW ∧ y < s.cfg.maskH) (b b' : Bool) :
    exec (.wr1 x y b') (s.setMask (maskPut s.cfg s.mask x y b)) = exec (.wr1 x y b') s := by
  rw [exec_wr1_setMask h, exec_wr1_of_range h, maskPut_maskPut_same hm]

/-- Settles O19: the write is that of one bit of the mask (`getLsbD_read_maskPut`), off the mask it is a halt. -/
theorem wr1SetsOneBitOrHalts : Obligations.Wr1SetsOneBitOrHalts := by
  constructor
  · intro x y bit
    have hword : (0x12#8 ++ 0#7 ++ BitVec.ofBool bit ++ 0#16 ++ y ++ x : Word) =
        packWord 0x12 (0#7 ++ BitVec.ofBool bit) 0 y x := by cases bit <;> rfl
    exact (congrArg decode hword).trans (decode_wr1Word x y bit)
  · intro x y bit s hm
    refine ⟨fun h => ?_, fun h => exec_wr1_off_range h bit⟩
    have hexec := exec_wr1_of_range h bit
    refine ⟨_, hexec, rfl, (exec_wr1_setMask_maskPut hm h bit bit).trans hexec,
      fun k hk => maskPut_read_other hm bit hk, fun j hj => ?_⟩
    refine (getLsbD_read_maskPut hm x y bit _ hj).trans ?_
    simp only [byteOf1, shiftOf1, pixelOffset, true_and]

/-- Settles O20: reads by what a write leaves in each pixel, writes by the equations of two mask writes. -/
theorem maskWriteLaws : Obligations.MaskWriteLaws := by
  intro s x y b hm hx hy
  have hexec := exec_wr1_of_range ⟨hx, hy⟩ b
  have hagain := exec_wr1_setMask_maskPut hm ⟨hx, hy⟩ b
  refine ⟨_, hexec, ?_, ?_, (hagain b).trans hexec, hagain, ?_⟩
  · have hbit := (maskBit_maskPut (y := y) hm hx hx b).trans (if_pos ⟨rfl, rfl⟩)
    rw [exec_rd1_setMask ⟨hx, hy⟩, hbit]
    rfl
  · intro x' y' hx' hy' hne
    refine ⟨_, exec_rd1_of_range ⟨hx', hy'⟩, ?_⟩
    rw [exec_rd1_setMask ⟨hx', hy'⟩, maskBit_maskPut hm hx hx', if_neg hne]
    rfl
  · intro x' y' b' hx' hy' hne
    refine ⟨_, _, exec_wr1_of_range ⟨hx', hy'⟩ b', exec_wr1_setMask ⟨hx', hy'⟩ _ b', ?_⟩
    rw [exec_wr1_setMask ⟨hx, hy⟩, maskPut_comm hm hx hx' hne]

/-- Settles O17: the surface is read at the place of the pixel (R51), off it RD2 halts. -/
theorem rd2ReadsPixelOrHalts : Obligations.Rd2ReadsPixelOrHalts :=
  ⟨decode_rd2Word, fun _ _ _ => ⟨exec_rd2_of_range, exec_rd2_off_range⟩⟩

/-- Settles O18: the mask is read at the place of the pixel (R52), off it RD1 halts. -/
theorem rd1ReadsMaskBitOrHalts : Obligations.Rd1ReadsMaskBitOrHalts := by
  refine ⟨decode_rd1Word, fun x y s => ⟨fun h => ?_, exec_rd1_off_range⟩⟩
  rw [← maskBit_eq_getLsbD]
  exact exec_rd1_of_range h

end Sys2Proof.Machine
end

section
/-! SUPPORT. S3X as nine selections: each output copies the centre's latch or the latch of one fixed side, by a test of
which letters compare equal and of nothing else. The laws of R105 to R108 follow from what the test needs. -/

namespace Sys2Proof.Machine

variable {nb : Neighbourhood} {e : EdgeFlags} {u v : Letter} {k : Nat}

/-! The selection of an output. -/

/-- The corner test of the sides `u` and `v`: they agree, and neither continues round the corner to the side opposite
the other (R104). -/
def cornerTest (eq : Letter → Letter → Bool) (u v u' v' : Letter) : Bool := eq u v && (!eq u u' && !eq v v')

/-- When output `k` copies its side, in terms of the equality test `eq` (R105). -/
def sideTest (eq : Letter → Letter → Bool) (k : Nat) : Bool :=
  let k1 := cornerTest eq .d .b .h .f
  let k3 := cornerTest eq .b .f .d .h
  let k7 := cornerTest eq .h .d .f .b
  let k9 := cornerTest eq .f .h .b .d
  match k with
  | 1 => k1
  | 2 => (k1 && !eq .e .c) || (k3 && !eq .e .a)
  | 3 => k3
  | 4 => (k7 && !eq .e .a) || (k1 && !eq .e .g)
  | 5 => false
  | 6 => (k3 && !eq .e .i) || (k9 && !eq .e .c)
  | 7 => k7
  | 8 => (k9 && !eq .e .g) || (k7 && !eq .e .i)
  | _ => k9

/-- The side that output `k` may copy (R101). -/
def outputSide : Nat → Letter
  | 1 | 4 | 7 => .d
  | 2 => .b
  | 5 => .e
  | 8 => .h
  | _ => .f

/-- The letter whose latch output `k` copies. -/
def outputSource (eq : Letter → Letter → Bool) (k : Nat) : Letter :=
  if sideTest eq k then outputSide k else .e

/-- Each output of Scale3x is the latch of its selected letter. -/
theorem scale3x_get (nb : Neighbourhood) (e : EdgeFlags) (k : Nat) :
    (scale3x nb e).get k = nb.get (outputSource (guardedEq nb e) k) := by
  rw [outputSource, apply_ite nb.get]
  match k with
  | 0 | 1 | 2 | 3 | 4 | 5 | 6 | 7 | 8 | _ + 9 => rfl

theorem scale3x_get_of_sideTest (h : sideTest (guardedEq nb e) k = true) :
    (scale3x nb e).get k = nb.get (outputSide k) := by
  rw [scale3x_get, outputSource, if_pos h]

/-! What the selection depends on. -/

/-- The premises of a corner law are its corner test (R107). -/
theorem cornerTest_of {eq : Letter → Letter → Bool} {u' v' : Letter} (huv : eq u v = true) (hu : eq u u' = false)
    (hv : eq v v' = false) : cornerTest eq u v u' v' = true := by
  simp [cornerTest, huv, hu, hv]

/-- The test compares different letters only. -/
theorem sideTest_congr {eq eq' : Letter → Letter → Bool} (h : ∀ u v, u ≠ v → eq u v = eq' u v) (k : Nat) :
    sideTest eq k = sideTest eq' k := by
  simp [sideTest, cornerTest, h]

theorem outputSource_congr {eq eq' : Letter → Letter → Bool} (h : ∀ u v, u ≠ v → eq u v = eq' u v) (k : Nat) :
    outputSource eq k = outputSource eq' k := by
  rw [outputSource, outputSource, sideTest_congr h]

/-! The selected letter is present. -/

/-- A corner test that holds has both of its sides present (R106 (1)). -/
theorem pres_of_cornerTest {u' v' : Letter} (h : cornerTest (guardedEq nb e) u v u' v' = true) :
    pres e u = true ∧ pres e v = true := by
  obtain ⟨huv, -⟩ := (Bool.and_eq_true _ _).mp h
  obtain ⟨hu, hv, -⟩ := pres_of_guardedEq huv
  exact ⟨hu, hv⟩

/-- The test of an edge's middle output needs one of the corner tests beside it (R104). -/
theorem corner_of_edgeTest {p q p' q' : Bool} (h : (p && q || p' && q') = true) : p = true ∨ p' = true := by
  simp only [Bool.or_eq_true, Bool.and_eq_true] at h
  exact h.imp And.left And.left

/-- An output that copies its side has that side present: every disjunct of its test holds a corner test of the side
(R106 (1)). -/
theorem pres_outputSide (h : sideTest (guardedEq nb e) k = true) : pres e (outputSide k) = true := by
  match k with
  | 1 => exact (pres_of_cornerTest h).1
  | 2 => exact (corner_of_edgeTest h).elim (fun k1 => (pres_of_cornerTest k1).2) (fun k3 => (pres_of_cornerTest k3).1)
  | 3 => exact (pres_of_cornerTest h).2
  | 4 => exact (corner_of_edgeTest h).elim (fun k7 => (pres_of_cornerTest k7).2) (fun k1 => (pres_of_cornerTest k1).1)
  | 5 => rfl
  | 6 => exact (corner_of_edgeTest h).elim (fun k3 => (pres_of_cornerTest k3).2) (fun k9 => (pres_of_cornerTest k9).1)
  | 7 => exact (pres_of_cornerTest h).2
  | 8 => exact (corner_of_edgeTest h).elim (fun k9 => (pres_of_cornerTest k9).2) (fun k7 => (pres_of_cornerTest k7).1)
  | 0 | _ + 9 => exact (pres_of_cornerTest h).1

/-- The letter that an output copies is present, so no output is undefined (R106 (1)). -/
theorem pres_outputSource (nb : Neighbourhood) (e : EdgeFlags) (k : Nat) :
    pres e (outputSource (guardedEq nb e) k) = true := by
  unfold outputSource
  split
  · next h => exact pres_outputSide h
  · rfl

/-- The side of an output is the left, top, right or bottom neighbour, save for the centre's own output (R106 (2)). -/
theorem outputSide_cases (k : Nat) : outputSide k = .e ∨ outputSide k ∈ [Letter.b, .d, .f, .h] := by
  unfold outputSide
  split <;> decide

/-- An output copies the centre or a present side neighbour (R106 (1), (2)). -/
theorem outputSource_cases (nb : Neighbourhood) (e : EdgeFlags) (k : Nat) :
    outputSource (guardedEq nb e) k = .e ∨
      ∃ u ∈ [Letter.b, .d, .f, .h], pres e u = true ∧ outputSource (guardedEq nb e) k = u := by
  by_cases h : sideTest (guardedEq nb e) k = true
  · rw [outputSource, if_pos h]
    exact (outputSide_cases k).imp_right fun hk => ⟨_, hk, pres_outputSide h, rfl⟩
  · exact .inl (if_neg h)

theorem scale3x_get_cases (nb : Neighbourhood) (e : EdgeFlags) (k : Nat) :
    (scale3x nb e).get k = nb.e ∨
      ∃ u ∈ [Letter.b, .d, .f, .h], pres e u = true ∧ (scale3x nb e).get k = nb.get u := by
  rw [scale3x_get]
  obtain h | ⟨u, hu, hpres, h⟩ := outputSource_cases nb e k <;> rw [h]
  · exact .inl rfl
  · exact .inr ⟨u, hu, hpres, rfl⟩

/-! Equality of latches, renamed and with made-up values. -/

/-- A one-to-one renaming keeps every guarded comparison (R106 (5)). -/
theorem guardedEq_rename {nb' : Neighbourhood} {f : PixelValue → PixelValue} (hf : Function.Injective f)
    (h : ∀ u, nb'.get u = f (nb.get u)) : guardedEq nb' e = guardedEq nb e := by
  funext u v
  simp only [guardedEq, h, hf.eq_iff]

theorem scale3x_get_rename {nb' : Neighbourhood} {f : PixelValue → PixelValue} (hf : Function.Injective f)
    (h : ∀ u, nb'.get u = f (nb.get u)) (k : Nat) : (scale3x nb' e).get k = f ((scale3x nb e).get k) := by
  rw [scale3x_get, scale3x_get, guardedEq_rename hf h, h]

/-- `val` gives every present position its latch's value and every absent one a value of its own that is no PixelValue
(R108). -/
structure MadeUp (nb : Neighbourhood) (e : EdgeFlags) (val : Letter → Nat) : Prop where
  present : ∀ u, pres e u = true → val u = (nb.get u).toNat
  absent : ∀ u, pres e u = false → 4 ≤ val u
  distinct : ∀ u v, pres e u = false → pres e v = false → val u = val v → u = v

/-- Guarded equality of two letters is plain equality of their values (R108). -/
theorem MadeUp.guardedEq_eq {val : Letter → Nat} (h : MadeUp nb e val) (huv : u ≠ v) :
    guardedEq nb e u v = decide (val u = val v) := by
  have hu : (nb.get u).toNat < 4 := (nb.get u).isLt
  have hv : (nb.get v).toNat < 4 := (nb.get v).isLt
  unfold guardedEq
  cases pu : pres e u <;> cases pv : pres e v
  · have hne : val u ≠ val v := fun hval => huv (h.distinct u v pu pv hval)
    simp [hne]
  · have hne : val u ≠ val v := by
      have hau := h.absent u pu
      have hpv := h.present v pv
      omega
    simp [hne]
  · have hne : val u ≠ val v := by
      have hpu := h.present u pu
      have hav := h.absent v pv
      omega
    simp [hne]
  · simp [h.present u pu, h.present v pv, BitVec.toNat_inj]

/-- Output `k` is the value of the letter that plain equality of the values selects, and that letter is present
(R108). -/
theorem MadeUp.scale3x_get {val : Letter → Nat} (h : MadeUp nb e val) (k : Nat) :
    ((scale3x nb e).get k).toNat = val (outputSource (fun u v => decide (val u = val v)) k) := by
  rw [Machine.scale3x_get, ← h.present _ (pres_outputSource nb e k),
    outputSource_congr (fun _ _ => h.guardedEq_eq)]

/-! The obligations. -/

/-- Settles O24: each output is the value of its selected letter (`MadeUp.scale3x_get`). -/
theorem s3xEqualsMadeUpValueForm : Obligations.S3xEqualsMadeUpValueForm := by
  intro s val hpresent habsent hdistinct
  have hout := (MadeUp.mk hpresent habsent hdistinct).scale3x_get
  refine ⟨_, rfl, (hout 1).trans ?_, (hout 2).trans ?_, (hout 3).trans ?_, (hout 4).trans ?_, hout 5,
    (hout 6).trans ?_, (hout 7).trans ?_, (hout 8).trans ?_, (hout 9).trans ?_⟩ <;>
    simp [outputSource, sideTest, outputSide, cornerTest, apply_ite val, and_assoc]

/-- Settles O25: a corner law is its output's equation, and in a flat region whatever latch an output copies holds the
centre's value. -/
theorem s3xPreservesEdgesAndFlatRegions : Obligations.S3xPreservesEdgesAndFlatRegions := by
  intro s
  refine ⟨_, rfl, ⟨?_, ?_, ?_, ?_⟩, fun hflat k _ _ => ?_⟩
  · exact fun hdb hbf hdh => scale3x_get_of_sideTest (k := 1) (cornerTest_of hdb hdh hbf)
  · exact fun hbf hbd hfh => scale3x_get_of_sideTest (k := 3) (cornerTest_of hbf hbd hfh)
  · exact fun hhd hhf hdb => scale3x_get_of_sideTest (k := 7) (cornerTest_of hhd hhf hdb)
  · exact fun hfh hfb hhd => scale3x_get_of_sideTest (k := 9) (cornerTest_of hfh hfb hhd)
  · obtain h | ⟨u, hu, hpres, h⟩ := scale3x_get_cases s.nb s.edge k
    · exact h
    · exact h.trans (hflat u hu hpres)

/-- Settles O26: the frame is the one field that S3X sets, the outputs are by `scale3x_get_cases`. -/
theorem s3xCopiesPresentSidesOnly : Obligations.S3xCopiesPresentSidesOnly :=
  fun s => ⟨_, rfl, rfl, rfl, fun k _ _ => scale3x_get_cases s.nb s.edge k⟩

/-- Settles O27: equal comparisons select the same letter, whose latch was renamed (`scale3x_get_rename`). -/
theorem s3xCommutesWithRenaming : Obligations.S3xCommutesWithRenaming := by
  intro s s' f hf hedge hnb
  refine ⟨_, _, rfl, rfl, fun k _ _ => ?_⟩
  change (scale3x s'.nb s'.edge).get k = _
  rw [hedge]
  exact scale3x_get_rename hf hnb k

/-- Settles O23: the corner predicates, named once in the model, are written out in each equation (R104). -/
theorem s3xComputesNineEquations : Obligations.S3xComputesNineEquations := by
  constructor
  · exact decode_packWord .s3x (d := 0) (c := 0) (b := 0) (a := 0) ⟨rfl, rfl, rfl, rfl⟩
  · intro s
    refine congrArg (fun out => Host.Outcome.next (s.setOut out)) ?_
    rw [scale3x, cornerK1, cornerK3, cornerK7, cornerK9, ← Bool.and_assoc, ← Bool.and_assoc, ← Bool.and_assoc,
      ← Bool.and_assoc]
    rfl

end Sys2Proof.Machine
end

section
/-! SUPPORT. The prescaler: the block of the mask that EMIT writes, what START leaves in the mask and on the surface, and
the two hooks where they are not accepted (R121 to R127, R153, R175, R191, R192, R223). -/

namespace Sys2Proof.Machine

variable {c : Config} {s : State} {w : Word} {i : Instr} {rest : List HostEvent}

/-! Hooks where they are not accepted. -/

/-- A hook's word issued on its own is refused, unless the block has halted (R123, R153). -/
theorem takeEvent_issued_hook (hp : s.phase ≠ .halted) (hw : decode w = .ok i) (hc : i.opClass = .command) :
    takeEvent (.issue w) s = .refuse .issuedCommand := by
  simp only [takeEvent, takeIssue, if_neg hp, hw, if_pos hc]

/-- Settles O6: the class of the operation decides between its meaning and the refusal. -/
theorem stepRunsIssuedOperation : Obligations.StepRunsIssuedOperation := by
  intro s w i rest hok hidle hp hin hw
  refine ⟨fun hc => step_issued hok (.inl hidle) hp hin hw hc, fun hc => ?_⟩
  rw [step_event hok (.inl hidle) hin, takeEvent_issued_hook (s := s.setInputs rest) hp hw hc]

/-- Settles O10: both hooks test PHASE before they do anything. -/
theorem hookOutOfPhaseHalts : Obligations.HookOutOfPhaseHalts :=
  fun _ => ⟨exec_start_halts, exec_update_halts⟩

/-! EMIT's block. -/

/-- Settles O29: pixel by pixel and byte by byte, what the nine writes leave in the mask. -/
theorem emitWritesItsBlock : Obligations.EmitWritesItsBlock := by
  intro x y s hm hx hy
  have hexec : exec (.emit x y) s = .next (s.setMask (emitMask s.cfg s.out x y emitOrder s.mask)) :=
    congrArg Result.outcome (emit_of_range hx hy)
  refine ⟨_, hexec, rfl, fun dx dy hdx hdy => ?_, fun u v hu hother => ?_, fun k hk => ?_⟩
  · have hu : 3 * x + dx < s.cfg.maskW := by unfold Config.maskW; omega
    have hblock : (3 * x + dx) / 3 = x ∧ (3 * y + dy) / 3 = y := by omega
    have hplace : (3 * x + dx) % 3 = dx ∧ (3 * y + dy) % 3 = dy := by omega
    rw [State.setMask_mask, maskBit_emitMask hm hx hu, if_pos hblock, hplace.1, hplace.2, tobit]
  · exact (maskBit_emitMask hm hx hu).trans (if_neg hother)
  · refine emitMask_read_other hm fun d hd => ?_
    obtain ⟨hdx, hdy⟩ := mem_emitOrder.mp hd
    exact hk d.1 d.2 hdx hdy

/-! START. -/

/-- START from UNSTARTED, up to its completion: the loop runs over the state that the three primitives leave, and gives
every mask pixel the value of R127. -/
theorem start_scan (hok : s.cfg.Ok) (h : s.MemoryOk) (hp : s.phase = .unstarted) :
    ∃ a : State, start s = .done ((a.setPhase .running).setSeq .idle) ∧ SameButScan (startPrimitives s) a ∧
      a.mask.wf ∧ a.mask.within s.cfg.maskBytes ∧
      ∀ u v, u < s.cfg.maskW → v < s.cfg.maskH →
        maskBit s.cfg a.mask u v = maskPixelFrom s.cfg (startPrimitives s).surf u v := by
  obtain ⟨hmwf, hmin, -, -⟩ := h
  obtain ⟨hW, hH⟩ := Config.src_le_screen_of_ok hok
  have hcfg : (startPrimitives s).cfg = s.cfg := by rw [startPrimitives_eq]
  have hmask : (startPrimitives s).mask = s.mask := by rw [startPrimitives_eq]
  have hscan := runAll_scanPixel (ps := scanOrder s.cfg) (s := startPrimitives s)
  rw [hcfg, hmask] at hscan
  obtain ⟨a, ha, hsame, hwf, hin, hbits⟩ := hscan (fun p hp => mem_scanOrder.mp hp) hW hH hmwf hmin
  refine ⟨a, ?_, hsame, hwf, hin, fun u v hu hv => ?_⟩
  · rw [start, if_pos hp, ha]
    rfl
  · have hvisited : (u / 3, v / 3) ∈ scanOrder s.cfg := by
      rw [mem_scanOrder]
      unfold Config.maskW at hu
      unfold Config.maskH at hv
      exact ⟨by omega, by omega⟩
    exact (hbits u v hu).trans (if_pos hvisited)

/-- Settles O30: the frame is that of the three primitives, the mask is the loop's (`start_scan`). -/
theorem startFillsMaskFromSurface : Obligations.StartFillsMaskFromSurface := by
  intro s hok hmem hp
  obtain ⟨a, hstart, hsame, hwf, hin, hbits⟩ := start_scan hok hmem hp
  have hsurf : a.surf = (startPrimitives s).surf := by rw [hsame]
  rw [← hsurf] at hbits
  refine ⟨_, congrArg Result.outcome hstart, ?_, hwf, hin, hbits⟩
  rw [startPrimitives_eq] at hsame
  rw [hsame]
  rfl

/-! The label on the surface. -/

/-- The label at the origin draws a pixel of the glyph region exactly when the font has foreground there (R175). -/
theorem textDots_origin_iff (hok : c.Ok) {x y : Nat} (hx : x < 8 * c.n) (hy : y < 8) :
    (∃ p ∈ textDots c 0 0, (x : Int) = p.x ∧ (y : Int) = p.y) ↔ c.fontBit (c.labelAt (x / 8)) (x % 8) y = true := by
  obtain ⟨-, -, -, -, -, -, hgw, hgh⟩ := Config.derived_of_ok hok
  simp only [mem_textDots, hgw, hgh]
  constructor
  · rintro ⟨p, ⟨j, -, row, -, col, hcol, hfont, rfl⟩, hpx, hpy⟩
    simp only at hpx hpy
    obtain ⟨rfl, rfl, rfl⟩ : j = x / 8 ∧ col = x % 8 ∧ row = y := by omega
    exact hfont
  · intro hfont
    refine ⟨_, ⟨x / 8, by omega, y, hy, x % 8, by omega, hfont, rfl⟩, ?_, ?_⟩
    · simp only; omega
    · simp only; omega

/-- Every dot of the label is in logical colour 0 (R175, D26). -/
theorem textDots_colour {x y : Int} {p : Dot} (h : p ∈ textDots c x y) : p.k = 0 := by
  obtain ⟨_, _, _, _, _, _, _, rfl⟩ := mem_textDots.mp h
  rfl

/-- What TEXT at the origin leaves in a pixel of the glyph region (R175). -/
theorem surfPixel_textOrigin (hok : c.Ok) {dc : DrawColour} {n : Nat} {m : Memory} (hm : m.wf) {x y : Nat}
    (hx : x < 8 * c.n) (hy : y < 8) :
    surfPixel c ((textDots c 0 0).foldl (drawDot c dc n) m) x y =
      if c.fontBit (c.labelAt (x / 8)) (x % 8) y then (dotValue dc n 0 x y).getD (surfPixel c m x y)
      else surfPixel c m x y := by
  obtain ⟨-, -, -, -, hW, hH, -⟩ := Config.bounds_of_ok hok
  have hdrawn := textDots_origin_iff hok hx hy
  by_cases hfont : c.fontBit (c.labelAt (x / 8)) (x % 8) y = true
  · rw [if_pos hfont]
    exact surfPixel_drawDots_some hm (by omega) (by omega) (fun p hp _ _ => textDots_colour hp) (hdrawn.mpr hfont)
  · rw [if_neg hfont]
    exact surfPixel_drawDots_none hm (by omega) (by omega) fun p hp hat => hfont (hdrawn.mp ⟨p, hp, hat⟩)

/-- Logical colour 0 of the spec's TEXT_DC is PixelValue 1 (R173). -/
theorem dotValue_textDc (n : Nat) (x y : Int) : dotValue 0x0002 n 0 x y = some 1 := by
  have h : dcmap 0x0002 0 = .slot 1 := by decide
  rw [dotValue, h]

/-- Settles O31: START's surface is TEXT's, drawn over background alone (`surfPixel_textOrigin`). -/
theorem startShowsLabelOnCleanSurface : Obligations.StartShowsLabelOnCleanSurface := by
  intro s hok hmem hp hclean hdc hbg
  obtain ⟨t, hexec, hsame, -⟩ := startFillsMaskFromSurface s hok hmem hp
  obtain ⟨-, -, hswf, -⟩ := hmem
  obtain ⟨-, -, hW, hH, -⟩ := Config.derived_of_ok hok
  refine ⟨t, hexec, fun x y hx hy => ?_⟩
  have hblank : surfPixel s.cfg s.surf x y = 0 := (hclean x (by omega) y (by omega)).trans hbg
  rw [hsame, hdc, surfPixel_textOrigin hok hswf hx hy, dotValue_textDc, hblank, Option.getD_some]

end Sys2Proof.Machine
end

section
/-! SUPPORT. The AnimationEngine: the palette of a clock, the rows of a window, the label cut out, and the frame that
UPDATE assembles from them (R140 to R156). -/

namespace Sys2Proof.Machine

/-! The slot of a stripe. -/

/-- Two stripes share a palette slot exactly when their numbers agree modulo 3 (R142). -/
theorem stripeSlot_inj {a b : Int} :
    BitVec.ofInt 2 (1 + a % 3) = BitVec.ofInt 2 (1 + b % 3) ↔ a % 3 = b % 3 := by
  constructor
  · intro h
    have hnat := congrArg BitVec.toNat h
    simp only [BitVec.toNat_ofInt] at hnat
    omega
  · intro h
    rw [h]

/-- Slot 0 is no stripe's (R142). -/
theorem stripeSlot_ne_zero (a : Int) : BitVec.ofInt 2 (1 + a % 3) ≠ 0 := by
  intro h
  have hnat := congrArg BitVec.toNat h
  rw [BitVec.toNat_ofInt, show (0 : BitVec 2).toNat = 0 from rfl] at hnat
  omega

/-- Of three stripes in a row one has any given slot but 0 (R142). -/
theorem exists_stripe_of_slot {slot : BitVec 2} (h : slot ≠ 0) (a : Int) :
    ∃ n, a ≤ n ∧ n < a + 3 ∧ BitVec.ofInt 2 (1 + n % 3) = slot := by
  have hpos : slot.toNat ≠ 0 := fun e => h (BitVec.eq_of_toNat_eq e)
  have hlt := slot.isLt
  refine ⟨a + (slot.toNat - 1 - a) % 3, by omega, by omega, BitVec.eq_of_toNat_eq ?_⟩
  rw [BitVec.toNat_ofInt]
  omega

/-! PALUPD. -/

variable {s t : State}

/-- The requests of PALUPD, as the statements spell them (R140, R142). -/
theorem palupdRequests_eq {c : Config} (h : c.ncc = 3) (clk : Int) :
    ((List.range c.ncc).map fun i => Instr.setpal (paletteSlot c clk i) (paletteColour c clk i)) =
      palupdRequests c clk := by
  simp only [h, paletteSlot_eq h, paletteColour_eq, emod_eq]
  rfl

/-- PALUPD leaves PAL[0] alone (R142). -/
theorem palupd_pal_get_zero (h : s.cfg.ncc = 3) : (palupd s).pal.get 0 = s.pal.get 0 := by
  rw [palupd_eq h]
  simp only [Palette.get_set, paletteSlot_eq h, if_neg (stripeSlot_ne_zero _).symm]

/-- After PALUPD the slot of each of the three stripes holds that stripe's colour (R142). -/
theorem palupd_pal_get (h : s.cfg.ncc = 3) {n : Int} (hlo : s.clock / (s.cfg.stripeHeight : Int) ≤ n)
    (hhi : n < s.clock / (s.cfg.stripeHeight : Int) + 3) :
    (palupd s).pal.get (BitVec.ofInt 2 (1 + n % 3)) = s.cfg.colourAt (n % (s.cfg.cts : Int)).toNat := by
  rw [palupd_eq h]
  simp only [Palette.get_set, paletteSlot_eq h, paletteColour_eq, emod_eq, stripeSlot_inj]
  rw [show stripeOf s.cfg s.clock = s.clock / (s.cfg.stripeHeight : Int) from rfl]
  generalize s.clock / (s.cfg.stripeHeight : Int) = a at hlo hhi
  obtain rfl | rfl | rfl : n = a + (0 : Nat) ∨ n = a + (1 : Nat) ∨ n = a + (2 : Nat) := by omega
  · rw [if_neg (by omega), if_neg (by omega), if_pos rfl]
  · rw [if_neg (by omega), if_pos rfl]
  · rw [if_pos rfl]

/-- Settles O33: the three slots are distinct, so each keeps what PALUPD wrote to it (`palupd_pal_get`). -/
theorem palupdRotatesPalette : Obligations.PalupdRotatesPalette := by
  intro s hok
  have hncc := (Config.derived_of_ok hok).1
  refine ⟨palupd s, rfl, ?_, palupd_pal_get_zero hncc, fun n => palupd_pal_get hncc⟩
  obtain ⟨p, hp⟩ := palupd_frame s
  rw [palupdRequests_eq hncc] at hp
  rw [hp]

/-- `STRIPE_HEIGHT*k` later the stripe number is greater by `k` (R155). -/
theorem stripe_add_period {c : Config} (hok : c.Ok) (clk : Int) (k : Nat) :
    (clk + c.stripeHeight * k) / (c.stripeHeight : Int) = clk / (c.stripeHeight : Int) + k := by
  have hpos := (Config.bounds_of_ok hok).1
  exact Int.add_mul_ediv_left _ _ (by omega)

/-- A multiple of the modulus does not show in the remainder (R155). -/
theorem emod_add_of_dvd {m k : Nat} (h : m ∣ k) (n : Int) : (n + k) % (m : Int) = n % m := by
  obtain ⟨q, rfl⟩ := h
  rw [Nat.cast_mul, Int.add_mul_emod_self_left]

/-- The slot and the colour of PALUPD's three SETPALs, in order (R142). -/
def palupdWrites (c : Config) (clk : Int) : List (BitVec 2 × Colour) :=
  (List.range 3).map fun (i : Nat) =>
    (BitVec.ofInt 2 (1 + (clk / (c.stripeHeight : Int) + (i : Int)) % 3),
      c.colourAt ((clk / (c.stripeHeight : Int) + (i : Int)) % (c.cts : Int)).toNat)

theorem palupdRequests_eq_map_writes (c : Config) (clk : Int) :
    palupdRequests c clk = (palupdWrites c clk).map fun p => .setpal p.1 p.2 := by
  rw [palupdRequests, palupdWrites, List.map_map]
  rfl

/-- The slots of two clocks whose stripe numbers are three apart (R155 (1)). -/
theorem palupdWrites_slots_period {c : Config} (hok : c.Ok) (clk : Int) :
    (palupdWrites c (clk + c.stripeHeight * (3 : Nat))).map Prod.fst = (palupdWrites c clk).map Prod.fst := by
  simp only [palupdWrites, List.map_map, stripe_add_period hok]
  refine List.map_congr_left fun i _ => stripeSlot_inj.mpr ?_
  omega

/-- Settles O34: three stripes on, the slots are the same modulo 3; `lcm(3, CTS)` stripes on, so are the colours modulo
CTS. -/
theorem palettePeriods : Obligations.PalettePeriods := by
  intro s s' hok hcfg
  obtain ⟨t, ht, hsame, -, hget⟩ := palupdRotatesPalette s hok
  obtain ⟨t', ht', hsame', -, hget'⟩ := palupdRotatesPalette s' (by rw [hcfg]; exact hok)
  rw [hcfg] at hsame' hget'
  refine ⟨t, t', ht, ht', fun hclk => ?_, fun hclk slot hslot => ?_⟩
  · refine ⟨palupdWrites s.cfg s.clock, palupdWrites s.cfg s'.clock, ?_, ?_, ?_⟩
    · rw [hclk]; exact (palupdWrites_slots_period hok s.clock).symm
    · rw [← palupdRequests_eq_map_writes]; exact congrArg State.requests hsame
    · rw [← palupdRequests_eq_map_writes]; exact congrArg State.requests hsame'
  · obtain ⟨n, hlo, hhi, rfl⟩ := exists_stripe_of_slot hslot (s.clock / (s.cfg.stripeHeight : Int))
    rw [hclk, stripe_add_period hok] at hget'
    have hlater := hget' (n + (Nat.lcm 3 s.cfg.cts : Nat)) (by omega) (by omega)
    have hslot3 : (n + (Nat.lcm 3 s.cfg.cts : Nat)) % 3 = n % 3 := emod_add_of_dvd (Nat.dvd_lcm_left 3 _) n
    rw [hslot3, emod_add_of_dvd (Nat.dvd_lcm_right 3 _)] at hlater
    rw [hlater, hget n hlo hhi]

/-! STRIPES. -/

/-- The bands are 2 to 4, one for each of three stripes (R143, R144). -/
theorem bandOf_eq {c : Config} (h : c.ncc = 3) (y : Int) : bandOf c y = 2 + y / (c.stripeHeight : Int) % 3 := by
  rw [bandOf, emod_eq, h]
  rfl

/-- What a line of a row's band draws is the row's value (R144). -/
theorem ofInt_bandOf_sub_one {c : Config} (h : c.ncc = 3) (y : Int) :
    BitVec.ofInt 2 (bandOf c y - 1) = rowValue c y := by
  rw [bandOf_eq h, rowValue]
  congr 1
  omega

/-- The requests of STRIPES, as the statements spell them (R143). -/
theorem stripesRequests_eq {c : Config} (h : c.ncc = 3) (clk : Int) :
    ((List.range c.windowHeight).flatMap fun (i : Nat) => stripeRequests c (clk + (i : Int))) =
      stripesRequests c clk := by
  simp only [stripeRequests, bandOf_eq h]
  rfl

/-- One row of STRIPES changes no byte but those of its own pixels (R143). -/
theorem stripeRow_read_other {y : Int} {k : Nat} (hwf : s.surf.wf)
    (hk : ∀ px py : Nat, px < s.cfg.screenW → py < s.cfg.screenH → (py : Int) = y →
      k ≠ (py * s.cfg.screenW + px) / 4) :
    (stripeRow y s).surf.read k = s.surf.read k := by
  rw [stripeRow_eq]
  refine drawDots_read_other hwf fun p hp hon => ?_
  obtain ⟨j, -, rfl⟩ := mem_hlineDots.mp hp
  obtain ⟨hx0, hx, hy0, hy⟩ := hon
  exact hk _ _ (by omega) (by omega) (Int.toNat_of_nonneg hy0)

/-- Rows of STRIPES change no byte but those of their own pixels (R143). -/
theorem stripeRows_read_other {k : Nat} {rows : List Nat} {top : Int} (hwf : s.surf.wf)
    (hk : ∀ i ∈ rows, ∀ px py : Nat, px < s.cfg.screenW → py < s.cfg.screenH → (py : Int) = top + (i : Int) →
      k ≠ (py * s.cfg.screenW + px) / 4) :
    (rows.foldl (fun (t : State) (i : Nat) => stripeRow (top + (i : Int)) t) s).surf.read k = s.surf.read k := by
  induction rows generalizing s with
  | nil => rfl
  | cons i rows ih =>
    have hcfg : (stripeRow (top + (i : Int)) s).cfg = s.cfg := by rw [stripeRow_eq]
    have hwf' : (stripeRow (top + (i : Int)) s).surf.wf := by rw [stripeRow_eq]; exact drawDots_wf hwf _
    rw [List.foldl_cons, ih hwf' (by rw [hcfg]; exact fun j hj => hk j (by simp [hj]))]
    exact stripeRow_read_other hwf (hk i (by simp))

/-- A byte that holds no pixel of the window keeps its value (R143). -/
theorem stripes_read_other {k : Nat} (hwf : s.surf.wf)
    (hk : ∀ px py : Nat, px < s.cfg.screenW → py < s.cfg.screenH → inWindow s.cfg s.clock py →
      k ≠ (py * s.cfg.screenW + px) / 4) :
    (stripes s).surf.read k = s.surf.read k := by
  refine stripeRows_read_other hwf fun i hi px py hpx hpy hrow => hk px py hpx hpy ?_
  have hi := List.mem_range.mp hi
  exact ⟨by omega, by omega⟩

/-- Settles O35: row by row (`stripes_spec`), and for the bytes `stripes_read_other`. -/
theorem stripesFillTheWindow : Obligations.StripesFillTheWindow := by
  rintro s hok ⟨-, -, hwf, hin⟩
  obtain ⟨hncc, hheight, -⟩ := Config.derived_of_ok hok
  have hstripe := (Config.bounds_of_ok hok).1
  obtain ⟨hsame, -, -, hdraws, hdc, hreq, hpix⟩ := stripes_spec hncc hwf hin
  rw [if_neg (by omega), bandOf_eq hncc] at hdc
  rw [stripesRequests_eq hncc] at hreq
  refine ⟨stripes s, rfl, ?_, fun px py hpx hpy => ?_, fun k => stripes_read_other hwf⟩
  · rw [← hdraws, ← hdc, ← hreq]; exact hsame
  · rw [hpix px py hpx hpy, ofInt_bandOf_sub_one hncc]

/-- The rows of the window lie in three stripes, the first of them the clock's (R145). -/
theorem stripe_of_inWindow {c : Config} (hok : c.Ok) {clk y : Int} (h : inWindow c clk y) :
    clk / (c.stripeHeight : Int) ≤ y / (c.stripeHeight : Int) ∧
      y / (c.stripeHeight : Int) < clk / (c.stripeHeight : Int) + 3 := by
  obtain ⟨-, hheight, -⟩ := Config.derived_of_ok hok
  have hpos := (Config.bounds_of_ok hok).1
  obtain ⟨hlo, hhi⟩ := h
  have hlast := Int.ediv_le_ediv (a := y) (b := clk + c.stripeHeight * (2 : Nat)) (c := c.stripeHeight)
    (by omega) (by omega)
  rw [stripe_add_period hok] at hlast
  exact ⟨Int.ediv_le_ediv (by omega) hlo, by omega⟩

/-- What PALUPD and STRIPES leave, in terms of the state before both (R142, R143, R144). -/
theorem stripes_palupd_spec (hok : s.cfg.Ok) (hmem : s.MemoryOk) :
    stripes (palupd s) = { s with
        pal := (palupd s).pal, surf := (stripes (palupd s)).surf, dc := (stripes (palupd s)).dc,
        requests := s.requests ++ palupdRequests s.cfg s.clock ++ stripesRequests s.cfg s.clock,
        draws := s.draws + s.cfg.windowHeight } ∧
      (∀ px py : Nat, px < s.cfg.screenW → py < s.cfg.screenH →
        surfPixel s.cfg (stripes (palupd s)).surf px py =
          if inWindow s.cfg s.clock py then rowValue s.cfg py else surfPixel s.cfg s.surf px py) ∧
      ∀ k, (∀ px py : Nat, px < s.cfg.screenW → py < s.cfg.screenH → inWindow s.cfg s.clock py →
          k ≠ (py * s.cfg.screenW + px) / 4) → (stripes (palupd s)).surf.read k = s.surf.read k := by
  obtain ⟨_, ⟨⟩, hpalupd, -⟩ := palupdRotatesPalette s hok
  have hok' : (palupd s).cfg.Ok := by rw [palupd_cfg]; exact hok
  obtain ⟨_, ⟨⟩, hstripes, hpix, hread⟩ := stripesFillTheWindow (palupd s) hok' (palupd_memoryOk hmem)
  have hclk : (palupd s).clock = s.clock := by rw [hpalupd]
  have hsurf : (palupd s).surf = s.surf := by rw [hpalupd]
  rw [palupd_cfg, hclk, hsurf] at hpix hread
  refine ⟨?_, hpix, hread⟩
  generalize stripes (palupd s) = b at hstripes ⊢
  rw [hstripes, hpalupd]

/-- Settles O36: PALUPD has given the slot that STRIPES draws a row in the colour of the row's stripe. -/
theorem rowColourIsFixed : Obligations.RowColourIsFixed := by
  intro s hok hmem
  obtain ⟨hsame, hpix, -⟩ := stripes_palupd_spec hok hmem
  refine ⟨palupd s, stripes (palupd s), rfl, rfl, fun px py hpx hpy hwin => ?_⟩
  obtain ⟨hlo, hhi⟩ := stripe_of_inWindow hok hwin
  rw [hpix px py hpx hpy, if_pos hwin, hsame]
  exact palupd_pal_get (Config.derived_of_ok hok).1 hlo hhi

/-! COMPOSITE. -/

/-- A byte that holds no pixel drawn in a colour keeps its value: a transparent dot writes nothing (R173, R174). -/
theorem drawDots_read_of_not_drawn {c : Config} {dc : DrawColour} {n : Nat} {m : Memory} (hm : m.wf)
    {dots : List Dot} {k : Nat}
    (h : ∀ p ∈ dots, dotValue dc n p.k p.x p.y ≠ none → onSurface c p.x p.y →
      k ≠ byteOf2 (pixelOffset c.screenW p.x.toNat p.y.toNat)) :
    (dots.foldl (drawDot c dc n) m).read k = m.read k := by
  induction dots generalizing m with
  | nil => rfl
  | cons p rest ih =>
    rw [List.foldl_cons, ih (drawDot_wf hm p) fun q hq => h q (by simp [hq])]
    cases hv : dotValue dc n p.k p.x p.y with
    | none => rw [drawDot_eq, hv]; rfl
    | some v => exact drawDot_read_other hm p (h p (by simp) (by rw [hv]; nofun))

/-- Pixel `(px, py)` lies under a `w × h` bitmap with its corner at `(x, y)` (R177). -/
abbrev UnderBitmap (x y : Int) (w h : Nat) (px py : Int) : Prop :=
  0 ≤ px - x ∧ px - x < w ∧ 0 ≤ py - y ∧ py - y < h

/-- What a blit leaves in each pixel of the surface: under the bitmap the value of its bit's colour (R177). -/
theorem surfPixel_blitDots {c : Config} {dc : DrawColour} {n : Nat} {m : Memory} (hm : m.wf) (mask : Memory)
    (x y : Int) (w h : Nat) {px py : Nat} (hpx : px < c.screenW) (hpy : py < c.screenH) :
    surfPixel c ((blitDots mask x y w h).foldl (drawDot c dc n) m) px py =
      if UnderBitmap x y w h px py then
        (dotValue dc n (if bitmapBit mask w (px - x).toNat (py - y).toNat then 1 else 0) px py).getD
          (surfPixel c m px py)
      else surfPixel c m px py := by
  split
  · rename_i hin
    obtain ⟨hx0, hx, hy0, hy⟩ := hin
    refine surfPixel_drawDots_some hm hpx hpy (fun p hp hpx' hpy' => ?_) ⟨_, mem_blitDots.mpr
      ⟨(py - y).toNat, by omega, (px - x).toNat, by omega, rfl⟩, by simp only; omega, by simp only; omega⟩
    obtain ⟨v, -, u, -, rfl⟩ := mem_blitDots.mp hp
    rw [show (px - x).toNat = u by simp only at hpx'; omega, show (py - y).toNat = v by simp only at hpy'; omega]
  · rename_i hout
    refine surfPixel_drawDots_none hm hpx hpy fun p hp hat => hout ?_
    obtain ⟨v, hv, u, hu, rfl⟩ := mem_blitDots.mp hp
    simp only at hat
    exact ⟨by omega, by omega, by omega, by omega⟩

/-- COMPOSITE_DC = 0x0010 draws a set mask pixel as PixelValue 0 and leaves the display under a clear one (R146,
R173). -/
theorem dotValue_compositeDc (n : Nat) (b : Bool) (x y : Int) :
    dotValue 0x0010 n (if b then 1 else 0) x y = if b then some 0 else none := by
  cases b <;> rfl

/-- The display pixels on set mask pixels are those under the centred mask whose bit is set (R146). -/
theorem onSetMaskPixel_iff (c : Config) (mask : Memory) (px py : Int) :
    onSetMaskPixel c mask px py ↔ UnderBitmap (maskLeft c) (maskTop c) c.maskW c.maskH px py ∧
      bitmapBit mask c.maskW (px - maskLeft c).toNat (py - maskTop c).toNat = true := by
  simp only [onSetMaskPixel, UnderBitmap, maskBit, and_assoc]

/-- The surface after COMPOSITE (R146, R177). -/
def compositeSurf (s : State) : Memory :=
  (blitDots s.mask (maskLeft s.cfg) (maskTop s.cfg) s.cfg.maskW s.cfg.maskH).foldl
    (drawDot s.cfg s.cfg.compositeDc s.draws) s.surf

/-- COMPOSITE, always done (R146). -/
theorem exec_composite (s : State) :
    exec .composite s =
      .next { s with surf := compositeSurf s, dc := s.cfg.compositeDc,
                     requests := s.requests ++ compositeRequests s.cfg, draws := s.draws + 1 } :=
  congrArg Result.outcome (composite_eq s)

/-- The pixels that COMPOSITE leaves (R146). -/
theorem surfPixel_compositeSurf (hwf : s.surf.wf) (hdc : s.cfg.compositeDc = 0x0010) {px py : Nat}
    (hpx : px < s.cfg.screenW) (hpy : py < s.cfg.screenH) :
    surfPixel s.cfg (compositeSurf s) px py =
      if onSetMaskPixel s.cfg s.mask px py then 0 else surfPixel s.cfg s.surf px py := by
  rw [compositeSurf, surfPixel_blitDots hwf _ _ _ _ _ hpx hpy, hdc, dotValue_compositeDc]
  by_cases hin : UnderBitmap (maskLeft s.cfg) (maskTop s.cfg) s.cfg.maskW s.cfg.maskH px py
  · simp only [if_pos hin, onSetMaskPixel_iff, and_iff_right hin]
    cases bitmapBit s.mask s.cfg.maskW (px - maskLeft s.cfg).toNat (py - maskTop s.cfg).toNat <;> rfl
  · rw [if_neg hin, if_neg fun h => hin ((onSetMaskPixel_iff ..).mp h).1]

/-- The bytes that COMPOSITE leaves alone (R146). -/
theorem compositeSurf_read_other (hwf : s.surf.wf) (hdc : s.cfg.compositeDc = 0x0010) {k : Nat}
    (hk : ∀ px py : Nat, px < s.cfg.screenW → py < s.cfg.screenH → onSetMaskPixel s.cfg s.mask px py →
      k ≠ (py * s.cfg.screenW + px) / 4) :
    (compositeSurf s).read k = s.surf.read k := by
  refine drawDots_read_of_not_drawn hwf fun p hp hdrawn hon => ?_
  obtain ⟨v, hv, u, hu, rfl⟩ := mem_blitDots.mp hp
  simp only at hdrawn hon ⊢
  rw [hdc, dotValue_compositeDc] at hdrawn
  obtain ⟨hx0, hx, hy0, hy⟩ := hon
  have hbit : bitmapBit s.mask s.cfg.maskW u v = true := by
    cases hb : bitmapBit s.mask s.cfg.maskW u v
    · rw [hb] at hdrawn; exact absurd rfl hdrawn
    · rfl
  refine hk _ _ (by omega) (by omega) ?_
  rw [Int.toNat_of_nonneg hx0, Int.toNat_of_nonneg hy0, onSetMaskPixel_iff, UnderBitmap,
    show maskLeft s.cfg + (u : Int) - maskLeft s.cfg = u by omega,
    show maskTop s.cfg + (v : Int) - maskTop s.cfg = v by omega]
  exact ⟨⟨by omega, by omega, by omega, by omega⟩, hbit⟩

/-- Settles O37: a set bit draws PixelValue 0, a clear one nothing (`dotValue_compositeDc`). -/
theorem compositeCutsTheLabelOut : Obligations.CompositeCutsTheLabelOut := by
  intro s hwf hdc
  refine ⟨_, exec_composite s, ?_, fun _ _ => surfPixel_compositeSurf hwf hdc,
    fun _ => compositeSurf_read_other hwf hdc⟩
  rw [hdc]

/-! UPDATE. -/

/-- PALUPD does not see SEQ (R24, R140). -/
theorem palupd_setSeq (s : State) (q : Seq) : palupd (s.setSeq q) = (palupd s).setSeq q :=
  List.foldl_hom (State.setSeq · q) fun _ _ => rfl

/-- STRIPES does not see SEQ (R24, R143). -/
theorem stripes_setSeq (s : State) (q : Seq) : stripes (s.setSeq q) = (stripes s).setSeq q :=
  List.foldl_hom (State.setSeq · q) fun _ _ => rfl

/-- COMPOSITE does not see SEQ, and is done (R146). -/
theorem composite_setSeq (s : State) (q : Seq) :
    ∃ a, composite s = .done a ∧ composite (s.setSeq q) = .done (a.setSeq q) :=
  ⟨_, composite_eq s, composite_eq (s.setSeq q)⟩

theorem advance_setSeq (s : State) (q : Seq) : advance (s.setSeq q) = (advance s).setSeq q := rfl

theorem State.setSeq_setSeq (s : State) (p q : Seq) : (s.setSeq p).setSeq q = s.setSeq q := rfl

/-- No step sees the positions that UPDATE passes through, and the last writes over them (R24, R153). -/
theorem exec_update_of_composite (hp : s.phase = .running)
    (ht : exec .composite (stripes (palupd s)) = .next t) :
    exec .update s = .next { advance t with seq := .idle } := by
  obtain ⟨c, hc, hcq⟩ := composite_setSeq (stripes (palupd s)) .uComposite
  obtain rfl : c = t := Host.Outcome.next.inj ((congrArg Result.outcome hc).symm.trans ht)
  have hupdate := update_running hp
  rw [palupd_setSeq, State.setSeq_setSeq, stripes_setSeq, State.setSeq_setSeq, hcq, Result.done_andThen,
    State.setSeq_setSeq, advance_setSeq, State.setSeq_setSeq] at hupdate
  exact congrArg Result.outcome hupdate

/-- Settles O39: COMPOSITE is always done, and UPDATE then is as `exec_update_of_composite` says. -/
theorem updateIsItsFourSteps : Obligations.UpdateIsItsFourSteps := fun _ hp =>
  ⟨_, _, _, _, rfl, rfl, exec_composite _, rfl, exec_update_of_composite hp (exec_composite _)⟩

/-- UPDATE's requests, as the statements spell them (R154). -/
theorem updateRequests_eq {c : Config} (h : c.ncc = 3) (clk : Int) :
    ((List.range c.ncc).map fun i => Instr.setpal (paletteSlot c clk i) (paletteColour c clk i)) ++
        ((List.range c.windowHeight).flatMap fun (i : Nat) => stripeRequests c (clk + (i : Int))) ++
        [.setdc c.compositeDc, .blit1 (compositeX c) (compositeY c) c.maskW c.maskH] =
      updateRequests c clk := by
  rw [palupdRequests_eq h, stripesRequests_eq h]
  rfl

/-- NCC SETPALs, a pair for each row, a pair for the label (R154). -/
theorem length_updateRequests {c : Config} (h : c.ncc = 3) (clk : Int) :
    (updateRequests c clk).length = c.ncc + 2 * c.windowHeight + 2 := by
  simp only [updateRequests, palupdRequests, stripesRequests, compositeRequests, List.length_append, List.length_map,
    List.length_flatMap, List.length_range, List.length_cons, List.length_nil, List.map_const', List.sum_replicate, h,
    smul_eq_mul]
  omega

/-- Settles O41: the requests of `update_frame`, counted by `length_updateRequests`. -/
theorem updateRequestSequence : Obligations.UpdateRequestSequence := by
  intro s hok hp
  have hncc := (Config.derived_of_ok hok).1
  obtain ⟨p, m, n, e⟩ := update_frame hp
  rw [updateRequests_eq hncc] at e
  exact ⟨_, congrArg Result.outcome e, rfl, length_updateRequests hncc s.clock⟩

/-- Settles O42: the requests and the clock of `update_frame` are written in the clock and the constants. -/
theorem updateDependsOnClockAlone : Obligations.UpdateDependsOnClockAlone := by
  intro s s' hp hp' hcfg hclk
  obtain ⟨p, m, n, e⟩ := update_frame hp
  obtain ⟨p', m', n', e'⟩ := update_frame hp'
  rw [hcfg, hclk] at e'
  exact ⟨_, _, _, congrArg Result.outcome e, congrArg Result.outcome e', rfl, rfl, rfl⟩

/-- Settles O40: COMPOSITE cuts the label out of the picture that PALUPD and STRIPES leave, and ADVANCE steps the
clock. -/
theorem updateDrawsOneFrame : Obligations.UpdateDrawsOneFrame := by
  intro s hok hfits hholds hmem hp hdc
  obtain ⟨_, ⟨⟩, -, hpal0, hpal⟩ := palupdRotatesPalette s hok
  obtain ⟨hsame, hpix, hread⟩ := stripes_palupd_spec hok hmem
  have hok' : (palupd s).cfg.Ok := by rw [palupd_cfg]; exact hok
  obtain ⟨-, -, hwf, -⟩ := stripes_memoryOk hok' (palupd_memoryOk hmem)
  have hexec {t : State} := exec_update_of_composite (t := t) hp
  generalize stripes (palupd s) = b at hsame hpix hread hwf hexec
  have hcfg : b.cfg = s.cfg := by rw [hsame]
  have hmask : b.mask = s.mask := by rw [hsame]
  obtain ⟨c, hc, hsamec, hpixc, hreadc⟩ := compositeCutsTheLabelOut b hwf (by rw [hcfg]; exact hdc)
  rw [hcfg, hmask] at hpixc hreadc
  have hpalc : c.pal = (palupd s).pal := by rw [hsamec, hsame]
  have hadvance : advance c = { c with clock := advancedClock s.cfg s.clock } := by
    rw [hsamec, hsame]; rfl
  refine ⟨_, hexec hc, ?_, ?_, ?_, ?_, ?_, ?_⟩
  all_goals rw [hadvance]
  · rw [hsamec, hsame]
    simp only [updateRequests, List.append_assoc]
  · exact hpalc ▸ hpal0
  · exact hpalc ▸ hpal
  · exact advancedClock_eq (Config.bounds_of_ok hok).2.1 hfits hholds
  · exact fun px py hpx hpy => (hpixc px py hpx hpy).trans (by rw [hpix px py hpx hpy])
  · exact fun k hk => (hreadc k fun px py hpx hpy hset => hk px py hpx hpy (.inl hset)).trans
      (hread k fun px py hpx hpy hwin => hk px py hpx hpy (.inr hwin))

end Sys2Proof.Machine
end

section
/-! SUPPORT. The host's primitives and the host's own writes: the meaning of a draw colour's field, the pixels and bytes
that each drawing primitive touches, and one pixel set and read back (R171 to R181). -/

namespace Sys2Proof.Machine

variable {c : Config} {dc : DrawColour} {n : Nat} {m : Memory} {s t : State}

/-! SETPAL, SETDC and the fields of a draw colour. -/

/-- Settles O45: SETPAL sets one entry of the palette (`Palette.get_set`). -/
theorem setpalWritesOneEntry : Obligations.SetpalWritesOneEntry := fun slot rgb s =>
  ⟨setpal slot rgb s, rfl, setpal_eq slot rgb s, fun slot' => Palette.get_set s.pal slot slot' rgb⟩

/-- Settles O46: the selector is one named update of the state (`setdc_eq`). -/
theorem setdcWritesTheSelector : Obligations.SetdcWritesTheSelector := fun value s =>
  congrArg Host.Outcome.next (setdc_eq value s)

/-- Field `k` is hexadecimal digit `k` of the draw colour (R173). -/
theorem toNat_dcField (dc : DrawColour) (k : Nat) : (dcField dc k).toNat = dc.toNat / 16 ^ k % 16 := by
  rw [dcField, BitVec.extractLsb'_toNat, Nat.shiftRight_eq_div_pow, pow_mul]
  rfl

/-- Settles O47: `dcmap` decides on the digit (`toNat_dcField`). -/
theorem dcmapOfAField : Obligations.DcmapOfAField := by
  intro dc k _
  simp only [dcmap, toNat_dcField]

/-! The pixels and bytes that a list of dots draws. -/

/-- A dot of the list lies on pixel `(px, py)`. -/
abbrev CoveredBy (dots : List Dot) (px py : Int) : Prop := ∃ p ∈ dots, px = p.x ∧ py = p.y

/-- Dots of one logical colour give the pixels they cover that colour's value and leave every other (R174, R179). -/
theorem surfPixel_drawDots_of_colour (hm : m.wf) {dots : List Dot} {k px py : Nat} (hk : ∀ p ∈ dots, p.k = k)
    (hpx : px < c.screenW) (hpy : py < c.screenH) :
    surfPixel c (dots.foldl (drawDot c dc n) m) px py =
      if CoveredBy dots px py then (dotValue dc n k px py).getD (surfPixel c m px py)
      else surfPixel c m px py := by
  split
  · rename_i hcov
    exact surfPixel_drawDots_some hm hpx hpy (fun p hp _ _ => hk p hp) hcov
  · rename_i hcov
    exact surfPixel_drawDots_none hm hpx hpy fun p hp hat => hcov ⟨p, hp, hat⟩

/-- A byte of none of the surface pixels that the dots cover keeps its value: dots off the surface write nothing
(R51, R179). -/
theorem drawDots_read_of_not_covered (hm : m.wf) {dots : List Dot} {k : Nat}
    (h : ∀ px py : Nat, px < c.screenW → py < c.screenH → CoveredBy dots px py →
      k ≠ (py * c.screenW + px) / 4) :
    (dots.foldl (drawDot c dc n) m).read k = m.read k := by
  refine drawDots_read_other hm fun p hp hon => ?_
  obtain ⟨hx0, hx, hy0, hy⟩ := hon
  exact h _ _ (by omega) (by omega) ⟨p, hp, Int.toNat_of_nonneg hx0, Int.toNat_of_nonneg hy0⟩

/-! TEXT. -/

/-- Pixel `(px, py)` is a foreground pixel of the label with its first cell at `(x, y)` (R175). -/
def OnLabel (c : Config) (x y px py : Int) : Prop :=
  ∃ j row col : Nat, j < c.n ∧ row < 8 ∧ col < 8 ∧ c.fontBit (c.labelAt j) col row = true ∧
    px = x + 8 * j + col ∧ py = y + row

theorem coveredBy_textDots_iff (hok : c.Ok) {x y px py : Int} :
    CoveredBy (textDots c x y) px py ↔ OnLabel c x y px py := by
  obtain ⟨-, -, -, -, -, -, hgw, hgh⟩ := Config.derived_of_ok hok
  simp only [CoveredBy, mem_textDots, hgw, hgh]
  constructor
  · rintro ⟨_, ⟨j, hj, row, hrow, col, hcol, hfont, rfl⟩, hpx, hpy⟩
    exact ⟨j, row, col, hj, hrow, hcol, hfont, by simp only at hpx; omega, hpy⟩
  · rintro ⟨j, row, col, hj, hrow, hcol, hfont, hpx, hpy⟩
    exact ⟨_, ⟨j, hj, row, hrow, col, hcol, hfont, rfl⟩, by simp only; omega, hpy⟩

/-- Settles O48: the label's dots are its foreground pixels (`coveredBy_textDots_iff`), all in logical colour 0. -/
theorem textDrawsForeground : Obligations.TextDrawsForeground := by
  intro x y s hok hwf
  refine ⟨text x y s, rfl, text_eq x y s, fun px py hpx hpy => ?_, fun k hk => ?_⟩
  · have hpix := surfPixel_drawDots_of_colour (dc := s.dc) (n := s.draws) hwf
      (fun _ => textDots_colour (c := s.cfg) (x := x) (y := y)) hpx hpy
    exact ⟨fun h => hpix.trans (if_pos ((coveredBy_textDots_iff hok).mpr h)),
      fun h => hpix.trans (if_neg fun hcov => h ((coveredBy_textDots_iff hok).mp hcov))⟩
  · exact drawDots_read_of_not_covered hwf fun px py hpx hpy hcov =>
      hk px py hpx hpy ((coveredBy_textDots_iff hok).mp hcov)

/-! HLINE. -/

theorem coveredBy_hlineDots_iff {x y px py : Int} {len : Nat} :
    CoveredBy (hlineDots x y len) px py ↔ py = y ∧ x ≤ px ∧ px < x + len := by
  simp only [CoveredBy, mem_hlineDots]
  constructor
  · rintro ⟨_, ⟨j, hj, rfl⟩, hpx, hpy⟩
    simp only at hpx hpy
    omega
  · rintro ⟨hpy, hlo, hhi⟩
    exact ⟨_, ⟨(px - x).toNat, by omega, rfl⟩, by simp only; omega, hpy⟩

/-- Every dot of a line is in logical colour 0 (R176, D26). -/
theorem hlineDots_colour {x y : Int} {len : Nat} {p : Dot} (h : p ∈ hlineDots x y len) : p.k = 0 := by
  obtain ⟨_, _, rfl⟩ := mem_hlineDots.mp h
  rfl

/-- Settles O49: the line's dots are its run of pixels (`coveredBy_hlineDots_iff`), all in logical colour 0. -/
theorem hlineDrawsARun : Obligations.HlineDrawsARun := by
  intro x y len s hwf
  refine ⟨hline x y len s, rfl, hline_eq x y len s, fun px py hpx hpy => ?_, fun k hk => ?_⟩
  · simp only [← coveredBy_hlineDots_iff]
    exact surfPixel_drawDots_of_colour hwf (fun _ => hlineDots_colour) hpx hpy
  · refine drawDots_read_of_not_covered hwf fun px py hpx hpy hcov => ?_
    obtain ⟨hrow, hlo, hhi⟩ := coveredBy_hlineDots_iff.mp hcov
    exact hk px py hpx hpy hrow hlo hhi

/-! BLIT1. -/

theorem coveredBy_blitDots_iff {mask : Memory} {x y px py : Int} {w h : Nat} :
    CoveredBy (blitDots mask x y w h) px py ↔ UnderBitmap x y w h px py := by
  simp only [CoveredBy, mem_blitDots, UnderBitmap]
  constructor
  · rintro ⟨_, ⟨v, hv, u, hu, rfl⟩, hpx, hpy⟩
    simp only at hpx hpy
    omega
  · rintro ⟨hx0, hx, hy0, hy⟩
    refine ⟨_, ⟨(py - y).toNat, by omega, (px - x).toNat, by omega, rfl⟩, ?_, ?_⟩
    · simp only; omega
    · simp only; omega

theorem underBitmap_iff {x y px py : Int} {w h : Nat} :
    UnderBitmap x y w h px py ↔ x ≤ px ∧ px < x + w ∧ y ≤ py ∧ py < y + h := by
  unfold UnderBitmap; omega

/-- Settles O50: the pixels are those of `surfPixel_blitDots`, the bit of each is where R52 puts it. -/
theorem blit1CompositesTheMask : Obligations.Blit1CompositesTheMask := by
  intro x y w h s hwf hsize
  refine ⟨_, congrArg Result.outcome (blit1_of_le hsize), rfl, fun px py hpx hpy => ?_, fun k hk => ?_⟩
  · simp only [← underBitmap_iff, ← getPixel1_eq_getLsbD]
    exact surfPixel_blitDots hwf s.mask x y w h hpx hpy
  · refine drawDots_read_of_not_covered hwf fun px py hpx hpy hcov => ?_
    obtain ⟨hx, hx', hy, hy'⟩ := underBitmap_iff.mp (coveredBy_blitDots_iff.mp hcov)
    exact hk px py hpx hpy hx hx' hy hy'

/-- Settles O51: BLIT1 tests the size before it draws. -/
theorem oversizedBlitIsRefused : Obligations.OversizedBlitIsRefused := fun _ _ _ _ _ hsize =>
  congrArg Result.outcome (blit1_of_gt (not_le.mpr hsize))

/-! SurfSet. -/

theorem exec_rd2_setSurf {x y : Nat} (h : x < s.cfg.screenW ∧ y < s.cfg.screenH) (m : Memory) :
    exec (.rd2 x y) (s.setSurf m) = .next ((s.setSurf m).setRes (surfPixel s.cfg m x y)) :=
  exec_rd2_of_range (s := s.setSurf m) h

/-- Settles O22: RD2 reads the pixel, and SurfSet changes its own alone (`surfPixel_surfSet`). -/
theorem surfSetThenRead : Obligations.SurfSetThenRead := by
  intro s x y v hwf
  refine ⟨fun px py hpx hpy => ?_, fun hoff => surfSet_off hoff v⟩
  have hread := exec_rd2_setSurf ⟨hpx, hpy⟩ (surfSet s.cfg s.surf x y v)
  rw [surfPixel_surfSet hwf x y v hpx hpy] at hread
  constructor
  · rintro ⟨rfl, rfl⟩
    rwa [if_pos ⟨rfl, rfl⟩] at hread
  · intro hne
    rw [if_neg fun h => hne ⟨h.1.symm, h.2.symm⟩] at hread
    exact ⟨_, exec_rd2_of_range ⟨hpx, hpy⟩, hread⟩

/-! The host's own writes. -/

/-- Between hooks an event that gives the block no operation is taken, and the step ends there (R181, R220). -/
theorem step_of_takeEvent_silent {e : HostEvent} {rest : List HostEvent} (hok : s.cfg.Ok) (hb : s.BetweenHooks)
    (hin : s.inputs = e :: rest) (he : takeEvent e (s.setInputs rest) = .silent t) : step s = .next t := by
  rw [step_event hok hb hin, he]

/-- Settles O16: each write is a silent event, one byte (`Memory.read_write`), one entry (`Palette.get_set`) or the
selector. -/
theorem hostWritesOnlyItsOwn : Obligations.HostWritesOnlyItsOwn := by
  intro s rest hok hb hwf
  refine ⟨fun k v hin hk => ?_, fun slot rgb hin => ?_, fun value hin => ?_⟩
  · exact ⟨_, step_of_takeEvent_silent hok hb hin (if_pos hk), rfl, Memory.read_write hwf k v⟩
  · exact ⟨_, step_of_takeEvent_silent hok hb hin rfl, rfl, fun slot' => Palette.get_set s.pal slot slot' rgb⟩
  · exact step_of_takeEvent_silent hok hb hin rfl

end Sys2Proof.Machine
end

section
/-! SUPPORT. The two faces of the halt: a coordinate off its grid enters HALTED (R191, R193), and nothing that the ports
bring the block in HALTED changes anything (R192, R194). -/

namespace Sys2Proof.Machine

variable {i : Instr} {s : State} {x y : Nat}

/-! Off the grid. -/

theorem exec_gather_off_range (h : ¬ (x < s.cfg.srcW ∧ y < s.cfg.srcH)) :
    exec (.gather x y) s = .next (s.setPhase .halted) :=
  congrArg Result.outcome (gather_off_range h)

theorem exec_emit_off_range (h : ¬ (x < s.cfg.srcW ∧ y < s.cfg.srcH)) :
    exec (.emit x y) s = .next (s.setPhase .halted) :=
  congrArg Result.outcome (emit_off_range h)

/-- Settles O21: each operation tests its coordinate against its own grid before it does anything. -/
theorem offGridCoordinateHalts : Obligations.OffGridCoordinateHalts := by
  intro x y s
  have off {w h : Nat} (hxy : w ≤ x ∨ h ≤ y) : ¬ (x < w ∧ y < h) := by omega
  refine ⟨fun hxy => ?surface, fun hxy => ?mask, fun hxy => ?source⟩
  case surface => exact exec_rd2_off_range (off hxy)
  case mask => exact ⟨exec_rd1_off_range (off hxy), exec_wr1_off_range (off hxy)⟩
  case source => exact ⟨exec_gather_off_range (off hxy), exec_emit_off_range (off hxy)⟩

/-! In HALTED. -/

/-- The hooks are the whole of class C (R71, R73). -/
theorem opClass_eq_command_iff : i.opClass = .command ↔ i = .start ∨ i = .update := by
  cases i <;> simp [Instr.opClass]

/-- In HALTED every word on the command port is a breach: neither hook is in its phase (R192). -/
theorem command_breach_of_halted (w : Word) (hp : s.phase = .halted) :
    (∀ i, decode w = .ok i → i.opClass ≠ .command) ∨
      (decode w = .ok .start ∧ s.phase ≠ .unstarted) ∨ (decode w = .ok .update ∧ s.phase ≠ .running) := by
  by_cases hook : ∃ i, decode w = .ok i ∧ i.opClass = .command
  · obtain ⟨i, hw, hc⟩ := hook
    obtain rfl | rfl := opClass_eq_command_iff.mp hc
    · exact .inr (.inl ⟨hw, by simp [hp]⟩)
    · exact .inr (.inr ⟨hw, by simp [hp]⟩)
  · exact .inl fun i hw hc => hook ⟨i, hw, hc⟩

theorem State.setPhase_eq_self {p : Phase} (hp : s.phase = p) : s.setPhase p = s := by subst hp; rfl

/-- Settles O11: a command word breaches the protocol, and its halt enters the phase the block is in; an issued word is
taken silently. -/
theorem haltedBlockIsInert : Obligations.HaltedBlockIsInert := by
  intro s w rest hok hp
  have hb : s.BetweenHooks := .inr hp
  refine ⟨fun hin => ?command, fun hin => ?issued⟩
  case command =>
    have hhalt := commandPortHaltsOnBreach s w rest hok hb hin (command_breach_of_halted w hp)
    have hstay := State.setPhase_eq_self (s := { s with inputs := rest, cmdOpen := true }) hp
    exact hhalt.trans (congrArg Host.Outcome.next hstay)
  case issued => exact step_of_takeEvent_silent hok hb hin (if_pos hp)

end Sys2Proof.Machine
end

section
/-! SUPPORT. Reset: what it puts in the block's own state, what it leaves to the host, and the wait for a command after
it (R220, R221). -/

namespace Sys2Proof.Machine

variable {s : State} {rest : List HostEvent}

/-- Reset gives the sequencing state the values of the reset state (R37, R220). -/
theorem resetBlock_resets (s : State) :
    (resetBlock s).clock = State.reset.clock ∧ (resetBlock s).phase = State.reset.phase ∧
      (resetBlock s).seq = State.reset.seq :=
  ⟨rfl, rfl, rfl⟩

/-- Reset leaves the host's state, the constants, the transcript and the queue of events (R220). -/
theorem resetBlock_keeps (s : State) :
    (resetBlock s).pal = s.pal ∧ (resetBlock s).dc = s.dc ∧ (resetBlock s).surf = s.surf ∧ (resetBlock s).cfg = s.cfg ∧
      (resetBlock s).requests = s.requests ∧ (resetBlock s).inputs = s.inputs :=
  ⟨rfl, rfl, rfl, rfl, rfl, rfl⟩

/-- Between hooks, or in HALTED, the reset event resets the block and the step ends there (R220). -/
theorem step_reset (hok : s.cfg.Ok) (hb : s.BetweenHooks) (hin : s.inputs = .reset :: rest) :
    step s = .next (resetBlock (s.setInputs rest)) :=
  step_of_takeEvent_silent hok hb hin rfl

/-- Settles O12: the step is the reset of the block, and the reset state has the spec's values. -/
theorem resetRestartsTheBlock : Obligations.ResetRestartsTheBlock := by
  intro s rest hok hb hin
  obtain ⟨hclock, hphase, hseq⟩ := resetBlock_resets (s.setInputs rest)
  obtain ⟨clock_zero, phase_unstarted, seq_idle⟩ := resetValuesOfTheSpec
  exact ⟨_, step_reset hok hb hin, hclock.trans clock_zero, hphase.trans phase_unstarted, hseq.trans seq_idle,
    resetBlock_keeps (s.setInputs rest)⟩

/-- Settles O14: there is neither a position of a hook nor a host event to take (`step_idle`). -/
theorem blockWaitsForACommand : Obligations.BlockWaitsForACommand := fun _ hok hb hin => step_idle hok hb hin

end Sys2Proof.Machine
end
